-- ==== Sys2Proof/Word.lean ====
section
/-! DEFINITION. The words of MINIMGCS-LINK/1: bytes, 32-bit field registers, 11-bit channel values and scaled values
(spec/00_scope.md R9, R10, R13). -/

namespace Sys2Proof

/-- A byte, 8 bits, unsigned 0 to 255 (R10). -/
abbrev Byte := BitVec 8

/-- A field register's contents: 32 bits, read as a signed integer (R9, R26). -/
abbrev Word32 := BitVec 32

/-- A channel value: 11 bits, 0 to 2047 (R28); a value outside that range is not representable (U4). -/
abbrev Chan := BitVec 11

/-- A scaled field of fixed denominator `den`: the register holds the numerator and nothing rounds (R13). -/
structure Scaled (den : Nat) where
  /-- The numerator, the 32-bit signed contents of the field register. -/
  raw : Word32
  deriving DecidableEq, Repr

/-- The exact rational number `F[i] / den` (R13). -/
def Scaled.value {den : Nat} (x : Scaled den) : Rat :=
  mkRat x.raw.toInt den

end Sys2Proof
end

