-- ==== Sys2Proof/Config.lean ====
section
/-! DEFINITION. What an instance of the block fixes (the one open parameter ENC_CRC_START, R8) and the free values: the
contents that spec/10_state.md R40 leaves unspecified after RESET. A free value is an opaque constant without a body, read
at the counter `free` of State, so no proof can see which value it is (log entries 4, 6 and 9, DESIGN CHOICE). -/

namespace Sys2Proof

/-- `ENC_CRC_START`, in {1, 2}: the index in the 25 bytes before the CRC of the first byte the encoder's CRC covers (R8).
It is fixed for the life of an instance (R32). -/
inductive EncCrcStart where
  /-- 1, the document's value and the default: the CRC covers the length byte too. -/
  | lengthByte
  /-- 2, the alternative, which makes an encoded frame pass the block's own validator. -/
  | typeByte
  deriving DecidableEq, Repr

/-- The numeric value of the parameter (R8). -/
def EncCrcStart.index : EncCrcStart → Nat
  | .lengthByte => 1
  | .typeByte => 2

/-- Contents of `F[i]` after a RESET: unspecified (R40). First argument: the counter; second: the slot. -/
opaque Config.freeField : Nat → Nat → Word32

/-- Contents of `CRCACC_RX` (second argument 0) and `CRCACC_TX` (1) after a RESET: unspecified (R40). -/
opaque Config.freeCrc : Nat → Nat → Byte

/-- Contents of `CH[i]` after a RESET: unspecified (R40). -/
opaque Config.freeChan : Nat → Nat → Chan

/-- Contents of `TXF[a]` after a RESET: unspecified (R40). First argument: the counter; second: the address. -/
opaque Config.freeTxf : Nat → Nat → Byte

/-- Contents of the model's own register of the packed bytes after a RESET. -/
opaque Config.freePacked : Nat → Nat → Byte

/-- The model's own result bit of VALIDATE after a RESET. -/
opaque Config.freeBit : Nat → Bool

/-- Contents of `FB[i]` at and beyond `RXCNT`: unspecified, never read (R40). -/
opaque Config.freeFb : Nat → Nat → Byte

end Sys2Proof
end

