-- ==== Sys2Proof/Syntax.lean ====
section
/-! DEFINITION. The operation set MINIMGCS-LINK/1: one constructor of Instr per row of spec/opcode_table.json (R86), and the
words in which an operation stands at the block's ports. R85's script statements are the constructors `reset`, `feed`,
`encode`, `validate`, `decode` and `crc8`. -/

namespace Sys2Proof

/-- The two instances of the CRC-8 logic, one per path (R25, R128). -/
inductive CrcUnit where
  /-- `CRCACC_RX`, the validator's. -/
  | rx
  /-- `CRCACC_TX`, the encoder's. -/
  | tx
  deriving DecidableEq, Repr

/-- The three arms of the deframer's scan loop (R112). -/
inductive ScanArm where
  | discard
  | emit
  | wait
  deriving DecidableEq, Repr

/-- The two operand forms of FEED: a whole chunk (one FEED transaction, R39, R101), or one beat of the RX byte stream in the
streaming form (R38, R108), `last` being `rx_last`. -/
inductive RxOperand where
  | chunk (bytes : List Byte)
  | beat (data : Byte) (last : Bool)
  deriving DecidableEq, Repr

/-- The two operand forms of ENCODE: the values of a whole ChannelSet (R85, R188), or the one beat of the TX channel stream
that carries `ch_last` = 1 and commits the set loaded so far (R39, R182). -/
inductive ChOperand where
  | values (vs : List Chan)
  | lastBeat (v : Chan)
  deriving DecidableEq, Repr

/-- The instructions. A `frame` operand is the candidate frame `FRAME[0 .. L)` with `L` its length in bytes (R11). -/
inductive Instr where
  /-- DEC_GPS (R156): type 0x02, `L >= 19`. -/
  | decGps (frame : List Byte)
  /-- DEC_VARIO (R157): type 0x07, `L >= 6`. -/
  | decVario (frame : List Byte)
  /-- DEC_BATTERY_SENSOR (R153): type 0x08, `L >= 12`. -/
  | decBatterySensor (frame : List Byte)
  /-- DEC_BARO_ALT (R155): type 0x09, `L >= 8`. -/
  | decBaroAlt (frame : List Byte)
  /-- DEC_HEARTBEAT (R161): type 0x0B, any `L`. -/
  | decHeartbeat (frame : List Byte)
  /-- DEC_VIDEO_TRANSMITTER (R162): type 0x0F, any `L`. -/
  | decVideoTransmitter (frame : List Byte)
  /-- DEC_LINK_STATISTICS (R150): type 0x14, `L >= 14`. -/
  | decLinkStatistics (frame : List Byte)
  /-- DEC_RC_CHANNELS_PACKED (R159): type 0x16, any `L`. -/
  | decRcChannelsPacked (frame : List Byte)
  /-- DEC_ATTITUDE (R151): type 0x1E, `L >= 10`. -/
  | decAttitude (frame : List Byte)
  /-- DEC_FLIGHT_MODE (R152): type 0x21, `L >= 5`. -/
  | decFlightMode (frame : List Byte)
  /-- DEC_DEVICE_INFO (R158): type 0x29, any `L`. -/
  | decDeviceInfo (frame : List Byte)
  /-- DEC_CONFIG_READ (R163): type 0x2C, any `L`. -/
  | decConfigRead (frame : List Byte)
  /-- DEC_CONFIG_WRITE (R164): type 0x2D, any `L`. -/
  | decConfigWrite (frame : List Byte)
  /-- DEC_RADIO_ID (R165): type 0x3A, any `L`. -/
  | decRadioId (frame : List Byte)
  /-- DEC_UNKNOWN (R160): the catch-all of the 242 type bytes no other row names. -/
  | decUnknown (frame : List Byte)
  /-- DEC_TRUNCATED (R143): a structured type with `L` below its `L_min`. -/
  | decTruncated (frame : List Byte)
  /-- LEN_TOO_SHORT (R72): length byte 0 or 1. -/
  | lenTooShort (len : Byte)
  /-- LEN_LEGAL (R72): length byte 2 to 62. -/
  | lenLegal (len : Byte)
  /-- LEN_TOO_LONG (R72): length byte 63 to 255. -/
  | lenTooLong (len : Byte)
  /-- FEED (R101, R108). -/
  | feed (operand : RxOperand)
  /-- SCAN_DISCARD (R103). -/
  | scanDiscard
  /-- SCAN_EMIT (R104). -/
  | scanEmit
  /-- SCAN_WAIT (R105). -/
  | scanWait
  /-- CRC8_BIT (R121), on the running CRC of one of the two units. -/
  | crc8Bit (unit : CrcUnit)
  /-- CRC8_BYTE (R122), on the running CRC of one of the two units. -/
  | crc8Byte (unit : CrcUnit) (b : Byte)
  /-- CRC8 (R123), in one of the two units. -/
  | crc8 (unit : CrcUnit) (bytes : List Byte)
  /-- VALIDATE (R125). -/
  | validate (frame : List Byte)
  /-- DECODE (R140). -/
  | decode (frame : List Byte)
  /-- CH_LOAD (R181): one beat of the TX channel stream with `ch_last` = 0. -/
  | chLoad (v : Chan)
  /-- PACK (R183, R184). -/
  | pack
  /-- ENCODE (R182, R188). -/
  | encode (operand : ChOperand)
  /-- RESET (R230). -/
  | reset
  deriving DecidableEq, Repr

/-- An operation as it stands at the ports, by the three formats of R86: `frame` (format FRAME: selected by the bits of the
frame's first three bytes), `lenByte` (format LEN: selected by the range the byte lies in), and the rest (format PORT: "they
are selected by the stream a beat arrives on, not by bits"). -/
inductive PortWord where
  /-- The bytes of a frame, to be dispatched on its type byte (R75). -/
  | frame (bytes : List Byte)
  /-- A length byte, to be classified (R72). -/
  | lenByte (b : Byte)
  /-- RX byte stream, a whole chunk up to `rx_last` (R39). -/
  | rxChunk (bytes : List Byte)
  /-- RX byte stream, one beat (R38). -/
  | rxBeat (data : Byte) (last : Bool)
  /-- TX channel stream, one beat (R38). -/
  | chBeat (v : Chan) (last : Bool)
  /-- TX channel stream, a whole ChannelSet (R85). -/
  | chSet (vs : List Chan)
  /-- The `rst` pin sampled 1 (R230). -/
  | rst
  /-- One arm of the scan loop standing alone. -/
  | scan (arm : ScanArm)
  /-- The CRC-8 function's three operations standing alone. -/
  | crcBit (unit : CrcUnit)
  | crcByte (unit : CrcUnit) (b : Byte)
  | crcSeq (unit : CrcUnit) (bytes : List Byte)
  /-- The script statements VALIDATE and DECODE (R85). -/
  | validate (bytes : List Byte)
  | decode (bytes : List Byte)
  /-- The packing of the sixteen channel registers standing alone. -/
  | pack
  deriving DecidableEq, Repr

/-- Why the decoder rejects a word: the domain of VALIDATE and DECODE is `4 <= L <= 64` (D21, U5, U6). -/
inductive DecodeError where
  /-- A frame of fewer than 4 bytes. -/
  | frameTooShort (l : Nat)
  /-- A frame of more than 64 bytes. -/
  | frameTooLong (l : Nat)
  deriving DecidableEq, Repr

end Sys2Proof
end

