-- ==== Sys2Proof/WellFormed.lean ====
section
/-! DEFINITION. When an instruction is one the spec's encodings give (spec/30_encoding.md R72, R76, R80, R84): the frame's
length, its type byte and its minimum length, and the range of a length byte. -/

namespace Sys2Proof

/-- A frame has 4 to 64 bytes (R71). -/
def frameOk (frame : List Byte) : Bool :=
  4 ≤ frame.length && frame.length ≤ 64

/-- The type byte `FRAME[2]` (R75). -/
def typeByte (frame : List Byte) : Byte :=
  frame.getD 2 0

/-- The seven structured types and the least frame length at which each decodes (R80). -/
def structuredTypes : List (Byte × Nat) :=
  [(0x14, 14), (0x1E, 10), (0x21, 5), (0x08, 12), (0x09, 8), (0x02, 19), (0x07, 6)]

/-- The seven recognised types without a field layout (R76). -/
def fieldlessTypes : List Byte :=
  [0x0B, 0x0F, 0x16, 0x29, 0x2C, 0x2D, 0x3A]

/-- The fourteen type bytes of PacketType (R76). -/
def packetTypes : List Byte :=
  structuredTypes.map Prod.fst ++ fieldlessTypes

/-- A frame of type `t` whose length is legal and at least `lMin`. -/
def typedFrame (t : Byte) (lMin : Nat) (frame : List Byte) : Bool :=
  frameOk frame && typeByte frame == t && lMin ≤ frame.length

/-- A frame of a structured type shorter than that type's minimum (R143). -/
def truncatedFrame (frame : List Byte) : Bool :=
  frameOk frame && structuredTypes.any fun p => typeByte frame == p.1 && frame.length < p.2

/-- The checks, constructor by constructor. -/
def WellFormed : Instr → Bool
  | .decGps f => typedFrame 0x02 19 f
  | .decVario f => typedFrame 0x07 6 f
  | .decBatterySensor f => typedFrame 0x08 12 f
  | .decBaroAlt f => typedFrame 0x09 8 f
  | .decHeartbeat f => typedFrame 0x0B 4 f
  | .decVideoTransmitter f => typedFrame 0x0F 4 f
  | .decLinkStatistics f => typedFrame 0x14 14 f
  | .decRcChannelsPacked f => typedFrame 0x16 4 f
  | .decAttitude f => typedFrame 0x1E 10 f
  | .decFlightMode f => typedFrame 0x21 5 f
  | .decDeviceInfo f => typedFrame 0x29 4 f
  | .decConfigRead f => typedFrame 0x2C 4 f
  | .decConfigWrite f => typedFrame 0x2D 4 f
  | .decRadioId f => typedFrame 0x3A 4 f
  | .decUnknown f => frameOk f && !packetTypes.contains (typeByte f)
  | .decTruncated f => truncatedFrame f
  | .lenTooShort b => b.toNat ≤ 1
  | .lenLegal b => 2 ≤ b.toNat && b.toNat ≤ 62
  | .lenTooLong b => 63 ≤ b.toNat
  | .feed _ => true
  | .scanDiscard => true
  | .scanEmit => true
  | .scanWait => true
  | .crc8Bit _ => true
  | .crc8Byte _ _ => true
  | .crc8 _ _ => true
  | .validate f => frameOk f
  | .decode f => frameOk f
  | .chLoad _ => true
  | .pack => true
  | .encode _ => true
  | .reset => true

end Sys2Proof
end

