-- ==== Sys2Proof/Decode.lean ====
section
/-! DEFINITION. The decoder, total on every port word, and the encoder (spec/30_encoding.md R72, R75, R86). A frame is
dispatched on the 24-bit decode word `W = frame[0] << 16 | frame[1] << 8 | frame[2]`, then the length guard of R143 turns a
structured row into DEC_TRUNCATED. -/

namespace Sys2Proof

/-- `MIN_TOTAL`, the least total frame length (R7). -/
def minTotal : Nat := 4

/-- `MAX_TOTAL`, the greatest total frame length (R7). -/
def maxTotal : Nat := 64

/-- One FRAME row of the opcode table: the row applies when `W & mask = pattern`; `lMin` is the least frame length the
row's layout needs (the frame minimum where the row has no layout). -/
structure TypeRow where
  pattern : BitVec 24
  mask : BitVec 24
  lMin : Nat
  instr : List Byte → Instr

/-- The fourteen rows of mask 0x0000FF (R75, R80, spec/opcode_table.json). -/
def typeRows : List TypeRow :=
  [⟨0x000002, 0x0000FF, 19, .decGps⟩,
   ⟨0x000007, 0x0000FF, 6, .decVario⟩,
   ⟨0x000008, 0x0000FF, 12, .decBatterySensor⟩,
   ⟨0x000009, 0x0000FF, 8, .decBaroAlt⟩,
   ⟨0x00000B, 0x0000FF, 4, .decHeartbeat⟩,
   ⟨0x00000F, 0x0000FF, 4, .decVideoTransmitter⟩,
   ⟨0x000014, 0x0000FF, 14, .decLinkStatistics⟩,
   ⟨0x000016, 0x0000FF, 4, .decRcChannelsPacked⟩,
   ⟨0x00001E, 0x0000FF, 10, .decAttitude⟩,
   ⟨0x000021, 0x0000FF, 5, .decFlightMode⟩,
   ⟨0x000029, 0x0000FF, 4, .decDeviceInfo⟩,
   ⟨0x00002C, 0x0000FF, 4, .decConfigRead⟩,
   ⟨0x00002D, 0x0000FF, 4, .decConfigWrite⟩,
   ⟨0x00003A, 0x0000FF, 4, .decRadioId⟩]

/-- The catch-all row, of mask 0 (R75). -/
def unknownRow : TypeRow := ⟨0x000000, 0x000000, 4, .decUnknown⟩

/-- The decode word `W` of a frame (R75). -/
def decodeWord (frame : List Byte) : BitVec 24 :=
  frame.getD 0 0 ++ frame.getD 1 0 ++ frame.getD 2 0

/-- The row a decode word selects: "the row with the largest mask that matches wins" (R75), so the catch-all comes last. -/
def rowOf (w : BitVec 24) : TypeRow :=
  (typeRows.find? fun r => w &&& r.mask == r.pattern).getD unknownRow

/-- The operation of a frame of legal length: its row, or DEC_TRUNCATED where the frame is shorter than the row's layout
(R140, R143). -/
def frameInstr (frame : List Byte) : Instr :=
  let row := rowOf (decodeWord frame)
  if frame.length < row.lMin then .decTruncated frame else row.instr frame

/-- The class of a length byte (R72). -/
def lenInstr (b : Byte) : Instr :=
  if b.toNat + 2 < minTotal then .lenTooShort b
  else if b.toNat + 2 ≤ maxTotal then .lenLegal b
  else .lenTooLong b

/-- A frame operand outside 4 to 64 bytes is rejected by name (D21, U5, U6). -/
def withLegalLength (frame : List Byte) (i : Instr) : Except DecodeError Instr :=
  if frame.length < minTotal then .error (.frameTooShort frame.length)
  else if maxTotal < frame.length then .error (.frameTooLong frame.length)
  else .ok i

/-- The decoder, total on every port word. -/
def decode : PortWord → Except DecodeError Instr
  | .frame bytes => withLegalLength bytes (frameInstr bytes)
  | .lenByte b => .ok (lenInstr b)
  | .rxChunk bytes => .ok (.feed (.chunk bytes))
  | .rxBeat data last => .ok (.feed (.beat data last))
  | .chBeat v last => .ok (if last then .encode (.lastBeat v) else .chLoad v)
  | .chSet vs => .ok (.encode (.values vs))
  | .rst => .ok .reset
  | .scan .discard => .ok .scanDiscard
  | .scan .emit => .ok .scanEmit
  | .scan .wait => .ok .scanWait
  | .crcBit u => .ok (.crc8Bit u)
  | .crcByte u b => .ok (.crc8Byte u b)
  | .crcSeq u bytes => .ok (.crc8 u bytes)
  | .validate bytes => withLegalLength bytes (.validate bytes)
  | .decode bytes => withLegalLength bytes (.decode bytes)
  | .pack => .ok .pack

/-- The encoder: the port word of an instruction. A DEC_* operation stands as its frame on the wire (R70), a LEN_* class as
the length byte (R72), every other operation on its stream (R86). -/
def encode : Instr → PortWord
  | .decGps f => .frame f
  | .decVario f => .frame f
  | .decBatterySensor f => .frame f
  | .decBaroAlt f => .frame f
  | .decHeartbeat f => .frame f
  | .decVideoTransmitter f => .frame f
  | .decLinkStatistics f => .frame f
  | .decRcChannelsPacked f => .frame f
  | .decAttitude f => .frame f
  | .decFlightMode f => .frame f
  | .decDeviceInfo f => .frame f
  | .decConfigRead f => .frame f
  | .decConfigWrite f => .frame f
  | .decRadioId f => .frame f
  | .decUnknown f => .frame f
  | .decTruncated f => .frame f
  | .lenTooShort b => .lenByte b
  | .lenLegal b => .lenByte b
  | .lenTooLong b => .lenByte b
  | .feed (.chunk bytes) => .rxChunk bytes
  | .feed (.beat data last) => .rxBeat data last
  | .scanDiscard => .scan .discard
  | .scanEmit => .scan .emit
  | .scanWait => .scan .wait
  | .crc8Bit u => .crcBit u
  | .crc8Byte u b => .crcByte u b
  | .crc8 u bytes => .crcSeq u bytes
  | .validate f => .validate f
  | .decode f => .decode f
  | .chLoad v => .chBeat v false
  | .pack => .pack
  | .encode (.values vs) => .chSet vs
  | .encode (.lastBeat v) => .chBeat v true
  | .reset => .rst

/-- The frame a table word stands for. The table numbers the 24-bit decode word `W` (R75): bits 23..16 are `frame[0]`, bits
15..8 `frame[1]`, bits 7..0 `frame[2]`; bits 24 and up are the payload bytes in order; every bit above `nbits` is 0, up to the
longest frame, 64 bytes. -/
def frameOfTableWord (nbits w : Nat) : List Byte :=
  let v := w % 2 ^ nbits
  [BitVec.ofNat 8 (v >>> 16), BitVec.ofNat 8 (v >>> 8), BitVec.ofNat 8 v] ++
    (List.range 61).map fun k => BitVec.ofNat 8 (v >>> (24 + 8 * k))

/-- The instruction the decoder reads from a table word. -/
def decodeTableWord (nbits w : Nat) : Option Instr :=
  match decode (.frame (frameOfTableWord nbits w)) with
  | .ok i => some i
  | .error _ => none

end Sys2Proof
end

