-- ==== Sys2Proof/Machine/State.lean ====
section
/-! DEFINITION. The machine's state as plain data (spec/10_state.md), its outputs (records, events, TX beats, the `tx_err` pulse), the reasons a
step can stop, and the state right after reset (R40). The RX path and the TX path are two structures that share nothing
(R33). -/

namespace Sys2Proof.Machine

/-- A byte-addressed buffer private to the block (R50): address and byte pairs, addresses strictly rising. An unlisted
address does not exist: it lies outside `FRAME[0 .. L)` or outside `TXF[0 .. 26)` (log entry 8, DESIGN CHOICE, safe). -/
abbrev Memory := List Host.Cell

/-- The canonical form of a memory: addresses strictly rising. (An unlisted address reads as no value, so no entry can equal
what an unlisted address reads as.) -/
def Memory.wf : Memory → Bool
  | [] => true
  | [_] => true
  | c :: d :: m => c.1 < d.1 && Memory.wf (d :: m)

/-- Why a Raw record has no fields (R142). -/
inductive Cause where
  | none
  | unrecognizedPacketType
  | truncatedPayload
  deriving DecidableEq, Repr

/-- TelemetryRecord (R141): one case per decodable type, each with its own fields only. Integers are 32-bit signed register
contents (R9); scaled fields carry their denominator in their type. -/
inductive Record where
  | linkStats (rssi1 rssi2 lq snr antenna mode power downlinkRssi downlinkLq downlinkSnr : Word32)
  | attitude (pitch roll yaw : Scaled 10000)
  | flightMode (name : List Byte)
  | battery (vbat curr : Scaled 10) (mah pct : Word32)
  | baroAlt (altitude : Scaled 100)
  | gps (lat lon : Scaled 10000000) (groundspeed : Scaled 36) (heading : Scaled 100) (altitude satellites : Word32)
  | vario (vspeed : Scaled 10)
  | raw (type : Byte) (known : Bool) (cause : Cause) (bytes : List Byte)
  deriving DecidableEq, Repr

/-- One item of the RX event stream (R203). A record event also carries the frame it came from, which R204 puts on the pins
`ev_frame` of every record event. -/
inductive Event where
  | record (record : Record) (update : Bool) (frame : List Byte)
  | noop (frame : List Byte)
  | crcError (frame : List Byte) (computed : Byte)
  | framingError (nDiscarded : Nat) (lenByte : Byte)
  deriving DecidableEq, Repr

/-- One beat of the TX byte stream (R38, R203): a byte of an encoded frame with its `tx_last`. -/
structure TxBeat where
  data : Byte
  last : Bool
  deriving DecidableEq, Repr

/-- What the streaming form keeps while `DROP` = 1 (R108): the count of bytes lost and the offending length byte. -/
structure Discard where
  ndisc : Nat
  lenb : Byte
  deriving DecidableEq, Repr

/-- The RX path: DEFRAMER, CRCV and UNPACK (R20). -/
structure RxState where
  /-- `RXBUF` (R21), first byte received first. `RXCNT` is its length (R24), and `FB[0 .. RXCNT)` its bytes (R37). -/
  rxbuf : List Byte
  /-- `DROP` (R23) with what R108 keeps beside it: `none` is DROP = 0. -/
  drop : Option Discard
  /-- `CRCACC_RX` (R25). -/
  crcacc : Byte
  /-- `F[0..9]` (R26). -/
  f : Vector Word32 10
  /-- `FRAME`, the snapshot under VALIDATE and DECODE (R50, R52); `L` is the number of its bytes. -/
  frame : Memory
  /-- The model's own: the result bit of the last VALIDATE (R125). -/
  valid : Bool
  /-- The RX event stream: the events not yet taken, oldest first (R203, R39). -/
  events : List Event
  deriving DecidableEq, Repr

/-- The TX path: PACK (R20). -/
structure TxState where
  /-- `CH[0..15]` (R28). -/
  ch : Vector Chan 16
  /-- `CHCNT` (R29). -/
  chcnt : BitVec 5
  /-- `PACKACC` (R30). -/
  packacc : BitVec 18
  /-- `PACKN` (R30). -/
  packn : BitVec 5
  /-- The model's own: `PK[0..21]`, the result of the last PACK (R183, R184). -/
  pk : Vector Byte 22
  /-- `TXF[0..25]` (R31): 26 bytes, each with a value at all times. -/
  txf : Memory
  /-- `CRCACC_TX` (R25). -/
  crcacc : Byte
  /-- The TX byte stream: the beats not yet taken, oldest first (R203, R62). -/
  out : List TxBeat
  /-- `tx_err` (R38, R182): `some n` while the pulse of InvalidChannelCount(n) is high. It has no handshake and lasts one step
  (log entry 17, DESIGN CHOICE). -/
  err : Option (BitVec 5)
  deriving DecidableEq, Repr

/-- One action of the world outside at the ports: an operation put to the block, or the consumer's `ready` on one of the two
output streams (R38). -/
inductive Input where
  | word (w : PortWord)
  | takeEvent
  | takeTx
  deriving DecidableEq, Repr

/-- The machine. -/
structure State where
  /-- The RX path. -/
  rx : RxState
  /-- The TX path. -/
  tx : TxState
  /-- `ENC_CRC_START` (R8, R32): the instance's parameter, which no step changes. -/
  encCrcStart : EncCrcStart
  /-- The model's own: what the world outside has put to the ports and the block has not yet taken, in order. -/
  inputs : List Input
  /-- The model's own: the counter at which the free values of Config are read. -/
  free : Nat
  deriving DecidableEq, Repr

/-- The reasons a step can stop with a fault. Both are safe: the spec gives such a read no value, and no operation of the
block makes one (R58). -/
inductive Fault where
  /-- Raised by MemRead: an address outside the candidate frame `FRAME[0 .. L)` (R12 requires `a + n <= L`). Safe. -/
  | frameAddress (a : Nat)
  /-- Raised by a read of `TXF` at an address outside `TXF[0 .. 26)` (R31). Safe. -/
  | txfAddress (a : Nat)
  deriving DecidableEq, Repr

/-- The reasons a step can be refused. All are safe: the spec's treatment of these cases is `refuse`, or the operation's own
operand condition excludes them. -/
inductive Refusal where
  /-- Raised by exec's arm of an instruction without a meaning; none is left. Safe. -/
  | notModelled (mnemonic : String)
  /-- Raised by the step: the word at the port is no operation (D21, U5, U6). Safe. -/
  | undecodable (e : DecodeError)
  /-- Raised by VALIDATE, DECODE and the DEC_* rows: a frame outside 4 to 64 bytes (U5, U6). Safe. -/
  | frameLength (l : Nat)
  /-- Raised by a DEC_* row: the frame's type byte is not the row's (R75). Safe. -/
  | typeByte (t : Byte)
  /-- Raised by DEC_TRUNCATED: the frame is long enough for its type (R143). Safe. -/
  | notTruncated (l : Nat)
  /-- Raised by SCAN_DISCARD, SCAN_EMIT and SCAN_WAIT: the arm is not the one the buffer selects (R112). Safe. -/
  | armNotSelected (arm : ScanArm)
  /-- Raised by LEN_*: the length byte is not of the row's class (R72). Safe. -/
  | lengthClass (b : Byte)
  /-- Raised by LEN_*: the length byte is not the one at `RXBUF[1]` (R72). Safe. -/
  | lengthByteNotAtHead (b : Byte)
  deriving DecidableEq, Repr

/-- The RX path after reset (R40); `F`, `CRCACC_RX` and the result bit, which R40 leaves unspecified, at 0 (log entry 5, DESIGN CHOICE, unsafe). -/
def RxState.reset : RxState where
  rxbuf := []
  drop := none
  crcacc := 0
  f := Vector.replicate 10 0
  frame := []
  valid := false
  events := []

/-- The TX path after reset (R40); `CH`, `PK`, `TXF[0..25]` and `CRCACC_TX`, which R40 leaves unspecified, at 0 (log entry 5,
DESIGN CHOICE, unsafe). -/
def TxState.reset : TxState where
  ch := Vector.replicate 16 0
  chcnt := 0
  packacc := 0
  packn := 0
  pk := Vector.replicate 22 0
  txf := (List.range 26).map fun a => (a, 0)
  crcacc := 0
  out := []
  err := none

/-- The machine right after reset: the values of R40, `ENC_CRC_START` at its default 1 (R8), nothing at the ports. -/
def State.reset : State where
  rx := RxState.reset
  tx := TxState.reset
  encCrcStart := .lengthByte
  inputs := []
  free := 0

end Sys2Proof.Machine
end

