-- ==== Sys2Proof/Machine/Ops.lean ====
section
/-! DEFINITION. The named operations over memory and registers that every meaning uses: results, reads and writes of the two
frame buffers (R12, R50, R53), updates of the state, and `emit` and `raise`, the one way an outcome leaves the block: it
transfers control nowhere (R12, R208). -/

namespace Sys2Proof.Machine

/-- What an operation on one path answers. -/
abbrev Res (α : Type) := Host.Outcome α Fault Refusal

/-- Run `k` on the result of `r`; a stop stays a stop. -/
def andThen {α β : Type} (r : Res α) (k : α → Res β) : Res β :=
  match r with
  | .next a => k a
  | .fault e => .fault e
  | .refused e => .refused e

/-- Apply `g` to the result of `r`; a stop stays a stop. -/
def mapRes {α β : Type} (r : Res α) (g : α → β) : Res β :=
  andThen r fun a => .next (g a)

/-! ## Memory -/

/-- The byte at an address, if the memory holds one. -/
def Memory.read : Memory → Nat → Option Byte
  | [], _ => none
  | (b, v) :: m, a => if a = b then some v else Memory.read m a

/-- Write one byte, keeping the addresses strictly rising: `MemWrite(a, 1, v)` (R12). -/
def Memory.write : Memory → Nat → Byte → Memory
  | [], a, v => [(a, v)]
  | (b, w) :: m, a, v =>
    if a < b then (a, v) :: (b, w) :: m
    else if a = b then (a, v) :: m
    else (b, w) :: Memory.write m a v

/-- The memory that holds the bytes `bs` from address `a` on. -/
def Memory.ofBytesFrom (a : Nat) : List Byte → Memory
  | [] => []
  | b :: bs => (a, b) :: Memory.ofBytesFrom (a + 1) bs

/-- The memory that holds the bytes of a frame at offsets 0 to `L - 1`. -/
def Memory.ofBytes (bs : List Byte) : Memory :=
  Memory.ofBytesFrom 0 bs

/-- Write the bytes `bs` at `a`, `a + 1`, … in that order. -/
def Memory.writeBytes (m : Memory) (a : Nat) : List Byte → Memory
  | [] => m
  | b :: bs => Memory.writeBytes (m.write a b) (a + 1) bs

/-- One byte, or the fault `err a`. -/
def memByte (err : Nat → Fault) (m : Memory) (a : Nat) : Res Byte :=
  match m.read a with
  | some v => .next v
  | none => .fault (err a)

/-- The bytes at `a`, …, `a + n - 1`: the slice `[a .. a + n)` (R11). -/
def memSlice (err : Nat → Fault) (m : Memory) (a : Nat) : Nat → Res (List Byte)
  | 0 => .next []
  | n + 1 =>
    andThen (memByte err m a) fun v =>
      mapRes (memSlice err m (a + 1) n) fun vs => v :: vs

/-- `MemRead(a, 1)` on the candidate frame (R12). -/
def memRead1 (m : Memory) (a : Nat) : Res Byte :=
  memByte .frameAddress m a

/-- `MemRead(a, 2)`: the byte at the lower offset is the more significant (R53). -/
def memRead2 (m : Memory) (a : Nat) : Res (BitVec 16) :=
  andThen (memRead1 m a) fun b0 =>
    mapRes (memRead1 m (a + 1)) fun b1 => b0 ++ b1

/-- `MemRead(a, 4)`: the byte at the lowest offset is the most significant (R53). -/
def memRead4 (m : Memory) (a : Nat) : Res (BitVec 32) :=
  andThen (memRead2 m a) fun h =>
    mapRes (memRead2 m (a + 2)) fun l => h ++ l

/-- The slice `FRAME[a .. a + n)` of the candidate frame. -/
def frameSlice (m : Memory) (a n : Nat) : Res (List Byte) :=
  memSlice .frameAddress m a n

/-- The slice `TXF[a .. a + n)` of the output frame buffer. -/
def txfSlice (m : Memory) (a n : Nat) : Res (List Byte) :=
  memSlice .txfAddress m a n

/-! ## Updates of the state, one field at a time -/

def RxState.setRxbuf (r : RxState) (v : List Byte) : RxState := { r with rxbuf := v }
def RxState.setDrop (r : RxState) (v : Option Discard) : RxState := { r with drop := v }
def RxState.setCrcacc (r : RxState) (v : Byte) : RxState := { r with crcacc := v }
def RxState.setF (r : RxState) (v : Vector Word32 10) : RxState := { r with f := v }
/-- `F[i] <- v` (R12). -/
def RxState.setField (r : RxState) (i : Fin 10) (v : Word32) : RxState := r.setF (r.f.set i v)
def RxState.setFrame (r : RxState) (v : Memory) : RxState := { r with frame := v }
def RxState.setValid (r : RxState) (v : Bool) : RxState := { r with valid := v }
def RxState.setEvents (r : RxState) (v : List Event) : RxState := { r with events := v }

def TxState.setCh (t : TxState) (v : Vector Chan 16) : TxState := { t with ch := v }
def TxState.setChcnt (t : TxState) (v : BitVec 5) : TxState := { t with chcnt := v }
def TxState.setPacker (t : TxState) (acc : BitVec 18) (n : BitVec 5) (pk : Vector Byte 22) : TxState :=
  { t with packacc := acc, packn := n, pk := pk }
def TxState.setTxf (t : TxState) (v : Memory) : TxState := { t with txf := v }
def TxState.setCrcacc (t : TxState) (v : Byte) : TxState := { t with crcacc := v }
def TxState.setOut (t : TxState) (v : List TxBeat) : TxState := { t with out := v }
def TxState.setErr (t : TxState) (v : Option (BitVec 5)) : TxState := { t with err := v }

def State.setRx (s : State) (r : RxState) : State := { s with rx := r }
def State.setTx (s : State) (t : TxState) : State := { s with tx := t }
def State.setInputs (s : State) (v : List Input) : State := { s with inputs := v }

/-! ## Outcomes: `emit` and `raise` -/

/-- `emit EV_x(...)`: append one event to the RX event stream, in order (R12, R203). -/
def RxState.emit (r : RxState) (e : Event) : RxState :=
  r.setEvents (r.events ++ [e])

/-- The errors the block raises (R200), with what each records. UnrecognizedPacketType and TruncatedPayload "are carried as
the record's cause": raising one emits the Raw record that names it. -/
inductive RxError where
  | framingError (nDiscarded : Nat) (lenByte : Byte)
  | checksumError (frame : List Byte) (computed : Byte)
  | unrecognizedPacketType (type : Byte) (known : Bool) (frame : List Byte)
  | truncatedPayload (type : Byte) (frame : List Byte)
  deriving DecidableEq, Repr

/-- The event by which an RX error leaves the block (R160, R143, R201, R202). -/
def RxError.event : RxError → Event
  | .framingError n b => .framingError n b
  | .checksumError frame c => .crcError frame c
  | .unrecognizedPacketType t known frame => .record (.raw t known .unrecognizedPacketType frame) false frame
  | .truncatedPayload t frame => .record (.raw t true .truncatedPayload frame) false frame

/-- `raise <Error>(info)`: the whole of what an error does. No state is saved, no mode changes and "control does not transfer
anywhere" (R12, R208, R209): the error's event is emitted. -/
def RxState.raise (r : RxState) (e : RxError) : RxState :=
  r.emit e.event

/-- `raise InvalidChannelCount(n)` on the TX side (R182, R200): the pulse `tx_err`, with the count it reports. The TX byte stream
is not touched. -/
def TxState.raise (t : TxState) (n : BitVec 5) : TxState :=
  t.setErr (some n)

/-! ## One path of the machine -/

/-- Run an operation of the RX path; the TX path takes no part (R33). -/
def onRx (op : RxState → Res RxState) (s : State) : Res State :=
  mapRes (op s.rx) s.setRx

/-- Run an operation of the TX path; the RX path takes no part (R33). -/
def onTx (op : TxState → Res TxState) (s : State) : Res State :=
  mapRes (op s.tx) s.setTx

end Sys2Proof.Machine
end

