-- ==== Sys2Proof/Machine/Operands.lean ====
section
/-! DEFINITION. Operand forms of UNPACK: the field kinds (spec/30_encoding.md R77, R78), a field's register slot and bias
(R79), and the reading of a layout's fields into the field registers (R26). -/

namespace Sys2Proof.Machine

/-- The kinds of a field that goes to a register (R77), and the three-byte expression of `mah` (R153). -/
inductive FieldKind where
  /-- One byte, unsigned. -/
  | u8
  /-- One byte, two's complement. -/
  | s8
  /-- Two bytes, big-endian, two's complement. -/
  | s16be
  /-- Four bytes, big-endian, two's complement. -/
  | s32be
  /-- `(FRAME[k] << 16) | (FRAME[k+1] << 7) | FRAME[k+2]`; the middle shift is 7 (R153, C7). -/
  | mah
  deriving DecidableEq, Repr

/-- One field of a layout (R79): the register it goes to, its offset from the frame start, its kind, and the constant added
to the raw value (GPS altitude's -1000, every other field's 0). -/
structure Field where
  slot : Fin 10
  off : Nat
  kind : FieldKind
  bias : Word32 := 0
  deriving DecidableEq, Repr

/-- The raw value of a field, extended to 32 bits before anything else is done with it (R145). -/
def readRaw (m : Memory) (off : Nat) : FieldKind → Res Word32
  | .u8 => mapRes (memRead1 m off) (BitVec.setWidth 32)
  | .s8 => mapRes (memRead1 m off) (BitVec.signExtend 32)
  | .s16be => mapRes (memRead2 m off) (BitVec.signExtend 32)
  | .s32be => memRead4 m off
  | .mah =>
    andThen (memRead1 m off) fun b0 =>
      andThen (memRead1 m (off + 1)) fun b1 =>
        mapRes (memRead1 m (off + 2)) fun b2 =>
          (b0.setWidth 32 <<< 16) ||| (b1.setWidth 32 <<< 7) ||| b2.setWidth 32

/-- Read one field of the candidate frame into its register. -/
def loadField (fd : Field) (r : RxState) : Res RxState :=
  mapRes (readRaw r.frame fd.off fd.kind) fun v => r.setField fd.slot (v + fd.bias)

/-- Read the fields of a layout, in table order. A field register the layout has no field for keeps its contents, though U1 allows
any value there (log entry 28, DESIGN CHOICE, unsafe); the event does not carry it (R26, R141). -/
def loadFields : List Field → RxState → Res RxState
  | [], r => .next r
  | fd :: fds, r => andThen (loadField fd r) (loadFields fds)

/-- The whole candidate frame, `FRAME[0 .. L)`. -/
def frameBytes (r : RxState) : Res (List Byte) :=
  frameSlice r.frame 0 r.frame.length

/-- Take `frame` as the candidate frame and run `op` on it; a frame outside 4 to 64 bytes is refused (D21, U5, U6). -/
def withFrame (frame : List Byte) (op : RxState → Res RxState) (r : RxState) : Res RxState :=
  if frame.length < minTotal ∨ maxTotal < frame.length then .refused (.frameLength frame.length)
  else op (r.setFrame (Memory.ofBytes frame))

end Sys2Proof.Machine
end

