-- ==== Sys2Proof/Machine/Crc.lean ====
section
/-! DEFINITION. CRCV: the CRC-8 function and VALIDATE (spec/41_crc.md R120 to R128). -/

namespace Sys2Proof.Machine

/-- `POLY`, the CRC-8 polynomial constant (R7). -/
def poly : Byte := 0xD5

/-- `SEED`, the CRC-8 start value (R7). -/
def seed : Byte := 0x00

/-- `CRC8_BIT(c)`: shift left one bit, exclusive-or with 0xD5 if the bit shifted out was set (R121). -/
def crc8Bit (c : Byte) : Byte :=
  if c.getLsbD 7 then (c <<< 1) ^^^ poly else c <<< 1

/-- `CRC8_BYTE(c, b)`: the byte enters by exclusive-or, then eight steps (R122; log entry 16, PRESUMED). -/
def crc8Byte (c b : Byte) : Byte :=
  Nat.repeat crc8Bit 8 (c ^^^ b)

/-- The running CRC after the bytes of `s`, from `c`. -/
def crc8From (c : Byte) (s : List Byte) : Byte :=
  s.foldl crc8Byte c

/-- `CRC8(s)` (R123). -/
def crc8 (s : List Byte) : Byte :=
  crc8From seed s

/-- Apply a step to the running CRC of one of the two units (R25, R128). -/
def onCrc (u : CrcUnit) (g : Byte → Byte) (s : State) : Res State :=
  match u with
  | .rx => onRx (fun r => .next (r.setCrcacc (g r.crcacc))) s
  | .tx => onTx (fun t => .next (t.setCrcacc (g t.crcacc))) s

/-- CRC8_BIT (R121). -/
def execCrc8Bit (u : CrcUnit) (s : State) : Res State :=
  onCrc u crc8Bit s

/-- CRC8_BYTE (R122). -/
def execCrc8Byte (u : CrcUnit) (b : Byte) (s : State) : Res State :=
  onCrc u (fun c => crc8Byte c b) s

/-- CRC8 (R123): the running CRC is loaded with the seed, whatever it held (R25). -/
def execCrc8 (u : CrcUnit) (bytes : List Byte) (s : State) : Res State :=
  onCrc u (fun _ => crc8 bytes) s

/-- VALIDATE on the candidate frame: `CRC8(FRAME[2 .. L-1)) = FRAME[L-1]` (R125). -/
def validateFrame (r : RxState) : Res RxState :=
  let l := r.frame.length
  andThen (frameSlice r.frame 2 (l - 3)) fun body =>
    mapRes (memRead1 r.frame (l - 1)) fun last =>
      (r.setCrcacc (crc8 body)).setValid (crc8 body == last)

/-- VALIDATE (R125). -/
def execValidate (frame : List Byte) (s : State) : Res State :=
  onRx (withFrame frame validateFrame) s

end Sys2Proof.Machine
end

