-- ==== Sys2Proof/Machine/Flags.lean ====
section
/-! DEFINITION. The block has no condition codes (R34). What a flag would carry is on the event: the `update` bit (R144), the
error codes (R200) and the pin form of an event (R204). -/

namespace Sys2Proof.Machine

/-- The `update` bit: 1 on the seven structured cases, 0 on every Raw record (R144). -/
def Record.update : Record → Bool
  | .linkStats .. => true
  | .attitude .. => true
  | .flightMode .. => true
  | .battery .. => true
  | .baroAlt .. => true
  | .gps .. => true
  | .vario .. => true
  | .raw .. => false

/-- The six errors of the taxonomy (R200). TransportError is the host's: the block never raises it (R217). -/
inductive ErrorKind where
  | framingError
  | checksumError
  | unrecognizedPacketType
  | truncatedPayload
  | transportError
  | invalidChannelCount
  deriving DecidableEq, Repr

/-- The 3-bit code of an error (R200); code 0 means no error. -/
def ErrorKind.code : ErrorKind → BitVec 3
  | .framingError => 1
  | .checksumError => 2
  | .unrecognizedPacketType => 3
  | .truncatedPayload => 4
  | .transportError => 5
  | .invalidChannelCount => 6

/-- The error a record reports, if any. -/
def Record.error : Record → Option ErrorKind
  | .raw _ _ .unrecognizedPacketType _ => some .unrecognizedPacketType
  | .raw _ _ .truncatedPayload _ => some .truncatedPayload
  | _ => none

/-- The error an event reports, if any; one frame reports one outcome (R206). -/
def Event.error : Event → Option ErrorKind
  | .record rec _ _ => rec.error
  | .noop _ => none
  | .crcError _ _ => some .checksumError
  | .framingError _ _ => some .framingError

/-- `ev_cause` (R204). -/
def Event.cause (e : Event) : BitVec 3 :=
  match e.error with
  | some k => k.code
  | none => 0

/-- `ev_kind` of a record (R204). -/
def Record.kind : Record → BitVec 4
  | .linkStats .. => 0x1
  | .attitude .. => 0x2
  | .flightMode .. => 0x3
  | .battery .. => 0x4
  | .baroAlt .. => 0x5
  | .gps .. => 0x6
  | .vario .. => 0x7
  | .raw .. => 0x8

/-- `ev_kind` (R204). -/
def Event.kind : Event → BitVec 4
  | .record rec _ _ => rec.kind
  | .noop _ => 0x9
  | .crcError _ _ => 0xA
  | .framingError _ _ => 0xB

/-- The field registers a record event carries, from slot 0 up (R79, R204). -/
def Record.slots : Record → List Word32
  | .linkStats a b c d e f g h i j => [a, b, c, d, e, f, g, h, i, j]
  | .attitude a b c => [a.raw, b.raw, c.raw]
  | .flightMode _ => []
  | .battery a b c d => [a.raw, b.raw, c, d]
  | .baroAlt a => [a.raw]
  | .gps a b c d e f => [a.raw, b.raw, c.raw, d.raw, e, f]
  | .vario a => [a.raw]
  | .raw .. => []

/-- The `known` bit of a Raw record. -/
def Record.known : Record → Option Bool
  | .raw _ k _ _ => some k
  | _ => none

/-- The frame an event names: every kind but the framing error has one. -/
def Event.frame : Event → Option (List Byte)
  | .record _ _ f => some f
  | .noop f => some f
  | .crcError f _ => some f
  | .framingError _ _ => none

/-- The event pins (R38, R204). `none` on a pin, an array element or a slot is a pin that "carries no defined value". -/
structure EventPins where
  kind : BitVec 4
  cause : BitVec 3
  update : Bool
  known : Option Bool
  type : Option Byte
  len : Option (BitVec 7)
  frame : Vector (Option Byte) 64
  f : Vector (Option Word32) 10
  ndisc : Option (BitVec 16)
  lenbyte : Option Byte
  crc : Option Byte
  deriving DecidableEq, Repr

/-- The pin form of an event (R204). `ev_ndisc` saturates at 65535 (U11). -/
def Event.pins (e : Event) : EventPins where
  kind := e.kind
  cause := e.cause
  update := match e with
    | .record _ u _ => u
    | _ => false
  known := match e with
    | .record rec _ _ => rec.known
    | _ => none
  type := e.frame.bind fun f => f[2]?
  len := e.frame.map fun f => BitVec.ofNat 7 f.length
  frame := Vector.ofFn fun i : Fin 64 => e.frame.bind fun f => f[i.val]?
  f := Vector.ofFn fun i : Fin 10 => match e with
    | .record rec _ _ => rec.slots[i.val]?
    | _ => none
  ndisc := match e with
    | .framingError n _ => some (BitVec.ofNat 16 (min n 65535))
    | _ => none
  lenbyte := match e with
    | .framingError _ b => some b
    | _ => none
  crc := match e with
    | .crcError _ c => some c
    | _ => none

end Sys2Proof.Machine
end

