-- ==== Sys2Proof/Machine/Unpack.lean ====
section
/-! DEFINITION. UNPACK: DECODE and the DEC_* operations (spec/42_unpack.md R140 to R166). Each works on the candidate frame
`FRAME` of the state. -/

namespace Sys2Proof.Machine

/-- `emit EV_RECORD(record, update)`, with `update` as R144 says. -/
def emitRecord (rec : Record) (r : RxState) : Res RxState :=
  mapRes (frameBytes r) fun bs => r.emit (.record rec rec.update bs)

/-- The Raw record of a recognised or unknown type without a field layout: `raise UnrecognizedPacketType` (R160 to R165). -/
def unrecognized (known : Bool) (r : RxState) : Res RxState :=
  andThen (memRead1 r.frame 2) fun t =>
    mapRes (frameBytes r) fun bs => r.raise (.unrecognizedPacketType t known bs)

/-- A structured type (R26): all fields of the layout go to their registers, then `emit EV_RECORD` with the record made of
them. -/
def structured (layout : List Field) (record : Vector Word32 10 → Record) (r : RxState) : Res RxState :=
  andThen (loadFields layout r) fun r => emitRecord (record r.f) r

/-! ## The operations on the candidate frame -/

/-- DEC_TRUNCATED (R143): `raise TruncatedPayload`; no field register is written. -/
def decTruncated (r : RxState) : Res RxState :=
  andThen (memRead1 r.frame 2) fun t =>
    mapRes (frameBytes r) fun bs => r.raise (.truncatedPayload t bs)

def linkStatisticsLayout : List Field :=
  [{ slot := 0, off := 3, kind := .s8 }, { slot := 1, off := 4, kind := .s8 }, { slot := 2, off := 5, kind := .u8 },
   { slot := 3, off := 6, kind := .s8 }, { slot := 4, off := 7, kind := .u8 }, { slot := 5, off := 8, kind := .u8 },
   { slot := 6, off := 9, kind := .u8 }, { slot := 7, off := 10, kind := .s8 }, { slot := 8, off := 11, kind := .u8 },
   { slot := 9, off := 12, kind := .s8 }]

def linkStatisticsRecord (f : Vector Word32 10) : Record :=
  .linkStats f[0] f[1] f[2] f[3] f[4] f[5] f[6] f[7] f[8] f[9]

/-- DEC_LINK_STATISTICS (R150). -/
def decLinkStatistics (r : RxState) : Res RxState :=
  structured linkStatisticsLayout linkStatisticsRecord r

def attitudeLayout : List Field :=
  [{ slot := 0, off := 3, kind := .s16be }, { slot := 1, off := 5, kind := .s16be }, { slot := 2, off := 7, kind := .s16be }]

def attitudeRecord (f : Vector Word32 10) : Record :=
  .attitude ⟨f[0]⟩ ⟨f[1]⟩ ⟨f[2]⟩

/-- DEC_ATTITUDE (R151). -/
def decAttitude (r : RxState) : Res RxState :=
  structured attitudeLayout attitudeRecord r

/-- DEC_FLIGHT_MODE (R152): the name is `FRAME[3 .. L-2)`; no field register is written. -/
def decFlightMode (r : RxState) : Res RxState :=
  andThen (frameSlice r.frame 3 (r.frame.length - 5)) fun name =>
    emitRecord (.flightMode name) r

def batterySensorLayout : List Field :=
  [{ slot := 0, off := 3, kind := .s16be }, { slot := 1, off := 5, kind := .s16be }, { slot := 2, off := 7, kind := .mah },
   { slot := 3, off := 10, kind := .u8 }]

def batterySensorRecord (f : Vector Word32 10) : Record :=
  .battery ⟨f[0]⟩ ⟨f[1]⟩ f[2] f[3]

/-- DEC_BATTERY_SENSOR (R153). -/
def decBatterySensor (r : RxState) : Res RxState :=
  structured batterySensorLayout batterySensorRecord r

def baroAltLayout : List Field :=
  [{ slot := 0, off := 3, kind := .s32be }]

def baroAltRecord (f : Vector Word32 10) : Record :=
  .baroAlt ⟨f[0]⟩

/-- DEC_BARO_ALT (R155). -/
def decBaroAlt (r : RxState) : Res RxState :=
  structured baroAltLayout baroAltRecord r

def gpsLayout : List Field :=
  [{ slot := 0, off := 3, kind := .s32be }, { slot := 1, off := 7, kind := .s32be }, { slot := 2, off := 11, kind := .s16be },
   { slot := 3, off := 13, kind := .s16be }, { slot := 4, off := 15, kind := .s16be, bias := -1000 },
   { slot := 5, off := 17, kind := .u8 }]

def gpsRecord (f : Vector Word32 10) : Record :=
  .gps ⟨f[0]⟩ ⟨f[1]⟩ ⟨f[2]⟩ ⟨f[3]⟩ f[4] f[5]

/-- DEC_GPS (R156). -/
def decGps (r : RxState) : Res RxState :=
  structured gpsLayout gpsRecord r

def varioLayout : List Field :=
  [{ slot := 0, off := 3, kind := .s16be }]

def varioRecord (f : Vector Word32 10) : Record :=
  .vario ⟨f[0]⟩

/-- DEC_VARIO (R157). -/
def decVario (r : RxState) : Res RxState :=
  structured varioLayout varioRecord r

/-- DEC_DEVICE_INFO (R158): the Raw record with cause None; no error. -/
def decDeviceInfo (r : RxState) : Res RxState :=
  andThen (memRead1 r.frame 2) fun t =>
    andThen (frameBytes r) fun bs => emitRecord (.raw t true .none bs) r

/-- DEC_RC_CHANNELS_PACKED (R159): `emit EV_NOOP(FRAME[0 .. L))`, whatever the length. -/
def decRcChannelsPacked (r : RxState) : Res RxState :=
  mapRes (frameBytes r) fun bs => r.emit (.noop bs)

/-- DEC_UNKNOWN (R160). -/
def decUnknown (r : RxState) : Res RxState := unrecognized false r

/-- DEC_HEARTBEAT (R161). -/
def decHeartbeat (r : RxState) : Res RxState := unrecognized true r

/-- DEC_VIDEO_TRANSMITTER (R162). -/
def decVideoTransmitter (r : RxState) : Res RxState := unrecognized true r

/-- DEC_CONFIG_READ (R163). -/
def decConfigRead (r : RxState) : Res RxState := unrecognized true r

/-- DEC_CONFIG_WRITE (R164). -/
def decConfigWrite (r : RxState) : Res RxState := unrecognized true r

/-- DEC_RADIO_ID (R165). -/
def decRadioId (r : RxState) : Res RxState := unrecognized true r

/-! ## Dispatch -/

/-- The mandatory guard: `op` where the frame has at least `lMin` bytes, else DEC_TRUNCATED (R140, R143). -/
def guarded (lMin : Nat) (op : RxState → Res RxState) (r : RxState) : Res RxState :=
  if lMin ≤ r.frame.length then op r else decTruncated r

/-- `L_min` of the seven structured types (R80). -/
def lMinOf (t : Byte) : Option Nat :=
  if t = 0x14 then some 14
  else if t = 0x1E then some 10
  else if t = 0x21 then some 5
  else if t = 0x08 then some 12
  else if t = 0x09 then some 8
  else if t = 0x02 then some 19
  else if t = 0x07 then some 6
  else none

/-- The types of PacketType without a field layout (R76). -/
def fieldless (t : Byte) : Bool :=
  t == 0x29 || t == 0x16 || t == 0x0B || t == 0x0F || t == 0x2C || t == 0x2D || t == 0x3A

/-- DECODE on the candidate frame: the case of R140 on `FRAME[2]`. -/
def decodeFrame (r : RxState) : Res RxState :=
  andThen (memRead1 r.frame 2) fun t =>
    if t = 0x14 then guarded 14 decLinkStatistics r
    else if t = 0x1E then guarded 10 decAttitude r
    else if t = 0x21 then guarded 5 decFlightMode r
    else if t = 0x08 then guarded 12 decBatterySensor r
    else if t = 0x09 then guarded 8 decBaroAlt r
    else if t = 0x02 then guarded 19 decGps r
    else if t = 0x07 then guarded 6 decVario r
    else if t = 0x29 then decDeviceInfo r
    else if t = 0x16 then decRcChannelsPacked r
    else if t = 0x0B then decHeartbeat r
    else if t = 0x0F then decVideoTransmitter r
    else if t = 0x2C then decConfigRead r
    else if t = 0x2D then decConfigWrite r
    else if t = 0x3A then decRadioId r
    else decUnknown r

/-- DECODE (R140). -/
def execDecode (frame : List Byte) (s : State) : Res State :=
  onRx (withFrame frame decodeFrame) s

/-- A DEC_* row standing alone: take the frame, check that its type byte is the row's (R75), run the row; a structured row on a
frame below its minimum does what DEC_TRUNCATED does (log entry 14, DEDUCED). -/
def decRow (ok : Byte → Bool) (op : RxState → Res RxState) (frame : List Byte) (s : State) : Res State :=
  onRx (withFrame frame fun r =>
    andThen (memRead1 r.frame 2) fun t => if ok t then op r else .refused (.typeByte t)) s

/-- DEC_GPS (R156). -/
def execDecGps (frame : List Byte) (s : State) : Res State :=
  decRow (· == 0x02) (guarded 19 decGps) frame s

/-- DEC_VARIO (R157). -/
def execDecVario (frame : List Byte) (s : State) : Res State :=
  decRow (· == 0x07) (guarded 6 decVario) frame s

/-- DEC_BATTERY_SENSOR (R153). -/
def execDecBatterySensor (frame : List Byte) (s : State) : Res State :=
  decRow (· == 0x08) (guarded 12 decBatterySensor) frame s

/-- DEC_BARO_ALT (R155). -/
def execDecBaroAlt (frame : List Byte) (s : State) : Res State :=
  decRow (· == 0x09) (guarded 8 decBaroAlt) frame s

/-- DEC_HEARTBEAT (R161). -/
def execDecHeartbeat (frame : List Byte) (s : State) : Res State :=
  decRow (· == 0x0B) decHeartbeat frame s

/-- DEC_VIDEO_TRANSMITTER (R162). -/
def execDecVideoTransmitter (frame : List Byte) (s : State) : Res State :=
  decRow (· == 0x0F) decVideoTransmitter frame s

/-- DEC_LINK_STATISTICS (R150). -/
def execDecLinkStatistics (frame : List Byte) (s : State) : Res State :=
  decRow (· == 0x14) (guarded 14 decLinkStatistics) frame s

/-- DEC_RC_CHANNELS_PACKED (R159). -/
def execDecRcChannelsPacked (frame : List Byte) (s : State) : Res State :=
  decRow (· == 0x16) decRcChannelsPacked frame s

/-- DEC_ATTITUDE (R151). -/
def execDecAttitude (frame : List Byte) (s : State) : Res State :=
  decRow (· == 0x1E) (guarded 10 decAttitude) frame s

/-- DEC_FLIGHT_MODE (R152). -/
def execDecFlightMode (frame : List Byte) (s : State) : Res State :=
  decRow (· == 0x21) (guarded 5 decFlightMode) frame s

/-- DEC_DEVICE_INFO (R158). -/
def execDecDeviceInfo (frame : List Byte) (s : State) : Res State :=
  decRow (· == 0x29) decDeviceInfo frame s

/-- DEC_CONFIG_READ (R163). -/
def execDecConfigRead (frame : List Byte) (s : State) : Res State :=
  decRow (· == 0x2C) decConfigRead frame s

/-- DEC_CONFIG_WRITE (R164). -/
def execDecConfigWrite (frame : List Byte) (s : State) : Res State :=
  decRow (· == 0x2D) decConfigWrite frame s

/-- DEC_RADIO_ID (R165). -/
def execDecRadioId (frame : List Byte) (s : State) : Res State :=
  decRow (· == 0x3A) decRadioId frame s

/-- DEC_UNKNOWN (R160): every type byte not among the fourteen. -/
def execDecUnknown (frame : List Byte) (s : State) : Res State :=
  decRow (fun t => (lMinOf t).isNone && !fieldless t) decUnknown frame s

/-- DEC_TRUNCATED (R143): a structured type, with `L` below its `L_min`. -/
def execDecTruncated (frame : List Byte) (s : State) : Res State :=
  decRow (fun t => (lMinOf t).isSome) (fun r =>
    andThen (memRead1 r.frame 2) fun t =>
      if r.frame.length < (lMinOf t).getD 0 then decTruncated r else .refused (.notTruncated r.frame.length)) frame s

end Sys2Proof.Machine
end

