-- ==== Sys2Proof/Machine/Deframer.lean ====
section
/-! DEFINITION. DEFRAMER: FEED and the three arms of its scan loop, the length classes, and the streaming form
(spec/40_deframer.md R100 to R112, spec/30_encoding.md R72). -/

namespace Sys2Proof.Machine

/-- `expected`, the total frame length a length byte announces, in 9 bits (R9, R71). -/
def expected (len : Byte) : BitVec 9 := len.setWidth 9 + 2

/-- A legal length byte: `4 <= len + 2 <= 64` (R71, R72). -/
def legalLen (len : Byte) : Bool :=
  minTotal ≤ (expected len).toNat && (expected len).toNat ≤ maxTotal

/-- `RXBUF[1]` once at least 3 bytes are buffered; before that the length byte is not examined (R102). -/
def headLen : List Byte → Option Byte
  | _ :: b :: _ :: _ => some b
  | _ => none

/-- The arm of the scan loop the buffer selects: exactly one (R102 to R105, R112). With fewer than 3 bytes the pass stops,
which spec/opcode_table.json counts under SCAN_WAIT (log entry 15, DEDUCED). -/
def selectArm (buf : List Byte) : ScanArm :=
  match headLen buf with
  | none => .wait
  | some b =>
    if legalLen b then (if (expected b).toNat ≤ buf.length then .emit else .wait)
    else .discard

/-! ## The arms -/

/-- SCAN_DISCARD (R103): the whole buffer goes. -/
def scanDiscard (r : RxState) : RxState :=
  (r.setRxbuf []).raise (.framingError r.rxbuf.length (r.rxbuf.getD 1 0))

/-- The candidate frame is validated, then decoded if it is valid (R104, R126). -/
def acceptFrame (r : RxState) : Res RxState :=
  andThen (validateFrame r) fun r =>
    if r.valid then decodeFrame r
    else mapRes (frameBytes r) fun bs => r.raise (.checksumError bs r.crcacc)

/-- SCAN_EMIT (R104): the first `expected` bytes become the candidate frame and leave the buffer. -/
def scanEmit (r : RxState) : Res RxState :=
  let n := (expected (r.rxbuf.getD 1 0)).toNat
  acceptFrame ((r.setFrame (Memory.ofBytes (r.rxbuf.take n))).setRxbuf (r.rxbuf.drop n))

/-- SCAN_WAIT (R105): nothing changes. -/
def scanWait (r : RxState) : RxState := r

/-- One turn of the loop and, after an EMIT, the rest of it (R101). Each EMIT removes at least 4 bytes (R106), so the number
of buffered bytes is fuel enough. -/
def scanLoop : Nat → RxState → Res RxState
  | 0, r => .next r
  | n + 1, r =>
    match selectArm r.rxbuf with
    | .discard => .next (scanDiscard r)
    | .emit => andThen (scanEmit r) (scanLoop n)
    | .wait => .next (scanWait r)

/-! ## The streaming form -/

/-- The end of a chunk (`rx_last`): a discard in progress is reported and `DROP` cleared (R108). -/
def chunkEnd (r : RxState) : RxState :=
  match r.drop with
  | some d => (r.setDrop none).raise (.framingError d.ndisc d.lenb)
  | none => r

/-- One byte of a chunk in the streaming form (R108). -/
def rxByte (r : RxState) (b : Byte) : Res RxState :=
  match r.drop with
  | some d => .next (r.setDrop (some { d with ndisc := d.ndisc + 1 }))
  | none =>
    let buf := r.rxbuf ++ [b]
    match headLen buf with
    | none => .next (r.setRxbuf buf)
    | some len =>
      if legalLen len then
        if buf.length = (expected len).toNat then
          acceptFrame ((r.setFrame (Memory.ofBytes buf)).setRxbuf [])
        else .next (r.setRxbuf buf)
      else .next ((r.setRxbuf []).setDrop (some { ndisc := buf.length, lenb := len }))

/-- One beat of the RX byte stream (R39, R108). -/
def rxBeat (b : Byte) (last : Bool) (r : RxState) : Res RxState :=
  mapRes (rxByte r b) fun r => if last then chunkEnd r else r

/-- FEED of a whole chunk (R101). Where a beat of the same chunk has already set `DROP`, the bytes are the rest of that chunk
and are counted and dropped (R108; log entry 12, DEDUCED). -/
def feedChunk (chunk : List Byte) (r : RxState) : Res RxState :=
  match r.drop with
  | none => scanLoop (r.rxbuf ++ chunk).length (r.setRxbuf (r.rxbuf ++ chunk))
  | some d => .next (chunkEnd (r.setDrop (some { d with ndisc := d.ndisc + chunk.length })))

/-! ## The instructions -/

/-- FEED (R101, R108). -/
def execFeed (operand : RxOperand) (s : State) : Res State :=
  match operand with
  | .chunk bytes => onRx (feedChunk bytes) s
  | .beat data last => onRx (rxBeat data last) s

/-- An arm standing alone runs where the buffer selects it (R112). -/
def whenSelected (arm : ScanArm) (op : RxState → Res RxState) (r : RxState) : Res RxState :=
  if selectArm r.rxbuf = arm then op r else .refused (.armNotSelected arm)

/-- SCAN_DISCARD (R103). -/
def execScanDiscard (s : State) : Res State :=
  onRx (whenSelected .discard fun r => .next (scanDiscard r)) s

/-- SCAN_EMIT (R104). -/
def execScanEmit (s : State) : Res State :=
  onRx (whenSelected .emit scanEmit) s

/-- SCAN_WAIT (R105). -/
def execScanWait (s : State) : Res State :=
  onRx (whenSelected .wait fun r => .next (scanWait r)) s

/-- A LEN_* class: the length byte `b`, of the row's class, as the deframer sees it at `RXBUF[1]` (R72). With fewer than 3
bytes buffered the byte is not examined and nothing happens (R102). -/
def lenRow (ok : Bool) (b : Byte) (op : RxState → Res RxState) (r : RxState) : Res RxState :=
  if ok then
    match headLen r.rxbuf with
    | none => .next r
    | some h => if h = b then op r else .refused (.lengthByteNotAtHead b)
  else .refused (.lengthClass b)

/-- LEN_TOO_SHORT (R72): SCAN_DISCARD, FramingError. -/
def execLenTooShort (b : Byte) (s : State) : Res State :=
  onRx (lenRow ((expected b).toNat < minTotal) b fun r => .next (scanDiscard r)) s

/-- LEN_LEGAL (R72): SCAN_EMIT when `len + 2` bytes are buffered, else SCAN_WAIT. -/
def execLenLegal (b : Byte) (s : State) : Res State :=
  onRx (lenRow (legalLen b) b fun r =>
    if (expected b).toNat ≤ r.rxbuf.length then scanEmit r else .next (scanWait r)) s

/-- LEN_TOO_LONG (R72): SCAN_DISCARD, FramingError. -/
def execLenTooLong (b : Byte) (s : State) : Res State :=
  onRx (lenRow (maxTotal < (expected b).toNat) b fun r => .next (scanDiscard r)) s

end Sys2Proof.Machine
end

