-- ==== Sys2Proof/Machine/Pack.lean ====
section
/-! DEFINITION. PACK, the channel encoder: CH_LOAD, PACK and ENCODE (spec/43_pack.md R180 to R191). -/

namespace Sys2Proof.Machine

/-- `SYNC_TX` (R7). -/
def syncTx : Byte := 0xC8

/-- `LEN_TX` (R7). -/
def lenTx : Byte := 24

/-- `TYPE_RC` (R7). -/
def typeRc : Byte := 0x16

/-- `CH_LOAD(v)` (R181): the value is stored while `CHCNT < 16`, and counted up to 17. -/
def loadChannel (t : TxState) (v : Chan) : TxState :=
  let t' := if h : t.chcnt.toNat < 16 then t.setCh (t.ch.set t.chcnt.toNat v h) else t
  if t.chcnt.toNat < 17 then t'.setChcnt (t.chcnt + 1) else t'

/-- The packer's registers during one PACK (R184): `k` is the index of the next `PK` byte. -/
structure Packer where
  acc : BitVec 18
  n : BitVec 5
  pk : Vector Byte 22
  k : Nat
  deriving DecidableEq, Repr

/-- `while PACKN >= 8`: the completed byte, low 8 bits of the accumulator, goes to `PK[k]` (R184). `PACKN` is below 32, so
four turns are fuel enough. -/
def drainPacker : Nat → Packer → Packer
  | 0, p => p
  | fuel + 1, p =>
    if 8 ≤ p.n.toNat then
      drainPacker fuel
        { acc := p.acc >>> 8, n := p.n - 8, pk := p.pk.setIfInBounds p.k (p.acc.setWidth 8), k := p.k + 1 }
    else p

/-- One channel value enters the accumulator at the current free bit position (R184). -/
def packValue (p : Packer) (v : Chan) : Packer :=
  drainPacker 4 { p with acc := p.acc ||| (v.setWidth 18 <<< p.n.toNat), n := p.n + 11 }

/-- `PACK(CH)`, the accumulator form (R184). -/
def packChannels (t : TxState) : TxState :=
  let p := t.ch.toList.foldl packValue { acc := 0, n := 0, pk := t.pk, k := 0 }
  t.setPacker p.acc p.n p.pk

/-- The bytes of a frame as beats of the TX byte stream, `tx_last` on the final one (R38, R188). -/
def txBeats : List Byte → List TxBeat
  | [] => []
  | [b] => [⟨b, true⟩]
  | b :: bs => ⟨b, false⟩ :: txBeats bs

/-- ENCODE after a correct count (R188): pack, header, packed bytes, CRC, send. -/
def sendFrame (start : EncCrcStart) (t : TxState) : Res TxState :=
  let t := packChannels t
  let txf := (t.txf.writeBytes 0 [syncTx, lenTx, typeRc]).writeBytes 3 t.pk.toList
  andThen (txfSlice txf start.index (25 - start.index)) fun covered =>
    let txf := txf.write 25 (crc8 covered)
    mapRes (txfSlice txf 0 26) fun bytes =>
      ((t.setTxf txf).setCrcacc (crc8 covered)).setOut (t.out ++ txBeats bytes)

/-- COMMIT (R182): the count check at the end of a ChannelSet. The outcome is "either 26 bytes or" the error (R203). -/
def commit (start : EncCrcStart) (t : TxState) : Res TxState :=
  if t.chcnt = 16 then sendFrame start ((t.setChcnt 0).setErr none)
  else .next ((t.setChcnt 0).raise t.chcnt)

/-- CH_LOAD (R181). -/
def execChLoad (v : Chan) (s : State) : Res State :=
  onTx (fun t => .next (loadChannel t v)) s

/-- PACK (R183, R184). -/
def execPack (s : State) : Res State :=
  onTx (fun t => .next (packChannels t)) s

/-- ENCODE (R182, R188): the values are loaded one by one, then the set is committed (R85, R39); a set begun by CH_LOADs goes on
(log entry 11, DEDUCED), and the loads of a set of the wrong count stay (R181, P6; log entry 10, DEDUCED). -/
def execEncode (operand : ChOperand) (s : State) : Res State :=
  match operand with
  | .values vs => onTx (fun t => commit s.encCrcStart (vs.foldl loadChannel t)) s
  | .lastBeat v => onTx (fun t => commit s.encCrcStart (loadChannel t v)) s

end Sys2Proof.Machine
end

