-- ==== Sys2Proof/Machine/Ports.lean ====
section
/-! DEFINITION. RESET and the ports (spec/70_reset_and_hazards.md R230, spec/10_state.md R37 to R40): the handshakes, which
port moves next, the output pins, and the views RXCNT and FB of the buffer. -/

namespace Sys2Proof.Machine

/-! ## RESET -/

/-- The RX path after RESET: what R230 sets, and free values where R40 says "unspecified" (log entry 6, DESIGN CHOICE, safe). -/
def RxState.afterReset (free : Nat) : RxState where
  rxbuf := []
  drop := none
  crcacc := Config.freeCrc free 0
  f := Vector.ofFn fun i => Config.freeField free i
  frame := []
  valid := Config.freeBit free
  events := []

/-- The TX path after RESET: what R230 sets, and free values where R40 says "unspecified" (log entry 6, DESIGN CHOICE, safe). -/
def TxState.afterReset (free : Nat) : TxState where
  ch := Vector.ofFn fun i => Config.freeChan free i
  chcnt := 0
  packacc := 0
  packn := 0
  pk := Vector.ofFn fun i => Config.freePacked free i
  txf := Memory.ofBytes ((List.range 26).map (Config.freeTxf free))
  crcacc := Config.freeCrc free 1
  out := []
  err := none

/-- RESET (R230). An event or TX frame in progress is abandoned; the instance's parameter and what the world outside holds at
the ports stay. -/
def execReset (s : State) : Res State :=
  .next { s with rx := RxState.afterReset s.free, tx := TxState.afterReset s.free, free := s.free + 1 }

/-! ## Views of the buffer -/

/-- `RXCNT`, the 7-bit count of buffered bytes (R24). -/
def RxState.rxcnt (r : RxState) : BitVec 7 :=
  BitVec.ofNat 7 r.rxbuf.length

/-- `FB[i]`: `FB[0 .. RXCNT)` is `RXBUF` (R37); beyond it the contents are unspecified and nothing reads them (R40). -/
def State.fb (s : State) (i : Nat) : Byte :=
  (s.rx.rxbuf[i]?).getD (Config.freeFb s.free i)

/-! ## Pins -/

/-- `rx_ready`: 0 while `rst` = 1 and while an event waits for `ev_ready` (R39, R40). -/
def State.rxReady (rst : Bool) (s : State) : Bool :=
  !rst && s.rx.events.isEmpty

/-- `ch_ready`: 0 while `rst` = 1, then 1 (R40). -/
def State.chReady (rst : Bool) (_s : State) : Bool :=
  !rst

/-- `ev_valid`: an event is offered. -/
def State.evValid (s : State) : Bool :=
  !s.rx.events.isEmpty

/-- The event pins: those of the oldest event not yet taken (R204); nothing is defined on them while `ev_valid` = 0 (U7). -/
def State.evPins (s : State) : Option EventPins :=
  s.rx.events.head?.map Event.pins

/-- `tx_data` and `tx_last`, where `tx_valid` = 1 (R38, U7). -/
def State.txBeat (s : State) : Option (Byte × Bool) :=
  s.tx.out.head?.map fun b => (b.data, b.last)

/-- `tx_valid`: a byte of an encoded frame is offered. -/
def State.txValid (s : State) : Bool :=
  !s.tx.out.isEmpty

/-- `tx_err`: the pulse of an InvalidChannelCount (R182). -/
def State.txErr (s : State) : Bool :=
  s.tx.err.isSome

/-- The pulse `tx_err` is over: it needs no acknowledgement (R38, R200; log entry 17, DESIGN CHOICE). -/
def State.endPulse (s : State) : State :=
  s.setTx (s.tx.setErr none)

/-! ## Which port moves next -/

/-- The two agents of the block (R20). -/
inductive Path where
  | rx
  | tx
  deriving DecidableEq, Repr

/-- The path that takes a word. RESET acts on both and is on neither (R230). -/
def wordPath : PortWord → Option Path
  | .frame _ => some .rx
  | .lenByte _ => some .rx
  | .rxChunk _ => some .rx
  | .rxBeat _ _ => some .rx
  | .chBeat _ _ => some .tx
  | .chSet _ => some .tx
  | .rst => none
  | .scan _ => some .rx
  | .crcBit .rx => some .rx
  | .crcBit .tx => some .tx
  | .crcByte .rx _ => some .rx
  | .crcByte .tx _ => some .tx
  | .crcSeq .rx _ => some .rx
  | .crcSeq .tx _ => some .tx
  | .validate _ => some .rx
  | .decode _ => some .rx
  | .pack => some .tx

/-- The path that takes an input; a consumer's `ready` is on neither. -/
def inputPath : Input → Option Path
  | .word w => wordPath w
  | .takeEvent => none
  | .takeTx => none

/-- `i` stands behind `j`: each path takes its words in the order they are put, "a single in-order agent" (R61, R62, R64). -/
def behind (i j : Input) : Bool :=
  (inputPath i).isSome && inputPath i == inputPath j

/-- A beat transfers only where `valid` and `ready` are both 1 (R38). A whole FEED transaction returns its events and waits for
none (R241; log entry 18, DEDUCED). -/
def ready (s : State) : Input → Bool
  | .word (.rxBeat _ _) => s.rxReady false
  | .word (.chBeat _ _) => s.chReady false
  | .word _ => true
  | .takeEvent => s.evValid
  | .takeTx => s.txValid

/-- `i` can move when `before` is what was put to the ports earlier and still waits there. -/
def canMove (s : State) (before : List Input) (i : Input) : Bool :=
  ready s i && !before.any (behind i)

/-- The first input that can move behind `before`, and the inputs without it. -/
def pickAfter (s : State) (before : List Input) : List Input → Option (Input × List Input)
  | [] => none
  | i :: rest =>
    if canMove s before i then some (i, rest)
    else (pickAfter s (before ++ [i]) rest).map fun p => (p.1, i :: p.2)

/-- The first input that can move, and the inputs without it: a sender whose stream is not ready holds its beat, the words of that
path put later wait behind it (R61), and the other path and the consumers go on (R38, R63; log entry 1, DESIGN CHOICE). -/
def pick (s : State) : List Input → Option (Input × List Input) :=
  pickAfter s []

/-- The consumer takes the oldest event (R38). -/
def takeEvent (s : State) : State :=
  s.setRx (s.rx.setEvents s.rx.events.tail)

/-- The consumer takes the oldest beat of the TX byte stream (R38, R62). -/
def takeTx (s : State) : State :=
  s.setTx (s.tx.setOut s.tx.out.tail)

end Sys2Proof.Machine
end

