-- ==== Sys2Proof/Machine/Dispatch.lean ====
section
/-! DEFINITION. exec: one arm per instruction, each one call of that instruction's meaning. -/

namespace Sys2Proof.Machine

def exec (i : Instr) (s : State) : Host.Outcome State Fault Refusal :=
  match i with
  | .decGps frame => Sys2Proof.Machine.execDecGps frame s
  | .decVario frame => Sys2Proof.Machine.execDecVario frame s
  | .decBatterySensor frame => Sys2Proof.Machine.execDecBatterySensor frame s
  | .decBaroAlt frame => Sys2Proof.Machine.execDecBaroAlt frame s
  | .decHeartbeat frame => Sys2Proof.Machine.execDecHeartbeat frame s
  | .decVideoTransmitter frame => Sys2Proof.Machine.execDecVideoTransmitter frame s
  | .decLinkStatistics frame => Sys2Proof.Machine.execDecLinkStatistics frame s
  | .decRcChannelsPacked frame => Sys2Proof.Machine.execDecRcChannelsPacked frame s
  | .decAttitude frame => Sys2Proof.Machine.execDecAttitude frame s
  | .decFlightMode frame => Sys2Proof.Machine.execDecFlightMode frame s
  | .decDeviceInfo frame => Sys2Proof.Machine.execDecDeviceInfo frame s
  | .decConfigRead frame => Sys2Proof.Machine.execDecConfigRead frame s
  | .decConfigWrite frame => Sys2Proof.Machine.execDecConfigWrite frame s
  | .decRadioId frame => Sys2Proof.Machine.execDecRadioId frame s
  | .decUnknown frame => Sys2Proof.Machine.execDecUnknown frame s
  | .decTruncated frame => Sys2Proof.Machine.execDecTruncated frame s
  | .lenTooShort len => Sys2Proof.Machine.execLenTooShort len s
  | .lenLegal len => Sys2Proof.Machine.execLenLegal len s
  | .lenTooLong len => Sys2Proof.Machine.execLenTooLong len s
  | .feed operand => Sys2Proof.Machine.execFeed operand s
  | .scanDiscard => Sys2Proof.Machine.execScanDiscard s
  | .scanEmit => Sys2Proof.Machine.execScanEmit s
  | .scanWait => Sys2Proof.Machine.execScanWait s
  | .crc8Bit unit => Sys2Proof.Machine.execCrc8Bit unit s
  | .crc8Byte unit b => Sys2Proof.Machine.execCrc8Byte unit b s
  | .crc8 unit bytes => Sys2Proof.Machine.execCrc8 unit bytes s
  | .validate frame => Sys2Proof.Machine.execValidate frame s
  | .decode frame => Sys2Proof.Machine.execDecode frame s
  | .chLoad v => Sys2Proof.Machine.execChLoad v s
  | .pack => Sys2Proof.Machine.execPack s
  | .encode operand => Sys2Proof.Machine.execEncode operand s
  | .reset => Sys2Proof.Machine.execReset s

end Sys2Proof.Machine
end

