-- ==== Sys2Proof/Machine/Step.lean ====
section
/-! DEFINITION. One step: the next input that can move is taken from the ports and run. Each transaction is one step and the
block has no clock (R244). -/

namespace Sys2Proof.Machine

/-- Run one input. A word that decodes is executed; one that does not is refused by name. -/
def runInput (i : Input) (s : State) : Host.Outcome State Fault Refusal :=
  match i with
  | .word w =>
    match decode w with
    | .ok instr => exec instr s
    | .error e => .refused (.undecodable e)
  | .takeEvent => .next (takeEvent s)
  | .takeTx => .next (takeTx s)

/-- One step. The pulse `tx_err` of the step before is over; then the next input that can move is run. Where nothing at the ports
can move the block is idle: waiting for input is no state that needs waking (R213; log entry 24, DEDUCED). -/
def step (s : State) : Host.Outcome State Fault Refusal :=
  match pick s s.inputs with
  | some (i, rest) => runInput i (s.endPulse.setInputs rest)
  | none => .next s.endPulse

/-- `s` with the frame of a table word first at the ports, so that the next step runs it (log entries 2 and 20, DESIGN CHOICE). -/
def State.withFetchWord (s : State) (nbits w : Nat) : State :=
  s.setInputs (.word (.frame (frameOfTableWord nbits w)) :: s.inputs)

end Sys2Proof.Machine
end

