-- ==== Sys2Proof/Safety.lean ====
section
/-! DEFINITION. The words in which claims are made: the machine's invariants (spec/10_state.md R22, R23, R29, R30,
spec/60_exceptions.md R200 to R204), the spec's readings of a frame's bytes as mathematical integers (R10, R53, R77), the
packed number (R183), and runs of several operations. None of these is used by the machine itself. -/

namespace Sys2Proof.Machine

/-! ## Frames as byte sequences -/

/-- A candidate frame has 4 to 64 bytes (R71). -/
def LegalFrame (frame : List Byte) : Prop :=
  4 ≤ frame.length ∧ frame.length ≤ 64

/-- A length byte the deframer accepts: 2 to 62 (R72). -/
def LegalLenByte (b : Byte) : Prop :=
  2 ≤ b.toNat ∧ b.toNat ≤ 62

/-- The bytes the CRC covers, `FRAME[2 .. L-1)` (R125). -/
def coveredBytes (frame : List Byte) : List Byte :=
  (frame.drop 2).take (frame.length - 3)

/-- The CRC byte, `FRAME[L-1]` (R51). -/
def crcByteOf (frame : List Byte) : Byte :=
  frame.getD (frame.length - 1) 0

/-- `signed_W(v)` of an unsigned `v` below `2^W` (R10). -/
def signed (w v : Nat) : Int :=
  if v < 2 ^ (w - 1) then (v : Int) else (v : Int) - (2 : Int) ^ w

/-- The unsigned byte at an offset: kind `u8` (R77). -/
def u8At (frame : List Byte) (k : Nat) : Nat :=
  (frame.getD k 0).toNat

/-- The unsigned big-endian integer of two bytes (R53). -/
def u16At (frame : List Byte) (k : Nat) : Nat :=
  u8At frame k * 256 + u8At frame (k + 1)

/-- The unsigned big-endian integer of four bytes (R53). -/
def u32At (frame : List Byte) (k : Nat) : Nat :=
  u16At frame k * 65536 + u16At frame (k + 2)

/-- Kind `s8` (R77). -/
def s8At (frame : List Byte) (k : Nat) : Int := signed 8 (u8At frame k)

/-- Kind `s16be` (R77). -/
def s16At (frame : List Byte) (k : Nat) : Int := signed 16 (u16At frame k)

/-- Kind `s32be` (R77). -/
def s32At (frame : List Byte) (k : Nat) : Int := signed 32 (u32At frame k)

/-- The frame with another sync byte (R73). -/
def withSync (sync : Byte) (frame : List Byte) : List Byte :=
  frame.set 0 sync

/-! ## Ports -/

/-- Nothing in `is` can move, where `before` was put to the ports earlier and still waits. -/
def NoneMoves (s : State) (before is : List Input) : Prop :=
  ∀ p j q, is = p ++ j :: q → canMove s (before ++ p) j = false

/-- A row of R204's table for an event with a frame: `ev_type`, `ev_len` and `ev_frame` come from the frame, the slots from 0 up are
those given, and every pin the row does not list is `none`. -/
def pinRow (kind : BitVec 4) (cause : BitVec 3) (update : Bool) (known : Option Bool) (crc : Option Byte) (frame : List Byte)
    (slots : List Word32) : EventPins where
  kind := kind
  cause := cause
  update := update
  known := known
  type := frame[2]?
  len := some (BitVec.ofNat 7 frame.length)
  frame := Vector.ofFn fun i : Fin 64 => frame[i.val]?
  f := Vector.ofFn fun i : Fin 10 => slots[i.val]?
  ndisc := none
  lenbyte := none
  crc := crc

/-! ## Results -/

/-- `s` with `frame` as the candidate frame `FRAME`. -/
def State.framed (s : State) (frame : List Byte) : State :=
  s.setRx (s.rx.setFrame (Memory.ofBytes frame))

/-- `s` with the field registers `f`. -/
def State.withFields (s : State) (f : Vector Word32 10) : State :=
  s.setRx (s.rx.setF f)

/-- `s` with one more event at the end of its event stream. -/
def State.emitting (s : State) (e : Event) : State :=
  s.setRx (s.rx.emit e)

/-- `s` with `buf` as `RXBUF`. -/
def State.buffering (s : State) (buf : List Byte) : State :=
  s.setRx (s.rx.setRxbuf buf)

/-- `s` with `v` as the running CRC of a unit. -/
def State.withCrc (s : State) : CrcUnit → Byte → State
  | .rx, v => s.setRx (s.rx.setCrcacc v)
  | .tx, v => s.setTx (s.tx.setCrcacc v)

/-- The running CRC of a unit. -/
def State.crcOf (s : State) : CrcUnit → Byte
  | .rx => s.rx.crcacc
  | .tx => s.tx.crcacc

/-- The Raw record event of a frame (R142, R144). -/
def rawEvent (known : Bool) (cause : Cause) (frame : List Byte) : Event :=
  .record (.raw (typeByte frame) known cause frame) false frame

/-- The event with another sync byte in its copies of the frame (R166). -/
def Event.resync (sync : Byte) : Event → Event
  | .record (.raw t k c bs) u f => .record (.raw t k c (withSync sync bs)) u (withSync sync f)
  | .record rec u f => .record rec u (withSync sync f)
  | .noop f => .noop (withSync sync f)
  | .crcError f c => .crcError (withSync sync f) c
  | .framingError n b => .framingError n b

/-- The fourteen DEC_* rows of a single type byte, with that byte (R76). -/
def typedInstrs : List (Byte × (List Byte → Instr)) :=
  [(0x02, .decGps), (0x07, .decVario), (0x08, .decBatterySensor), (0x09, .decBaroAlt), (0x0B, .decHeartbeat),
   (0x0F, .decVideoTransmitter), (0x14, .decLinkStatistics), (0x16, .decRcChannelsPacked), (0x1E, .decAttitude),
   (0x21, .decFlightMode), (0x29, .decDeviceInfo), (0x2C, .decConfigRead), (0x2D, .decConfigWrite), (0x3A, .decRadioId)]

/-- The instructions that take a frame operand. -/
def frameInstrs : List (List Byte → Instr) :=
  typedInstrs.map Prod.snd ++ [.decUnknown, .decTruncated, .validate, .decode]

/-- The instructions whose operand is the buffer's head: the arms of the scan loop and the length classes. -/
def onBufferHead : Instr → Bool
  | .scanDiscard => true
  | .scanEmit => true
  | .scanWait => true
  | .lenTooShort _ => true
  | .lenLegal _ => true
  | .lenTooLong _ => true
  | _ => false

/-! ## The CRC table -/

/-- `CRC8([b])` for `b` = 0x00 to 0xFF, sixteen to a row (R124 d). -/
def crcTable : List Byte :=
  [0x00, 0xD5, 0x7F, 0xAA, 0xFE, 0x2B, 0x81, 0x54, 0x29, 0xFC, 0x56, 0x83, 0xD7, 0x02, 0xA8, 0x7D] ++
  [0x52, 0x87, 0x2D, 0xF8, 0xAC, 0x79, 0xD3, 0x06, 0x7B, 0xAE, 0x04, 0xD1, 0x85, 0x50, 0xFA, 0x2F] ++
  [0xA4, 0x71, 0xDB, 0x0E, 0x5A, 0x8F, 0x25, 0xF0, 0x8D, 0x58, 0xF2, 0x27, 0x73, 0xA6, 0x0C, 0xD9] ++
  [0xF6, 0x23, 0x89, 0x5C, 0x08, 0xDD, 0x77, 0xA2, 0xDF, 0x0A, 0xA0, 0x75, 0x21, 0xF4, 0x5E, 0x8B] ++
  [0x9D, 0x48, 0xE2, 0x37, 0x63, 0xB6, 0x1C, 0xC9, 0xB4, 0x61, 0xCB, 0x1E, 0x4A, 0x9F, 0x35, 0xE0] ++
  [0xCF, 0x1A, 0xB0, 0x65, 0x31, 0xE4, 0x4E, 0x9B, 0xE6, 0x33, 0x99, 0x4C, 0x18, 0xCD, 0x67, 0xB2] ++
  [0x39, 0xEC, 0x46, 0x93, 0xC7, 0x12, 0xB8, 0x6D, 0x10, 0xC5, 0x6F, 0xBA, 0xEE, 0x3B, 0x91, 0x44] ++
  [0x6B, 0xBE, 0x14, 0xC1, 0x95, 0x40, 0xEA, 0x3F, 0x42, 0x97, 0x3D, 0xE8, 0xBC, 0x69, 0xC3, 0x16] ++
  [0xEF, 0x3A, 0x90, 0x45, 0x11, 0xC4, 0x6E, 0xBB, 0xC6, 0x13, 0xB9, 0x6C, 0x38, 0xED, 0x47, 0x92] ++
  [0xBD, 0x68, 0xC2, 0x17, 0x43, 0x96, 0x3C, 0xE9, 0x94, 0x41, 0xEB, 0x3E, 0x6A, 0xBF, 0x15, 0xC0] ++
  [0x4B, 0x9E, 0x34, 0xE1, 0xB5, 0x60, 0xCA, 0x1F, 0x62, 0xB7, 0x1D, 0xC8, 0x9C, 0x49, 0xE3, 0x36] ++
  [0x19, 0xCC, 0x66, 0xB3, 0xE7, 0x32, 0x98, 0x4D, 0x30, 0xE5, 0x4F, 0x9A, 0xCE, 0x1B, 0xB1, 0x64] ++
  [0x72, 0xA7, 0x0D, 0xD8, 0x8C, 0x59, 0xF3, 0x26, 0x5B, 0x8E, 0x24, 0xF1, 0xA5, 0x70, 0xDA, 0x0F] ++
  [0x20, 0xF5, 0x5F, 0x8A, 0xDE, 0x0B, 0xA1, 0x74, 0x09, 0xDC, 0x76, 0xA3, 0xF7, 0x22, 0x88, 0x5D] ++
  [0xD6, 0x03, 0xA9, 0x7C, 0x28, 0xFD, 0x57, 0x82, 0xFF, 0x2A, 0x80, 0x55, 0x01, 0xD4, 0x7E, 0xAB] ++
  [0x84, 0x51, 0xFB, 0x2E, 0x7A, 0xAF, 0x05, 0xD0, 0xAD, 0x78, 0xD2, 0x07, 0x53, 0x86, 0x2C, 0xF9]

/-! ## Invariants -/

/-- What `RXBUF` is between operations (R22). -/
def Residue (buf : List Byte) : Prop :=
  buf.length ≤ 63 ∧ (3 ≤ buf.length → LegalLenByte (buf.getD 1 0) ∧ buf.length < (buf.getD 1 0).toNat + 2)

/-- What every event carries (R142, R144, R159, R201, R202, R203). -/
def Event.Legal : Event → Prop
  | .record rec update frame =>
    LegalFrame frame ∧ update = rec.update ∧
      (∀ t k c bs, rec = .raw t k c bs → t = frame.getD 2 0 ∧ bs = frame ∧ (k = true ↔ t ∈ packetTypes))
  | .noop frame => LegalFrame frame ∧ frame.getD 2 0 = 0x16
  | .crcError frame computed =>
    LegalFrame frame ∧ computed = crc8 (coveredBytes frame) ∧ computed ≠ crcByteOf frame
  | .framingError n b => 3 ≤ n ∧ ¬ LegalLenByte b

/-- The invariant of the RX path: the residue of R22, `DROP` of R108, the candidate frame a snapshot of at most 64 bytes
(R50), and legal events. -/
def RxState.Inv (r : RxState) : Prop :=
  Residue r.rxbuf ∧
  (∀ d, r.drop = some d → r.rxbuf = [] ∧ 3 ≤ d.ndisc ∧ ¬ LegalLenByte d.lenb) ∧
  (∃ bs : List Byte, bs.length ≤ 64 ∧ r.frame = Memory.ofBytes bs) ∧
  (∀ e ∈ r.events, e.Legal)

/-- The invariant of the TX path: `CHCNT` at most 17 (R29), nothing pending in the packer (R30), `TXF` in canonical form with a
value at each of its 26 addresses and at no other (R31), and a pulse that reports a count other than 16 and at most 17 (R182). -/
def TxState.Inv (t : TxState) : Prop :=
  t.chcnt.toNat ≤ 17 ∧ t.packacc = 0 ∧ t.packn = 0 ∧ t.txf.wf = true ∧ (∀ a, (t.txf.read a).isSome = true ↔ a < 26) ∧
    ∀ n, t.err = some n → n ≠ 16 ∧ n.toNat ≤ 17

/-- The invariant of the machine between steps. -/
def State.Inv (s : State) : Prop := s.rx.Inv ∧ s.tx.Inv

/-! ## Paths -/

/-- The operations of the TX path (R20, R33). -/
def onTxPath : Instr → Bool
  | .chLoad _ => true
  | .pack => true
  | .encode _ => true
  | .crc8Bit .tx => true
  | .crc8Byte .tx _ => true
  | .crc8 .tx _ => true
  | _ => false

/-- The operations of the RX path: all others but RESET, which acts on both. -/
def onRxPath : Instr → Bool
  | .reset => false
  | i => !onTxPath i

/-- The arms of the scan loop as instructions. -/
def scanInstr : ScanArm → Instr
  | .discard => .scanDiscard
  | .emit => .scanEmit
  | .wait => .scanWait

/-! ## Runs -/

/-- A chunk as beats of the RX byte stream, `rx_last` on the final one (R39). -/
def feedBeats : List Byte → State → Res State
  | [], s => .next s
  | [b], s => exec (.feed (.beat b true)) s
  | b :: bs, s => andThen (exec (.feed (.beat b false)) s) (feedBeats bs)

/-- One FEED transaction per chunk. -/
def feedChunks : List (List Byte) → State → Res State
  | [], s => .next s
  | c :: cs, s => andThen (exec (.feed (.chunk c)) s) (feedChunks cs)

/-- A list of instructions, one after the other. -/
def execAll : List Instr → State → Res State
  | [], s => .next s
  | i :: is, s => andThen (exec i s) (execAll is)

/-- A safe state: the next step is no fault. It may be refused by name, but it reads no address outside a buffer (R58). -/
def State.Safe (s : State) : Prop :=
  ∀ e, step s ≠ .fault e

/-! ## The packed payload -/

/-- The 176-bit number `P = sum of CH[i] << (11*i)` (R183). -/
def packedNumber (ch : Vector Chan 16) : Nat :=
  ((List.range 16).map fun i => (ch.toList.getD i 0).toNat * 2 ^ (11 * i)).sum

/-- `PK[k] = P[8*k+7 : 8*k]` for `k` = 0 to 21 (R183). -/
def packedBytes (ch : Vector Chan 16) : List Byte :=
  (List.range 22).map fun k => BitVec.ofNat 8 (packedNumber ch / 2 ^ (8 * k))

/-- The 25 bytes before the CRC of an encoded frame (R186). -/
def frameHead (ch : Vector Chan 16) : List Byte :=
  [0xC8, 24, 0x16] ++ packedBytes ch

/-- An encoded frame: the head and the CRC of its bytes from `ENC_CRC_START` on (R187). -/
def encodedFrame (start : EncCrcStart) (ch : Vector Chan 16) : List Byte :=
  frameHead ch ++ [crc8 ((frameHead ch).drop start.index)]

end Sys2Proof.Machine
end

