-- ==== Sys2Proof/Certificates/Slice0/Obligations.lean ====
section
/-! DEFINITION. The statements for the provers. Each docstring names the rule of spec/ it formalises; where a statement rests on
a choice of the model it names the log entry. -/

open Sys2Proof Sys2Proof.Machine

/-! ## Encodings and the step -/

/-- Decoding the encoding of a well-formed instruction gives it back, with every operand at every value (R72, R75, R86). -/
def Obligations.EncodedInstrDecodesToItself : Prop :=
  ∀ i : Instr, WellFormed i = true → decode (encode i) = .ok i

/-- The other direction: what decodes is well formed, and each port word has one meaning only. -/
def Obligations.DecodedWordIsItsEncoding : Prop :=
  ∀ (w : PortWord) (i : Instr), decode w = .ok i → WellFormed i = true ∧ encode i = w

/-- A few words of the spec's tables and examples decode to the instruction they stand for (R72, R76, R143). -/
def Obligations.KnownWordsDecode : Prop :=
  decode (.frame [0xC8, 0x04, 0x07, 0xFF, 0xE7, 0xD9]) = .ok (.decVario [0xC8, 0x04, 0x07, 0xFF, 0xE7, 0xD9]) ∧
  decode (.frame [0xC8, 0x02, 0x21, 0x71]) = .ok (.decTruncated [0xC8, 0x02, 0x21, 0x71]) ∧
  decode (.frame [0xC8, 0x02, 0x16, 0xD3]) = .ok (.decRcChannelsPacked [0xC8, 0x02, 0x16, 0xD3]) ∧
  decode (.frame [0xC8, 0x02, 0x7F, 0x16]) = .ok (.decUnknown [0xC8, 0x02, 0x7F, 0x16]) ∧
  decode (.lenByte 1) = .ok (.lenTooShort 1) ∧ decode (.lenByte 62) = .ok (.lenLegal 62) ∧
  decode (.lenByte 63) = .ok (.lenTooLong 63) ∧ decode (.lenByte 200) = .ok (.lenTooLong 200) ∧
  decode (.chBeat 992 false) = .ok (.chLoad 992) ∧ decode (.chBeat 992 true) = .ok (.encode (.lastBeat 992)) ∧
  decode .rst = .ok .reset

/-- R75: the decode word is made of the frame's first three bytes; every type row has mask 0x0000FF and wins where it
matches; the catch-all row has mask 0 and applies exactly where no other row matches; so the type byte alone selects. -/
def Obligations.TypeByteSelectsTheRow : Prop :=
  (∀ frame : List Byte,
    (decodeWord frame).toNat = u8At frame 0 * 65536 + u8At frame 1 * 256 + u8At frame 2) ∧
  (∀ r ∈ typeRows, r.mask = 0x0000FF ∧ ∀ w, w &&& r.mask = r.pattern → rowOf w = r) ∧
  unknownRow.mask = 0x000000 ∧
  (∀ w, (∀ r ∈ typeRows, w &&& r.mask ≠ r.pattern) → rowOf w = unknownRow) ∧
  (∀ frame frame' : List Byte, typeByte frame = typeByte frame' → rowOf (decodeWord frame) = rowOf (decodeWord frame'))

/-- When the first input that can move is a word that decodes to `i`, the step is `exec i` on the state without that input, the
pulse `tx_err` of the step before being over (log entry 17). Nothing else is added around `exec`: there is no program counter
(R24). The order of the inputs is log entry 1. -/
def Obligations.StepRunsTheDecodedWord : Prop :=
  ∀ (s : State) (pre : List Input) (w : PortWord) (post : List Input) (i : Instr),
    s.inputs = pre ++ .word w :: post → NoneMoves s [] pre → canMove s pre (.word w) = true →
    decode w = .ok i → step s = exec i (s.endPulse.setInputs (pre ++ post))

/-- What a step does besides running a word, and what the output pins show: with nothing that can move the block is idle (log
entry 24); a word that does not decode, which is a frame, VALIDATE or DECODE word of illegal length, is refused by name wherever it is the
first that can move (log entry 21); a waiting event, or the oldest beat of the TX byte
stream, is on the pins, and its consumer takes it; and the pulse `tx_err` is high after a step only where that step ran an ENCODE
that sent nothing (R38, R182; one step long, log entry 17). -/
def Obligations.StepTakesOutputsOrIdles : Prop :=
  (∀ s : State, NoneMoves s [] s.inputs → step s = .next s.endPulse) ∧
  (∀ (s : State) (pre : List Input) (w : PortWord) (post : List Input) (e : DecodeError),
    s.inputs = pre ++ .word w :: post → NoneMoves s [] pre → canMove s pre (.word w) = true → decode w = .error e →
    step s = .refused (.undecodable e)) ∧
  (∀ (w : PortWord) (e : DecodeError), decode w = .error e ↔
    ∃ bytes, (w = .frame bytes ∨ w = .validate bytes ∨ w = .decode bytes) ∧ ¬ LegalFrame bytes ∧
      e = if bytes.length < 4 then .frameTooShort bytes.length else .frameTooLong bytes.length) ∧
  (∀ (s : State) (e : Event) (es : List Event), s.rx.events = e :: es →
    s.evValid = true ∧ s.evPins = some e.pins ∧
    ∀ pre post, s.inputs = pre ++ .takeEvent :: post → NoneMoves s [] pre →
      step s = .next ((s.endPulse.setInputs (pre ++ post)).setRx (s.rx.setEvents es))) ∧
  (∀ (s : State) (x : TxBeat) (xs : List TxBeat), s.tx.out = x :: xs →
    s.txValid = true ∧ s.txBeat = some (x.data, x.last) ∧
    ∀ pre post, s.inputs = pre ++ .takeTx :: post → NoneMoves s [] pre →
      step s = .next ((s.endPulse.setInputs (pre ++ post)).setTx ((s.tx.setErr none).setOut xs))) ∧
  (∀ s : State, (s.rx.events = [] → s.evValid = false ∧ s.evPins = none) ∧
    (s.tx.out = [] → s.txValid = false ∧ s.txBeat = none) ∧ (s.txErr = true ↔ ∃ n, s.tx.err = some n)) ∧
  (∀ s t : State, step s = .next t → t.txErr = true →
    ∃ pre w post operand, s.inputs = pre ++ .word w :: post ∧ NoneMoves s [] pre ∧ canMove s pre (.word w) = true ∧
      decode w = .ok (.encode operand) ∧ exec (.encode operand) (s.endPulse.setInputs (pre ++ post)) = .next t ∧
      t.inputs = pre ++ post ∧ t.tx.out = s.tx.out)

/-- While an event waits, `rx_ready` is 0 and the pins show the oldest event (R39, R241). A beat of the RX byte stream, wherever it
stands at the ports, is still offered after the step, and no word of the RX path put behind it has passed it (R61); the consumer's
take passes it, and nothing is lost. -/
def Obligations.RxBeatWaitsForTheEvent : Prop :=
  (∀ (s : State) (e : Event) (es : List Event), s.rx.events = e :: es →
    s.rxReady false = false ∧ s.evValid = true ∧ s.evPins = some e.pins) ∧
  (∀ (s t : State) (data : Byte) (last : Bool) (pre post : List Input), s.rx.events ≠ [] →
    s.inputs = pre ++ .word (.rxBeat data last) :: post → step s = .next t →
    ∃ pre' post', t.inputs = pre' ++ .word (.rxBeat data last) :: post' ∧
      ((pre'.Sublist pre ∧ post' = post) ∨
        (pre' = pre ∧ post'.Sublist post ∧
          post'.filter (fun i => inputPath i == some .rx) = post.filter (fun i => inputPath i == some .rx)))) ∧
  (∀ (s : State) (e : Event) (es : List Event) (data : Byte) (last : Bool) (pre mid post : List Input),
    s.rx.events = e :: es → s.inputs = (pre ++ .word (.rxBeat data last) :: mid) ++ .takeEvent :: post →
    NoneMoves s [] (pre ++ .word (.rxBeat data last) :: mid) →
    step s = .next ((s.endPulse.setInputs ((pre ++ .word (.rxBeat data last) :: mid) ++ post)).setRx (s.rx.setEvents es)))

/-- Where some input can move and the step answers a next state, exactly one input has left the ports, one that was ready and
stood behind no earlier word of its path (R61, R62); no instruction puts one there (R59, R245). -/
def Obligations.StepTakesExactlyOneInput : Prop :=
  ∀ s t : State, ¬ NoneMoves s [] s.inputs → step s = .next t →
    ∃ pre j post, s.inputs = pre ++ j :: post ∧ ready s j = true ∧
      (∀ k ∈ pre, ∀ p, inputPath k = some p → inputPath j ≠ some p) ∧ t.inputs = pre ++ post

/-! ## RESET -/

/-- The values the spec gives for the state after reset, and the default of the parameter (R40, R8). The registers R40 leaves
unspecified are not named here. -/
def Obligations.ResetStateHoldsTheSpecValues : Prop :=
  State.reset.rx.rxbuf = [] ∧ State.reset.rx.rxcnt = 0 ∧ State.reset.rx.drop = none ∧ State.reset.tx.chcnt = 0 ∧
  State.reset.tx.packacc = 0 ∧ State.reset.tx.packn = 0 ∧ State.reset.evValid = false ∧ State.reset.txValid = false ∧
  State.reset.txErr = false ∧ State.reset.rxReady true = false ∧ State.reset.rxReady false = true ∧
  State.reset.chReady true = false ∧ State.reset.chReady false = true ∧ State.reset.encCrcStart.index = 1

/-- R230: what RESET sets, from every state; events and TX bytes in progress are abandoned. The registers R40 leaves unspecified
are not named here. The parameter stays (R32); that the inputs stay too is the model's reading (log entry 22). -/
def Obligations.ResetClearsBothPaths : Prop :=
  ∀ s : State, ∃ t, exec .reset s = .next t ∧
    t.rx.rxbuf = [] ∧ t.rx.rxcnt = 0 ∧ t.rx.drop = none ∧ t.tx.chcnt = 0 ∧ t.tx.packacc = 0 ∧ t.tx.packn = 0 ∧
    t.rx.events = [] ∧ t.tx.out = [] ∧ t.evValid = false ∧ t.txValid = false ∧ t.txErr = false ∧
    t.encCrcStart = s.encCrcStart ∧ t.inputs = s.inputs

/-- R233: after RESET the first two bytes fed cause no event whatever their values; three bytes cause a discard or nothing; a
record needs a fourth; and an ENCODE needs 16 values, and sends what these values make, whatever was in the registers. -/
def Obligations.FirstBehaviourAfterReset : Prop :=
  ∀ s t : State, exec .reset s = .next t →
    (∀ chunk : List Byte, chunk.length ≤ 2 → exec (.feed (.chunk chunk)) t = .next (t.buffering chunk)) ∧
    (∀ a b c : Byte,
      exec (.feed (.chunk [a, b, c])) t = .next (t.emitting (.framingError 3 b)) ∨
      exec (.feed (.chunk [a, b, c])) t = .next (t.buffering [a, b, c])) ∧
    (∀ a ty : Byte, ∃ u, exec (.feed (.chunk [a, 2, ty, crc8 [ty]])) t = .next u ∧ u.rx.events.length = 1 ∧
      ∀ e ∈ u.rx.events, e.error ≠ some .checksumError ∧ e.error ≠ some .framingError) ∧
    (∀ vs : List Chan, ∃ u, exec (.encode (.values vs)) t = .next u ∧
      (u.tx.out ≠ [] ↔ vs.length = 16) ∧ (u.txErr = true ↔ vs.length ≠ 16) ∧
      ∀ ch : Vector Chan 16, ch.toList = vs → u.tx.out = txBeats (encodedFrame t.encCrcStart ch))

/-! ## DEFRAMER -/

/-- R102: with at most 2 bytes buffered the pass stops and nothing is checked; an illegal length byte sitting second in a
2-byte residue is acted on when a third byte arrives, in this FEED or a later one. -/
def Obligations.TwoBytesAreNotExamined : Prop :=
  ∀ (s : State) (chunk : List Byte), s.rx.drop = none →
    ((s.rx.rxbuf ++ chunk).length ≤ 2 →
      exec (.feed (.chunk chunk)) s = .next (s.buffering (s.rx.rxbuf ++ chunk))) ∧
    ∀ a b : Byte, s.rx.rxbuf = [a, b] → ¬ LegalLenByte b → chunk ≠ [] →
      exec (.feed (.chunk chunk)) s =
        .next ((s.buffering []).emitting (.framingError (2 + chunk.length) b))

/-- R103: SCAN_DISCARD empties the whole buffer and reports how much was lost and the offending length byte; nothing else
changes. -/
def Obligations.ScanDiscardLosesTheWholeBuffer : Prop :=
  ∀ s : State, 3 ≤ s.rx.rxbuf.length → ¬ LegalLenByte (s.rx.rxbuf.getD 1 0) →
    exec .scanDiscard s =
      .next ((s.buffering []).emitting (.framingError s.rx.rxbuf.length (s.rx.rxbuf.getD 1 0)))

/-- R104 and R201: SCAN_EMIT cuts the first `expected` bytes off as FRAME, validates, and then decodes it or reports the CRC
error; exactly one event results, and the rest of the buffer stays. -/
def Obligations.ScanEmitValidatesThenDecodes : Prop :=
  ∀ s : State, LegalLenByte (s.rx.rxbuf.getD 1 0) → (s.rx.rxbuf.getD 1 0).toNat + 2 ≤ s.rx.rxbuf.length →
    let n := (s.rx.rxbuf.getD 1 0).toNat + 2
    let frame := s.rx.rxbuf.take n
    let c := crc8 (coveredBytes frame)
    let cut (v : Bool) : State :=
      s.setRx ((((s.rx.setFrame (Memory.ofBytes frame)).setRxbuf (s.rx.rxbuf.drop n)).setCrcacc c).setValid v)
    LegalFrame frame ∧ frame.length = u8At frame 1 + 2 ∧
    (c = crcByteOf frame → exec .scanEmit s = exec (.decode frame) (cut true)) ∧
    (c ≠ crcByteOf frame → exec .scanEmit s = .next ((cut false).emitting (.crcError frame c))) ∧
    ∃ (v : Bool) (f : Vector Word32 10) (e : Event), e.Legal ∧ e.error ≠ some .framingError ∧
      exec .scanEmit s = .next (((cut v).withFields f).emitting e)

/-- R105: SCAN_WAIT stops the pass; nothing is emitted and the buffer keeps its bytes. That the pass over fewer than 3 bytes (R102)
runs under it, as the table's row says, and that a length class put to the block then changes nothing, is log entry 15. -/
def Obligations.ScanWaitChangesNothing : Prop :=
  (∀ s : State, Residue s.rx.rxbuf → exec .scanWait s = .next s) ∧
  ∀ (s : State) (b : Byte) (i : Instr), s.rx.rxbuf.length < 3 → decode (.lenByte b) = .ok i → exec i s = .next s

/-- R112: the conditions of the three arms are mutually exclusive and exhaustive: in every state exactly one arm runs, and the
other two stop by name. -/
def Obligations.ExactlyOneScanArmRuns : Prop :=
  ∀ s : State, ∃ a : ScanArm, (∃ t, exec (scanInstr a) s = .next t) ∧
    (∀ b : ScanArm, b ≠ a → exec (scanInstr b) s = .refused (.armNotSelected b)) ∧
    (a = .discard ↔ 3 ≤ s.rx.rxbuf.length ∧ ¬ LegalLenByte (s.rx.rxbuf.getD 1 0)) ∧
    (a = .emit ↔ 3 ≤ s.rx.rxbuf.length ∧ LegalLenByte (s.rx.rxbuf.getD 1 0) ∧
      (s.rx.rxbuf.getD 1 0).toNat + 2 ≤ s.rx.rxbuf.length) ∧
    (a = .wait ↔ s.rx.rxbuf.length < 3 ∨
      (LegalLenByte (s.rx.rxbuf.getD 1 0) ∧ s.rx.rxbuf.length < (s.rx.rxbuf.getD 1 0).toNat + 2))

/-- R72: the three classes of a length byte, as the deframer sees it at `RXBUF[1]` once at least 3 bytes are buffered, and
the effect of each. -/
def Obligations.LengthByteClassesAndEffects : Prop :=
  ∀ (s : State) (b : Byte), 3 ≤ s.rx.rxbuf.length → s.rx.rxbuf.getD 1 0 = b →
    (b.toNat ≤ 1 → decode (.lenByte b) = .ok (.lenTooShort b) ∧
      exec (.lenTooShort b) s = .next ((s.buffering []).emitting (.framingError s.rx.rxbuf.length b))) ∧
    (2 ≤ b.toNat → b.toNat ≤ 62 → decode (.lenByte b) = .ok (.lenLegal b) ∧
      (b.toNat + 2 ≤ s.rx.rxbuf.length →
        ∃ t, exec (.lenLegal b) s = .next t ∧ exec .scanEmit s = .next t) ∧
      (s.rx.rxbuf.length < b.toNat + 2 → exec (.lenLegal b) s = .next s)) ∧
    (63 ≤ b.toNat → decode (.lenByte b) = .ok (.lenTooLong b) ∧
      exec (.lenTooLong b) s = .next ((s.buffering []).emitting (.framingError s.rx.rxbuf.length b)))

/-- R101, the loop of FEED with DROP = 0, turn by turn: append, then stop, discard, emit and scan on, or wait. -/
def Obligations.FeedRunsTheScanLoop : Prop :=
  ∀ (s : State) (chunk : List Byte), s.rx.drop = none →
    let buf := s.rx.rxbuf ++ chunk
    (buf.length ≤ 2 → exec (.feed (.chunk chunk)) s = .next (s.buffering buf)) ∧
    (3 ≤ buf.length → ¬ LegalLenByte (buf.getD 1 0) →
      exec (.feed (.chunk chunk)) s = exec .scanDiscard (s.buffering buf)) ∧
    (3 ≤ buf.length → LegalLenByte (buf.getD 1 0) → (buf.getD 1 0).toNat + 2 ≤ buf.length →
      exec (.feed (.chunk chunk)) s = andThen (exec .scanEmit (s.buffering buf)) (exec (.feed (.chunk [])))) ∧
    (3 ≤ buf.length → LegalLenByte (buf.getD 1 0) → buf.length < (buf.getD 1 0).toNat + 2 →
      exec (.feed (.chunk chunk)) s = exec .scanWait (s.buffering buf))

/-- R106 and R22: a FEED completes from every state with DROP = 0; at most `n / 4` frame events and at most one framing event,
which is the last, with the buffer empty after it; the residue is as R22 says; the TX path and the rest are untouched. The count
RXCNT and the frame buffer FB show the residue (R24, R37). -/
def Obligations.FeedCompletesWithinBounds : Prop :=
  ∀ (s : State) (chunk : List Byte), s.rx.drop = none →
    ∃ (r : RxState) (es last : List Event), exec (.feed (.chunk chunk)) s = .next (s.setRx r) ∧
      Residue r.rxbuf ∧ r.drop = none ∧ r.events = s.rx.events ++ es ++ last ∧
      r.rxcnt.toNat = r.rxbuf.length ∧ (∀ k, k < r.rxbuf.length → some ((s.setRx r).fb k) = r.rxbuf[k]?) ∧
      (∀ e ∈ es, e.error ≠ some .framingError) ∧ (∀ e ∈ es ++ last, e.Legal) ∧
      4 * es.length + r.rxbuf.length ≤ s.rx.rxbuf.length + chunk.length ∧
      (last = [] ∨ ∃ n b, last = [.framingError n b] ∧ r.rxbuf = [])

/-- The streaming form of R108, one byte: count and drop, or store, and examine the head at the third byte: discard, cut the
frame, or go on; and at the end of the chunk report a discard in progress. A whole chunk put while a discard is in progress is
the rest of that chunk: counted and dropped (log entry 12). -/
def Obligations.StreamingFormByteByByte : Prop :=
  (∀ (s : State) (b : Byte),
    (∀ d, s.rx.drop = some d →
      exec (.feed (.beat b false)) s = .next (s.setRx (s.rx.setDrop (some ⟨d.ndisc + 1, d.lenb⟩)))) ∧
    (s.rx.drop = none →
      let buf := s.rx.rxbuf ++ [b]
      let n := (buf.getD 1 0).toNat + 2
      (buf.length ≤ 2 → exec (.feed (.beat b false)) s = .next (s.buffering buf)) ∧
      (3 ≤ buf.length → ¬ LegalLenByte (buf.getD 1 0) →
        exec (.feed (.beat b false)) s =
          .next (s.setRx ((s.rx.setRxbuf []).setDrop (some ⟨buf.length, buf.getD 1 0⟩)))) ∧
      (3 ≤ buf.length → LegalLenByte (buf.getD 1 0) → buf.length = n →
        exec (.feed (.beat b false)) s = exec .scanEmit (s.buffering buf)) ∧
      (3 ≤ buf.length → LegalLenByte (buf.getD 1 0) → buf.length < n →
        exec (.feed (.beat b false)) s = .next (s.buffering buf))) ∧
    exec (.feed (.beat b true)) s =
      andThen (exec (.feed (.beat b false)) s) fun t =>
        match t.rx.drop with
        | none => .next t
        | some d => .next ((t.setRx (t.rx.setDrop none)).emitting (.framingError d.ndisc d.lenb))) ∧
  ∀ (s : State) (chunk : List Byte) (d : Discard), s.rx.drop = some d →
    exec (.feed (.chunk chunk)) s =
      .next ((s.setRx (s.rx.setDrop none)).emitting (.framingError (d.ndisc + chunk.length) d.lenb))

/-- R108: taken one byte at a time, a chunk gives the same result as R101 gives, for every chunk and every starting residue:
the same state, events and buffer. -/
def Obligations.StreamingFormEqualsFeed : Prop :=
  ∀ (s : State) (chunk : List Byte), s.rx.drop = none → Residue s.rx.rxbuf → chunk ≠ [] →
    ∃ t, feedBeats chunk s = .next t ∧ exec (.feed (.chunk chunk)) s = .next t

/-- R109: without a discard the chunking does not matter: the frames cut, their order and the final residue are the same for
every way of splitting the same bytes into chunks. -/
def Obligations.ChunkingIsIrrelevantWithoutDiscard : Prop :=
  ∀ (s : State) (chunks : List (List Byte)), s.rx.drop = none → Residue s.rx.rxbuf →
    ∀ t, (∀ e ∈ t.rx.events.drop s.rx.events.length, e.error ≠ some .framingError) →
      (feedChunks chunks s = .next t ↔ exec (.feed (.chunk chunks.flatten)) s = .next t)

/-- R110, byte by byte: one frame's bytes, one per call, give exactly one event, when the last byte arrives, and none before;
and the result is that of the frame as one chunk. -/
def Obligations.ByteByByteGivesOneFrame : Prop :=
  ∀ (s : State) (frame : List Byte), s.rx.drop = none → s.rx.rxbuf = [] → LegalFrame frame →
    frame.length = u8At frame 1 + 2 →
    (∀ k, k < frame.length →
      feedChunks ((frame.take k).map fun b => [b]) s = .next (s.buffering (frame.take k))) ∧
    ∃ t e, feedChunks (frame.map fun b => [b]) s = .next t ∧ exec (.feed (.chunk frame)) s = .next t ∧
      t.rx.events = s.rx.events ++ [e] ∧ t.rx.rxbuf = []

/-- R110, corruption recovery: a length byte of 200 causes a full discard, and an independently well-formed frame fed
afterward is still decoded correctly. -/
def Obligations.DiscardThenNextFrameDecodes : Prop :=
  ∀ (s : State) (chunk frame : List Byte), s.rx.drop = none → s.rx.rxbuf = [] → 3 ≤ chunk.length → chunk.getD 1 0 = 200 →
    LegalFrame frame → frame.length = u8At frame 1 + 2 → crc8 (coveredBytes frame) = crcByteOf frame →
    exec (.feed (.chunk chunk)) s = .next (s.emitting (.framingError chunk.length 200)) ∧
    ∃ t, feedChunks [chunk, frame] s = .next t ∧ t.rx.rxbuf = [] ∧
      exec (.decode frame)
        (s.setRx ((((s.rx.emit (.framingError chunk.length 200)).setCrcacc (crcByteOf frame)).setValid true))) = .next t

/-- R235: one stray byte in front of a standard frame always discards, as soon as the buffer holds 3 bytes. -/
def Obligations.StrayByteDiscardsTheFrame : Prop :=
  ∀ (s : State) (stray len : Byte) (rest : List Byte), s.rx.drop = none → s.rx.rxbuf = [] →
    exec (.feed (.chunk (stray :: 0xC8 :: len :: rest))) s = .next (s.emitting (.framingError (3 + rest.length) 0xC8)) ∧
    feedChunks [[stray], [0xC8], [len]] s = .next (s.emitting (.framingError 3 0xC8))

/-! ## CRCV -/

/-- R121: one shift step on the running CRC; the rest of the state stays. That it acts on the unit its operand names is the model's
choice (log entry 13). -/
def Obligations.CrcBitShiftsAndReduces : Prop :=
  ∀ (u : CrcUnit) (s : State), ∃ v : Byte, exec (.crc8Bit u) s = .next (s.withCrc u v) ∧
    v.toNat = if 128 ≤ (s.crcOf u).toNat then (2 * (s.crcOf u).toNat ^^^ 0xD5) % 256 else 2 * (s.crcOf u).toNat

/-- R122: the byte enters by exclusive-or, then eight CRC8_BIT steps. That it enters so is the spec's general knowledge (G1, log
entry 16). -/
def Obligations.CrcByteIsEightBitSteps : Prop :=
  ∀ (u : CrcUnit) (b : Byte) (s : State), ∃ t, exec (.crc8Byte u b) s = .next t ∧
    execAll (List.replicate 8 (.crc8Bit u)) (s.withCrc u (s.crcOf u ^^^ b)) = .next t ∧ t = s.withCrc u (t.crcOf u)

/-- R123: from the seed 0x00 the bytes are taken in index order, one CRC8_BYTE each, whatever the unit held before. That it runs in
the unit its operand names and leaves its result there is the model's choice (log entry 13). -/
def Obligations.CrcOfASequenceFoldsItsBytes : Prop :=
  ∀ (u : CrcUnit) (bytes : List Byte) (s : State), ∃ t, exec (.crc8 u bytes) s = .next t ∧
    execAll (bytes.map (.crc8Byte u)) (s.withCrc u 0x00) = .next t ∧ t = s.withCrc u (t.crcOf u)

/-- R124, which the spec derives: the laws of CRC8: linearity, leading zeros are invisible, appending the CRC gives zero, and the table of one byte. -/
def Obligations.CrcLinearZeroAppendTable : Prop :=
  (∀ s t : List Byte, s.length = t.length → crc8 (List.zipWith (· ^^^ ·) s t) = crc8 s ^^^ crc8 t) ∧
  (∀ (n : Nat) (s : List Byte), crc8 (0x00 :: s) = crc8 s ∧ crc8 (List.replicate n 0x00) = 0x00) ∧
  (∀ s : List Byte, crc8 (s ++ [crc8 s]) = 0x00) ∧
  (∀ b c : Byte, crc8 [b] = crcTable.getD b.toNat 0 ∧ crc8Byte c b = crc8 [c ^^^ b])

/-- R125: VALIDATE compares the CRC of `FRAME[2 .. L-1)` with `FRAME[L-1]`; the sync and length bytes take no part; outside 4
to 64 bytes it is refused; nothing but the snapshot, the running CRC and the result bit changes. -/
def Obligations.ValidateComparesTheCrc : Prop :=
  ∀ (s : State) (frame : List Byte),
    (LegalFrame frame →
      exec (.validate frame) s =
        .next (s.setRx (((s.rx.setFrame (Memory.ofBytes frame)).setCrcacc (crc8 (coveredBytes frame))).setValid
          (decide (crc8 (coveredBytes frame) = crcByteOf frame)))) ∧
      ∀ sync len t u, exec (.validate frame) s = .next t → exec (.validate ((frame.set 0 sync).set 1 len)) s = .next u →
        u.rx.valid = t.rx.valid) ∧
    (¬ LegalFrame frame → exec (.validate frame) s = .refused (.frameLength frame.length))

/-! ## UNPACK -/

/-- R53 and R12: MemRead of the candidate frame is big-endian, with no alignment. A read that ends beyond the frame, which R12
excludes, faults at the first byte that is not there: the model's choice (log entry 8). -/
def Obligations.MemReadIsBigEndian : Prop :=
  ∀ (frame : List Byte) (a : Nat),
    (a < frame.length → ∃ v, memRead1 (Memory.ofBytes frame) a = .next v ∧ v.toNat = u8At frame a) ∧
    (a + 2 ≤ frame.length → ∃ v, memRead2 (Memory.ofBytes frame) a = .next v ∧
      v.toNat = u8At frame a * 256 + u8At frame (a + 1)) ∧
    (a + 4 ≤ frame.length → ∃ v, memRead4 (Memory.ofBytes frame) a = .next v ∧
      v.toNat = u8At frame a * 16777216 + u8At frame (a + 1) * 65536 + u8At frame (a + 2) * 256 + u8At frame (a + 3)) ∧
    (frame.length < a + 1 → memRead1 (Memory.ofBytes frame) a = .fault (.frameAddress a)) ∧
    (frame.length < a + 2 → memRead2 (Memory.ofBytes frame) a = .fault (.frameAddress (max a frame.length))) ∧
    (frame.length < a + 4 → memRead4 (Memory.ofBytes frame) a = .fault (.frameAddress (max a frame.length)))

/-- R140: the dispatch of DECODE on the type byte, with the length guard of the seven structured types. -/
def Obligations.DecodeDispatchesOnTheType : Prop :=
  ∀ (s : State) (frame : List Byte), LegalFrame frame →
    let t := typeByte frame
    let guard (lMin : Nat) (row : Instr) : Prop :=
      exec (.decode frame) s = if lMin ≤ frame.length then exec row s else exec (.decTruncated frame) s
    (t = 0x14 → guard 14 (.decLinkStatistics frame)) ∧ (t = 0x1E → guard 10 (.decAttitude frame)) ∧
    (t = 0x21 → guard 5 (.decFlightMode frame)) ∧ (t = 0x08 → guard 12 (.decBatterySensor frame)) ∧
    (t = 0x09 → guard 8 (.decBaroAlt frame)) ∧ (t = 0x02 → guard 19 (.decGps frame)) ∧
    (t = 0x07 → guard 6 (.decVario frame)) ∧
    (t = 0x29 → exec (.decode frame) s = exec (.decDeviceInfo frame) s) ∧
    (t = 0x16 → exec (.decode frame) s = exec (.decRcChannelsPacked frame) s) ∧
    (t = 0x0B → exec (.decode frame) s = exec (.decHeartbeat frame) s) ∧
    (t = 0x0F → exec (.decode frame) s = exec (.decVideoTransmitter frame) s) ∧
    (t = 0x2C → exec (.decode frame) s = exec (.decConfigRead frame) s) ∧
    (t = 0x2D → exec (.decode frame) s = exec (.decConfigWrite frame) s) ∧
    (t = 0x3A → exec (.decode frame) s = exec (.decRadioId frame) s) ∧
    (t ∉ packetTypes → exec (.decode frame) s = exec (.decUnknown frame) s) ∧
    ∃ i u, decode (.frame frame) = .ok i ∧ exec i s = .next u ∧ exec (.decode frame) s = .next u ∧
      u.rx.rxbuf = s.rx.rxbuf ∧ ∃ e, u.rx.events = s.rx.events ++ [e]

/-- R166: DECODE is total and emits exactly one event; that event is a function of the frame alone, its kind one of the type
byte and the length alone; with another sync byte only the event's copy of the frame differs. -/
def Obligations.DecodeIsTotalAndIgnoresSync : Prop :=
  ∀ frame : List Byte, LegalFrame frame →
    ∃ e : Event, e.Legal ∧
      (∀ s : State, ∃ f, exec (.decode frame) s = .next (((s.framed frame).withFields f).emitting e) ∧
        ∀ sync : Byte, exec (.decode (withSync sync frame)) s =
          .next (((s.framed (withSync sync frame)).withFields f).emitting (e.resync sync))) ∧
      ∀ frame' : List Byte, frame'.length = frame.length → typeByte frame' = typeByte frame →
        ∀ s t, exec (.decode frame') s = .next t → ∃ e', t.rx.events = s.rx.events ++ [e'] ∧ e'.kind = e.kind

/-- R144: `update` is 1 on the seven structured cases and 0 on every Raw record; it is 1 exactly where the type has a layout
and the frame reaches its minimum length. -/
def Obligations.UpdateBitMarksStructured : Prop :=
  ∀ (s : State) (frame : List Byte), LegalFrame frame →
    ∃ t e, exec (.decode frame) s = .next t ∧ t.rx.events = s.rx.events ++ [e] ∧
      (e.pins.update = true ↔ ∃ p ∈ structuredTypes, typeByte frame = p.1 ∧ p.2 ≤ frame.length) ∧
      (e.pins.update = false ↔ e.kind = 0x8 ∨ e.kind = 0x9)

/-- R150: DEC_LINK_STATISTICS, all ten fields. -/
def Obligations.LinkStatisticsFields : Prop :=
  ∀ (s : State) (frame : List Byte), LegalFrame frame → typeByte frame = 0x14 → 14 ≤ frame.length →
    ∃ f : Vector Word32 10,
      exec (.decLinkStatistics frame) s = .next (((s.framed frame).withFields f).emitting
        (.record (.linkStats f[0] f[1] f[2] f[3] f[4] f[5] f[6] f[7] f[8] f[9]) true frame)) ∧
      f[0].toInt = s8At frame 3 ∧ f[1].toInt = s8At frame 4 ∧ f[2].toInt = u8At frame 5 ∧ f[3].toInt = s8At frame 6 ∧
      f[4].toInt = u8At frame 7 ∧ f[5].toInt = u8At frame 8 ∧ f[6].toInt = u8At frame 9 ∧ f[7].toInt = s8At frame 10 ∧
      f[8].toInt = u8At frame 11 ∧ f[9].toInt = s8At frame 12

/-- R151: DEC_ATTITUDE. That `F[3..9]`, which the record does not use, keep their contents is the model's choice (U1, log
entry 28). -/
def Obligations.AttitudeFields : Prop :=
  ∀ (s : State) (frame : List Byte), LegalFrame frame → typeByte frame = 0x1E → 10 ≤ frame.length →
    ∃ f : Vector Word32 10,
      exec (.decAttitude frame) s = .next (((s.framed frame).withFields f).emitting
        (.record (.attitude ⟨f[0]⟩ ⟨f[1]⟩ ⟨f[2]⟩) true frame)) ∧
      f[0].toInt = s16At frame 3 ∧ f[1].toInt = s16At frame 5 ∧ f[2].toInt = s16At frame 7 ∧
      (Scaled.mk f[0] : Scaled 10000).value = (s16At frame 3 : Rat) / 10000 ∧
      (Scaled.mk f[1] : Scaled 10000).value = (s16At frame 5 : Rat) / 10000 ∧
      (Scaled.mk f[2] : Scaled 10000).value = (s16At frame 7 : Rat) / 10000 ∧
      ∀ i : Fin 10, 3 ≤ i.val → f[i] = s.rx.f[i]

/-- R152: DEC_FLIGHT_MODE: the name is the slice, unchanged, and no field register is written. -/
def Obligations.FlightModeName : Prop :=
  ∀ (s : State) (frame : List Byte), LegalFrame frame → typeByte frame = 0x21 → 5 ≤ frame.length →
    ∃ name : List Byte,
      exec (.decFlightMode frame) s = .next ((s.framed frame).emitting (.record (.flightMode name) true frame)) ∧
      name.length = frame.length - 5 ∧ ∀ i, i < name.length → name[i]? = frame[3 + i]?

/-- R153: DEC_BATTERY_SENSOR; the middle shift of `mah` is 7, so its two low bytes overlap at bit 7. That
`F[4..9]` keep their contents is the model's choice (U1, log entry 28). -/
def Obligations.BatteryFields : Prop :=
  ∀ (s : State) (frame : List Byte), LegalFrame frame → typeByte frame = 0x08 → 12 ≤ frame.length →
    ∃ f : Vector Word32 10,
      exec (.decBatterySensor frame) s = .next (((s.framed frame).withFields f).emitting
        (.record (.battery ⟨f[0]⟩ ⟨f[1]⟩ f[2] f[3]) true frame)) ∧
      f[0].toInt = s16At frame 3 ∧ f[1].toInt = s16At frame 5 ∧
      f[2].toNat = u8At frame 7 <<< 16 ||| u8At frame 8 <<< 7 ||| u8At frame 9 ∧ f[3].toInt = u8At frame 10 ∧
      f[2].toNat ≤ 0xFF7FFF ∧ f[2].getLsbD 15 = false ∧
      (Scaled.mk f[0] : Scaled 10).value = (s16At frame 3 : Rat) / 10 ∧
      (Scaled.mk f[1] : Scaled 10).value = (s16At frame 5 : Rat) / 10 ∧
      ∀ i : Fin 10, 4 ≤ i.val → f[i] = s.rx.f[i]

/-- R155: DEC_BARO_ALT. That `F[1..9]` keep their contents is the model's choice (U1, log entry 28). -/
def Obligations.BaroAltField : Prop :=
  ∀ (s : State) (frame : List Byte), LegalFrame frame → typeByte frame = 0x09 → 8 ≤ frame.length →
    ∃ f : Vector Word32 10,
      exec (.decBaroAlt frame) s = .next (((s.framed frame).withFields f).emitting (.record (.baroAlt ⟨f[0]⟩) true frame)) ∧
      f[0].toInt = s32At frame 3 ∧ (Scaled.mk f[0] : Scaled 100).value = (s32At frame 3 : Rat) / 100 ∧
      ∀ i : Fin 10, 1 ≤ i.val → f[i] = s.rx.f[i]

/-- R156: DEC_GPS; the altitude is the raw value less 1000, from -33768 to 31767. That `F[6..9]` keep
their contents is the model's choice (U1, log entry 28). -/
def Obligations.GpsFields : Prop :=
  ∀ (s : State) (frame : List Byte), LegalFrame frame → typeByte frame = 0x02 → 19 ≤ frame.length →
    ∃ f : Vector Word32 10,
      exec (.decGps frame) s = .next (((s.framed frame).withFields f).emitting
        (.record (.gps ⟨f[0]⟩ ⟨f[1]⟩ ⟨f[2]⟩ ⟨f[3]⟩ f[4] f[5]) true frame)) ∧
      f[0].toInt = s32At frame 3 ∧ f[1].toInt = s32At frame 7 ∧ f[2].toInt = s16At frame 11 ∧ f[3].toInt = s16At frame 13 ∧
      f[4].toInt = s16At frame 15 - 1000 ∧ -33768 ≤ f[4].toInt ∧ f[4].toInt ≤ 31767 ∧ f[5].toInt = u8At frame 17 ∧
      (Scaled.mk f[0] : Scaled 10000000).value = (s32At frame 3 : Rat) / 10000000 ∧
      (Scaled.mk f[1] : Scaled 10000000).value = (s32At frame 7 : Rat) / 10000000 ∧
      (Scaled.mk f[2] : Scaled 36).value = (s16At frame 11 : Rat) / 36 ∧
      (Scaled.mk f[3] : Scaled 100).value = (s16At frame 13 : Rat) / 100 ∧
      ∀ i : Fin 10, 6 ≤ i.val → f[i] = s.rx.f[i]

/-- R157: DEC_VARIO. That `F[1..9]` keep their contents is the model's choice (U1, log entry 28). -/
def Obligations.VarioField : Prop :=
  ∀ (s : State) (frame : List Byte), LegalFrame frame → typeByte frame = 0x07 → 6 ≤ frame.length →
    ∃ f : Vector Word32 10,
      exec (.decVario frame) s = .next (((s.framed frame).withFields f).emitting (.record (.vario ⟨f[0]⟩) true frame)) ∧
      f[0].toInt = s16At frame 3 ∧ (Scaled.mk f[0] : Scaled 10).value = (s16At frame 3 : Rat) / 10 ∧
      ∀ i : Fin 10, 1 ≤ i.val → f[i] = s.rx.f[i]

/-- R158 to R165: the types without fields. DEVICE_INFO gives a Raw record without error; RC_CHANNELS_PACKED the no-op; the
unknown types a Raw record with `known` = 0 and the five named types without a layout one with `known` = 1, both of cause
UnrecognizedPacketType; of any length, with no field register written. -/
def Obligations.FieldlessTypesGiveRawOrNoop : Prop :=
  ∀ (s : State) (frame : List Byte), LegalFrame frame →
    (typeByte frame = 0x29 →
      exec (.decDeviceInfo frame) s = .next ((s.framed frame).emitting (rawEvent true .none frame))) ∧
    (typeByte frame = 0x16 →
      exec (.decRcChannelsPacked frame) s = .next ((s.framed frame).emitting (.noop frame))) ∧
    (typeByte frame ∉ packetTypes →
      exec (.decUnknown frame) s = .next ((s.framed frame).emitting (rawEvent false .unrecognizedPacketType frame))) ∧
    (typeByte frame = 0x0B →
      exec (.decHeartbeat frame) s = .next ((s.framed frame).emitting (rawEvent true .unrecognizedPacketType frame))) ∧
    (typeByte frame = 0x0F →
      exec (.decVideoTransmitter frame) s = .next ((s.framed frame).emitting (rawEvent true .unrecognizedPacketType frame))) ∧
    (typeByte frame = 0x2C →
      exec (.decConfigRead frame) s = .next ((s.framed frame).emitting (rawEvent true .unrecognizedPacketType frame))) ∧
    (typeByte frame = 0x2D →
      exec (.decConfigWrite frame) s = .next ((s.framed frame).emitting (rawEvent true .unrecognizedPacketType frame))) ∧
    (typeByte frame = 0x3A →
      exec (.decRadioId frame) s = .next ((s.framed frame).emitting (rawEvent true .unrecognizedPacketType frame)))

/-- R143: a frame of a structured type below that type's minimum length gives the Raw record of cause TruncatedPayload, and no
field register is written. -/
def Obligations.TruncatedFrameGivesRaw : Prop :=
  ∀ (s : State) (frame : List Byte), LegalFrame frame →
    ∀ p ∈ structuredTypes, typeByte frame = p.1 → frame.length < p.2 →
      exec (.decTruncated frame) s = .next ((s.framed frame).emitting (rawEvent true .truncatedPayload frame))

/-- Where the operand lies outside the operation's domain it stops by name: a frame outside 4 to 64 bytes (U5, U6), a frame of
another type for a DEC_* row, a frame long enough for DEC_TRUNCATED, a length byte of another class or not the one at the
head; but the row of a structured type on a frame too short for it does what DEC_TRUNCATED does (log entries 14, 15 and
21). -/
def Obligations.StopsOutsideTheOperandDomain : Prop :=
  (∀ (s : State) (frame : List Byte), ¬ LegalFrame frame → ∀ mk ∈ frameInstrs,
    exec (mk frame) s = .refused (.frameLength frame.length)) ∧
  (∀ (s : State) (frame : List Byte), LegalFrame frame →
    (∀ p ∈ typedInstrs, typeByte frame ≠ p.1 → exec (p.2 frame) s = .refused (.typeByte (typeByte frame))) ∧
    (typeByte frame ∈ packetTypes → exec (.decUnknown frame) s = .refused (.typeByte (typeByte frame))) ∧
    ((∀ p ∈ structuredTypes, typeByte frame ≠ p.1) →
      exec (.decTruncated frame) s = .refused (.typeByte (typeByte frame))) ∧
    (∀ p ∈ structuredTypes, typeByte frame = p.1 → p.2 ≤ frame.length →
      exec (.decTruncated frame) s = .refused (.notTruncated frame.length)) ∧
    (∀ p ∈ structuredTypes, typeByte frame = p.1 → frame.length < p.2 → ∀ q ∈ typedInstrs, q.1 = p.1 →
      exec (q.2 frame) s = exec (.decTruncated frame) s)) ∧
  (∀ (s : State) (b : Byte),
    (2 ≤ b.toNat → exec (.lenTooShort b) s = .refused (.lengthClass b)) ∧
    (¬ LegalLenByte b → exec (.lenLegal b) s = .refused (.lengthClass b)) ∧
    (b.toNat ≤ 62 → exec (.lenTooLong b) s = .refused (.lengthClass b)) ∧
    (3 ≤ s.rx.rxbuf.length → s.rx.rxbuf.getD 1 0 ≠ b → ∀ i, decode (.lenByte b) = .ok i →
      exec i s = .refused (.lengthByteNotAtHead b)))

/-! ## PACK -/

/-- R181: CH_LOAD stores the first sixteen values in index order and counts to 17. -/
def Obligations.ChLoadStoresAndCounts : Prop :=
  ∀ (s : State) (v : Chan),
    (∀ h : s.tx.chcnt.toNat < 16, exec (.chLoad v) s =
      .next (s.setTx ((s.tx.setCh (s.tx.ch.set s.tx.chcnt.toNat v h)).setChcnt (s.tx.chcnt + 1)))) ∧
    (s.tx.chcnt.toNat = 16 → exec (.chLoad v) s = .next (s.setTx (s.tx.setChcnt 17))) ∧
    (17 ≤ s.tx.chcnt.toNat → exec (.chLoad v) s = .next s)

/-- R183 and R184: PACK, the accumulator form, leaves nothing pending and computes the closed form: `PK[k] = P[8*k+7 : 8*k]`;
nothing else changes. -/
def Obligations.PackComputesTheClosedForm : Prop :=
  ∀ s : State, ∃ pk : Vector Byte 22, exec .pack s = .next (s.setTx (s.tx.setPacker 0 0 pk)) ∧
    ∀ k : Fin 22, pk[k].toNat = packedNumber s.tx.ch / 2 ^ (8 * k.val) % 256

/-- R55 and R83: in the packed payload, read as one little-endian number, channel `i` has bits `11*i` to `11*i + 10`. -/
def Obligations.PackedBitPositions : Prop :=
  ∀ s : State, ∃ t, exec .pack s = .next t ∧
    ∀ (i : Fin 16) (j : Fin 11) (k : Fin 22), k.val = (11 * i.val + j.val) / 8 →
      t.tx.pk[k].getLsbD ((11 * i.val + j.val) % 8) = s.tx.ch[i].getLsbD j.val

/-- R183 and R189: PACK is injective: two states in which it leaves the same bytes held the same channels; and so is ENCODE: the
same beats sent from two empty sets, whatever the parameter, come from the same values. -/
def Obligations.PackingIsInjective : Prop :=
  (∀ s s' t t' : State, exec .pack s = .next t → exec .pack s' = .next t' → t.tx.pk = t'.tx.pk → s.tx.ch = s'.tx.ch) ∧
  ∀ (s s' t t' : State) (vs vs' : List Chan) (sent : List TxBeat), s.tx.chcnt = 0 → s'.tx.chcnt = 0 →
    exec (.encode (.values vs)) s = .next t → exec (.encode (.values vs')) s' = .next t' →
    sent ≠ [] → t.tx.out = s.tx.out ++ sent → t'.tx.out = s'.tx.out ++ sent → vs = vs'

/-- R186 and R187: after an ENCODE of 16 values `TXF` holds the header, the packed bytes and the CRC of `TXF[ENC_CRC_START ..
25)`, and no other address of `TXF` is written. -/
def Obligations.EncodeWritesTheFrame : Prop :=
  ∀ (s : State) (ch : Vector Chan 16), s.tx.chcnt = 0 →
    ∃ t, exec (.encode (.values ch.toList)) s = .next t ∧
      t.tx.txf.read 0 = some 0xC8 ∧ t.tx.txf.read 1 = some 24 ∧ t.tx.txf.read 2 = some 0x16 ∧
      (∀ k, k < 22 → t.tx.txf.read (3 + k) = some (BitVec.ofNat 8 (packedNumber ch / 2 ^ (8 * k)))) ∧
      (∃ covered, txfSlice t.tx.txf s.encCrcStart.index (25 - s.encCrcStart.index) = .next covered ∧
        t.tx.txf.read 25 = some (crc8 covered)) ∧
      ∀ a, 26 ≤ a → t.tx.txf.read a = s.tx.txf.read a

/-- R188: an ENCODE of 16 values from an empty set sends the 26 bytes of the frame, in order, `tx_last` on the last, holds them in
`TXF`, and leaves the count at 0 and nothing in the packer; the frame is a function of the values alone; RX is untouched. On any other number of
values only the error results, the pulse `tx_err` with the number saturated at 17 (and the channel registers already loaded, log
entry 10). -/
def Obligations.EncodeSendsTheFrame : Prop :=
  (∀ (s : State) (vs : List Chan), s.tx.chcnt = 0 → vs.length ≠ 16 → ∃ ch, exec (.encode (.values vs)) s =
    .next (s.setTx (((s.tx.setCh ch).setChcnt 0).raise (BitVec.ofNat 5 (min vs.length 17))))) ∧
  ∀ (s : State) (ch : Vector Chan 16), s.tx.chcnt = 0 →
    ∃ t : TxState, exec (.encode (.values ch.toList)) s = .next (s.setTx t) ∧
      t.out = s.tx.out ++ txBeats (encodedFrame s.encCrcStart ch) ∧ (encodedFrame s.encCrcStart ch).length = 26 ∧
      t.ch = ch ∧ t.chcnt = 0 ∧ t.packacc = 0 ∧ t.packn = 0 ∧ t.pk.toList = packedBytes ch ∧
      t.crcacc = crcByteOf (encodedFrame s.encCrcStart ch) ∧
      t.err = none ∧ ∀ a, a < 26 → t.txf.read a = (encodedFrame s.encCrcStart ch)[a]?

/-- R182: the count check at the commit. The beat with `ch_last` counts itself first: with fifteen values loaded it sends the
frame of all sixteen. On every other count nothing is sent and `TXF` is not written: the only effects are the pulse `tx_err` with
the count, saturated at 17, the cleared count, and the channel registers already loaded (log entry 10). An empty list raises
InvalidChannelCount(0). -/
def Obligations.CommitChecksTheCount : Prop :=
  (∀ (s : State) (v : Chan), s.tx.chcnt = 15 → ∃ t : TxState, exec (.encode (.lastBeat v)) s = .next (s.setTx t) ∧
    t.out = s.tx.out ++ txBeats (encodedFrame s.encCrcStart (s.tx.ch.set 15 v)) ∧ t.chcnt = 0 ∧ t.ch = s.tx.ch.set 15 v ∧
    t.err = none ∧ ∀ a, a < 26 → t.txf.read a = (encodedFrame s.encCrcStart (s.tx.ch.set 15 v))[a]?) ∧
  (∀ (s : State) (v : Chan), s.tx.chcnt ≠ 15 → s.tx.chcnt.toNat ≤ 17 → ∃ ch, exec (.encode (.lastBeat v)) s =
    .next (s.setTx (((s.tx.setCh ch).setChcnt 0).raise (BitVec.ofNat 5 (min (s.tx.chcnt.toNat + 1) 17))))) ∧
  (∀ s : State, s.tx.chcnt = 0 → exec (.encode (.values [])) s = .next (s.setTx (s.tx.raise 0)))

/-- R85 and R39: one ENCODE transaction is its values one by one, the last with `ch_last`, also where the set already holds
values (log entry 11). -/
def Obligations.EncodeIsLoadsThenCommit : Prop :=
  ∀ (s : State) (vs : List Chan) (v : Chan),
    ∃ t, execAll (vs.map .chLoad ++ [.encode (.lastBeat v)]) s = .next t ∧
      exec (.encode (.values (vs ++ [v]))) s = .next t

/-- R190: an encoded frame against the block's own validator: the CRC byte is the validator's value, exclusive-or 0x81 where
ENC_CRC_START is 1; so the frame validates exactly where ENC_CRC_START is 2; and fed back from an empty buffer it gives the
CRC error or the no-op. -/
def Obligations.EncodedFrameAgainstTheValidator : Prop :=
  ∀ (s : State) (start : EncCrcStart) (ch : Vector Chan 16), s.rx.drop = none → s.rx.rxbuf = [] →
    let frame := encodedFrame start ch
    crcByteOf frame = crc8 (coveredBytes frame) ^^^ (if start = .lengthByte then 0x81 else 0x00) ∧
    (∃ t, exec (.validate frame) s = .next t ∧ (t.rx.valid = true ↔ start = .typeByte)) ∧
    ∃ t, exec (.feed (.chunk frame)) s = .next t ∧ t.rx.rxbuf = [] ∧
      t.rx.events = s.rx.events ++
        [if start = .lengthByte then .crcError frame (crc8 (coveredBytes frame)) else .noop frame]

/-! ## The whole machine -/

/-- R204, R200: the pin form of every event, row by row of R204's table: the code of each kind, its cause, `ev_update`, `ev_known`,
the slots of each record and the pins each row lists, every other pin without a value; codes outside the table are never
produced (U15). -/
def Obligations.EventPinForm : Prop :=
  (∀ (u : Bool) (frame : List Byte) (a b c d e f g h i j : Word32),
    (Record.linkStats a b c d e f g h i j).update = true ∧
    (Event.record (.linkStats a b c d e f g h i j) u frame).pins =
      pinRow 0x1 0 u none none frame [a, b, c, d, e, f, g, h, i, j]) ∧
  (∀ (u : Bool) (frame : List Byte) (pitch roll yaw : Word32),
    (Record.attitude ⟨pitch⟩ ⟨roll⟩ ⟨yaw⟩).update = true ∧
    (Event.record (.attitude ⟨pitch⟩ ⟨roll⟩ ⟨yaw⟩) u frame).pins = pinRow 0x2 0 u none none frame [pitch, roll, yaw]) ∧
  (∀ (u : Bool) (frame name : List Byte),
    (Record.flightMode name).update = true ∧
    (Event.record (.flightMode name) u frame).pins = pinRow 0x3 0 u none none frame []) ∧
  (∀ (u : Bool) (frame : List Byte) (vbat curr mah pct : Word32),
    (Record.battery ⟨vbat⟩ ⟨curr⟩ mah pct).update = true ∧
    (Event.record (.battery ⟨vbat⟩ ⟨curr⟩ mah pct) u frame).pins = pinRow 0x4 0 u none none frame [vbat, curr, mah, pct]) ∧
  (∀ (u : Bool) (frame : List Byte) (altitude : Word32),
    (Record.baroAlt ⟨altitude⟩).update = true ∧
    (Event.record (.baroAlt ⟨altitude⟩) u frame).pins = pinRow 0x5 0 u none none frame [altitude]) ∧
  (∀ (u : Bool) (frame : List Byte) (lat lon speed heading altitude satellites : Word32),
    (Record.gps ⟨lat⟩ ⟨lon⟩ ⟨speed⟩ ⟨heading⟩ altitude satellites).update = true ∧
    (Event.record (.gps ⟨lat⟩ ⟨lon⟩ ⟨speed⟩ ⟨heading⟩ altitude satellites) u frame).pins =
      pinRow 0x6 0 u none none frame [lat, lon, speed, heading, altitude, satellites]) ∧
  (∀ (u : Bool) (frame : List Byte) (vspeed : Word32),
    (Record.vario ⟨vspeed⟩).update = true ∧
    (Event.record (.vario ⟨vspeed⟩) u frame).pins = pinRow 0x7 0 u none none frame [vspeed]) ∧
  (∀ (u known : Bool) (frame bytes : List Byte) (type : Byte) (cause : Cause),
    (Record.raw type known cause bytes).update = false ∧
    (Event.record (.raw type known .none bytes) u frame).pins = pinRow 0x8 0 u (some known) none frame [] ∧
    (Event.record (.raw type known .unrecognizedPacketType bytes) u frame).pins = pinRow 0x8 3 u (some known) none frame [] ∧
    (Event.record (.raw type known .truncatedPayload bytes) u frame).pins = pinRow 0x8 4 u (some known) none frame []) ∧
  (∀ frame : List Byte, (Event.noop frame).pins = pinRow 0x9 0 false none none frame []) ∧
  (∀ (frame : List Byte) (computed : Byte),
    (Event.crcError frame computed).pins = pinRow 0xA 2 false none (some computed) frame []) ∧
  (∀ (n : Nat) (b : Byte), ∃ count : BitVec 16, count.toNat = min n 65535 ∧
    (Event.framingError n b).pins =
      { kind := 0xB, cause := 1, update := false, known := none, type := none, len := none,
        frame := Vector.replicate 64 none, f := Vector.replicate 10 none, ndisc := some count, lenbyte := some b, crc := none }) ∧
  (∀ (e : Event) (frame : List Byte), e.frame = some frame → frame.length ≤ 64 →
    (e.pins.len.map BitVec.toNat = some frame.length) ∧ ∀ i : Fin 64, e.pins.frame[i] = frame[i.val]?)

/-- The invariant holds right after reset. -/
def Obligations.ResetSatisfiesTheInvariant : Prop :=
  State.reset.Inv

/-- From every state that meets the invariant, a step gives a state that meets it: the residue of R22, DROP with an empty buffer
and an illegal length byte, CHCNT at most 17 (R29), nothing pending in the packer (R30), TXF in canonical form with a value at
each of its 26 addresses and at no other (R31), the pulse with a count other than 16 (R182), the candidate frame a snapshot of at most 64 bytes (R50), and only legal events (R201 to R203). -/
def Obligations.StepKeepsTheInvariant : Prop :=
  ∀ s t : State, s.Inv → step s = .next t → t.Inv

/-- From no state at all does a step fault: no access reaches beyond a frame (R58, R140). -/
def Obligations.NoStepFaults : Prop :=
  ∀ s : State, s.Safe

/-- In every state, every well-formed instruction whose operand is not the buffer's head completes. -/
def Obligations.WellFormedInstrCompletes : Prop :=
  ∀ (i : Instr) (s : State), WellFormed i = true → onBufferHead i = false → ∃ t, exec i s = .next t

/-- R33: the two paths share no state: an RX operation neither reads nor writes the TX half, nor a TX operation the RX half; so
any RX transaction commutes with any TX transaction. -/
def Obligations.RxAndTxPathsCommute : Prop :=
  ∀ (i j : Instr) (s t u : State), onRxPath i = true → onTxPath j = true → exec i s = .next t → exec j s = .next u →
    t.tx = s.tx ∧ u.rx = s.rx ∧
    (∃ v, exec j t = .next v ∧ exec i u = .next v) ∧
    (∀ s' : State, s'.rx = s.rx → ∃ t', exec i s' = .next t' ∧ t'.rx = t.rx) ∧
    (∀ s' : State, s'.tx = s.tx → s'.encCrcStart = s.encCrcStart → ∃ u', exec j s' = .next u' ∧ u'.tx = u.tx)

/-- Outputs are only appended to, in order: no instruction but RESET drops, changes or reorders an event or a TX beat not yet
taken (R61, R62, R209); the parameter never changes (R32), nor do the inputs. -/
def Obligations.OutputsOnlyGrow : Prop :=
  ∀ (i : Instr) (s t : State), exec i s = .next t →
    t.encCrcStart = s.encCrcStart ∧ t.inputs = s.inputs ∧
    (i ≠ .reset → (∃ es, t.rx.events = s.rx.events ++ es) ∧ ∃ xs, t.tx.out = s.tx.out ++ xs)
end

