-- ==== Sys2Proof/Laws/State.lean ====
section
/-! SUPPORT. One lemma per field per update of the state, so that no later proof unfolds a record update. -/

namespace Sys2Proof.Machine

@[simp] theorem RxState.setRxbuf_rxbuf (r : RxState) (v : List Byte) : (r.setRxbuf v).rxbuf = v := rfl
@[simp] theorem RxState.setRxbuf_drop (r : RxState) (v : List Byte) : (r.setRxbuf v).drop = r.drop := rfl
@[simp] theorem RxState.setRxbuf_crcacc (r : RxState) (v : List Byte) : (r.setRxbuf v).crcacc = r.crcacc := rfl
@[simp] theorem RxState.setRxbuf_f (r : RxState) (v : List Byte) : (r.setRxbuf v).f = r.f := rfl
@[simp] theorem RxState.setRxbuf_frame (r : RxState) (v : List Byte) : (r.setRxbuf v).frame = r.frame := rfl
@[simp] theorem RxState.setRxbuf_valid (r : RxState) (v : List Byte) : (r.setRxbuf v).valid = r.valid := rfl
@[simp] theorem RxState.setRxbuf_events (r : RxState) (v : List Byte) : (r.setRxbuf v).events = r.events := rfl

@[simp] theorem RxState.setDrop_rxbuf (r : RxState) (v : Option Discard) : (r.setDrop v).rxbuf = r.rxbuf := rfl
@[simp] theorem RxState.setDrop_drop (r : RxState) (v : Option Discard) : (r.setDrop v).drop = v := rfl
@[simp] theorem RxState.setDrop_crcacc (r : RxState) (v : Option Discard) : (r.setDrop v).crcacc = r.crcacc := rfl
@[simp] theorem RxState.setDrop_f (r : RxState) (v : Option Discard) : (r.setDrop v).f = r.f := rfl
@[simp] theorem RxState.setDrop_frame (r : RxState) (v : Option Discard) : (r.setDrop v).frame = r.frame := rfl
@[simp] theorem RxState.setDrop_valid (r : RxState) (v : Option Discard) : (r.setDrop v).valid = r.valid := rfl
@[simp] theorem RxState.setDrop_events (r : RxState) (v : Option Discard) : (r.setDrop v).events = r.events := rfl

@[simp] theorem RxState.setCrcacc_rxbuf (r : RxState) (v : Byte) : (r.setCrcacc v).rxbuf = r.rxbuf := rfl
@[simp] theorem RxState.setCrcacc_drop (r : RxState) (v : Byte) : (r.setCrcacc v).drop = r.drop := rfl
@[simp] theorem RxState.setCrcacc_crcacc (r : RxState) (v : Byte) : (r.setCrcacc v).crcacc = v := rfl
@[simp] theorem RxState.setCrcacc_f (r : RxState) (v : Byte) : (r.setCrcacc v).f = r.f := rfl
@[simp] theorem RxState.setCrcacc_frame (r : RxState) (v : Byte) : (r.setCrcacc v).frame = r.frame := rfl
@[simp] theorem RxState.setCrcacc_valid (r : RxState) (v : Byte) : (r.setCrcacc v).valid = r.valid := rfl
@[simp] theorem RxState.setCrcacc_events (r : RxState) (v : Byte) : (r.setCrcacc v).events = r.events := rfl

@[simp] theorem RxState.setF_rxbuf (r : RxState) (v : Vector Word32 10) : (r.setF v).rxbuf = r.rxbuf := rfl
@[simp] theorem RxState.setF_drop (r : RxState) (v : Vector Word32 10) : (r.setF v).drop = r.drop := rfl
@[simp] theorem RxState.setF_crcacc (r : RxState) (v : Vector Word32 10) : (r.setF v).crcacc = r.crcacc := rfl
@[simp] theorem RxState.setF_f (r : RxState) (v : Vector Word32 10) : (r.setF v).f = v := rfl
@[simp] theorem RxState.setF_frame (r : RxState) (v : Vector Word32 10) : (r.setF v).frame = r.frame := rfl
@[simp] theorem RxState.setF_valid (r : RxState) (v : Vector Word32 10) : (r.setF v).valid = r.valid := rfl
@[simp] theorem RxState.setF_events (r : RxState) (v : Vector Word32 10) : (r.setF v).events = r.events := rfl

@[simp] theorem RxState.setField_rxbuf (r : RxState) (i : Fin 10) (v : Word32) : (r.setField i v).rxbuf = r.rxbuf := rfl
@[simp] theorem RxState.setField_drop (r : RxState) (i : Fin 10) (v : Word32) : (r.setField i v).drop = r.drop := rfl
@[simp] theorem RxState.setField_crcacc (r : RxState) (i : Fin 10) (v : Word32) : (r.setField i v).crcacc = r.crcacc := rfl
@[simp] theorem RxState.setField_f (r : RxState) (i : Fin 10) (v : Word32) : (r.setField i v).f = r.f.set i v := rfl
@[simp] theorem RxState.setField_frame (r : RxState) (i : Fin 10) (v : Word32) : (r.setField i v).frame = r.frame := rfl
@[simp] theorem RxState.setField_valid (r : RxState) (i : Fin 10) (v : Word32) : (r.setField i v).valid = r.valid := rfl
@[simp] theorem RxState.setField_events (r : RxState) (i : Fin 10) (v : Word32) : (r.setField i v).events = r.events := rfl

@[simp] theorem RxState.setFrame_rxbuf (r : RxState) (v : Memory) : (r.setFrame v).rxbuf = r.rxbuf := rfl
@[simp] theorem RxState.setFrame_drop (r : RxState) (v : Memory) : (r.setFrame v).drop = r.drop := rfl
@[simp] theorem RxState.setFrame_crcacc (r : RxState) (v : Memory) : (r.setFrame v).crcacc = r.crcacc := rfl
@[simp] theorem RxState.setFrame_f (r : RxState) (v : Memory) : (r.setFrame v).f = r.f := rfl
@[simp] theorem RxState.setFrame_frame (r : RxState) (v : Memory) : (r.setFrame v).frame = v := rfl
@[simp] theorem RxState.setFrame_valid (r : RxState) (v : Memory) : (r.setFrame v).valid = r.valid := rfl
@[simp] theorem RxState.setFrame_events (r : RxState) (v : Memory) : (r.setFrame v).events = r.events := rfl

@[simp] theorem RxState.setValid_rxbuf (r : RxState) (v : Bool) : (r.setValid v).rxbuf = r.rxbuf := rfl
@[simp] theorem RxState.setValid_drop (r : RxState) (v : Bool) : (r.setValid v).drop = r.drop := rfl
@[simp] theorem RxState.setValid_crcacc (r : RxState) (v : Bool) : (r.setValid v).crcacc = r.crcacc := rfl
@[simp] theorem RxState.setValid_f (r : RxState) (v : Bool) : (r.setValid v).f = r.f := rfl
@[simp] theorem RxState.setValid_frame (r : RxState) (v : Bool) : (r.setValid v).frame = r.frame := rfl
@[simp] theorem RxState.setValid_valid (r : RxState) (v : Bool) : (r.setValid v).valid = v := rfl
@[simp] theorem RxState.setValid_events (r : RxState) (v : Bool) : (r.setValid v).events = r.events := rfl

@[simp] theorem RxState.setEvents_rxbuf (r : RxState) (v : List Event) : (r.setEvents v).rxbuf = r.rxbuf := rfl
@[simp] theorem RxState.setEvents_drop (r : RxState) (v : List Event) : (r.setEvents v).drop = r.drop := rfl
@[simp] theorem RxState.setEvents_crcacc (r : RxState) (v : List Event) : (r.setEvents v).crcacc = r.crcacc := rfl
@[simp] theorem RxState.setEvents_f (r : RxState) (v : List Event) : (r.setEvents v).f = r.f := rfl
@[simp] theorem RxState.setEvents_frame (r : RxState) (v : List Event) : (r.setEvents v).frame = r.frame := rfl
@[simp] theorem RxState.setEvents_valid (r : RxState) (v : List Event) : (r.setEvents v).valid = r.valid := rfl
@[simp] theorem RxState.setEvents_events (r : RxState) (v : List Event) : (r.setEvents v).events = v := rfl

@[simp] theorem RxState.emit_rxbuf (r : RxState) (e : Event) : (r.emit e).rxbuf = r.rxbuf := rfl
@[simp] theorem RxState.emit_drop (r : RxState) (e : Event) : (r.emit e).drop = r.drop := rfl
@[simp] theorem RxState.emit_crcacc (r : RxState) (e : Event) : (r.emit e).crcacc = r.crcacc := rfl
@[simp] theorem RxState.emit_f (r : RxState) (e : Event) : (r.emit e).f = r.f := rfl
@[simp] theorem RxState.emit_frame (r : RxState) (e : Event) : (r.emit e).frame = r.frame := rfl
@[simp] theorem RxState.emit_valid (r : RxState) (e : Event) : (r.emit e).valid = r.valid := rfl
@[simp] theorem RxState.emit_events (r : RxState) (e : Event) : (r.emit e).events = r.events ++ [e] := rfl

@[simp] theorem RxState.raise_rxbuf (r : RxState) (e : RxError) : (r.raise e).rxbuf = r.rxbuf := rfl
@[simp] theorem RxState.raise_drop (r : RxState) (e : RxError) : (r.raise e).drop = r.drop := rfl
@[simp] theorem RxState.raise_crcacc (r : RxState) (e : RxError) : (r.raise e).crcacc = r.crcacc := rfl
@[simp] theorem RxState.raise_f (r : RxState) (e : RxError) : (r.raise e).f = r.f := rfl
@[simp] theorem RxState.raise_frame (r : RxState) (e : RxError) : (r.raise e).frame = r.frame := rfl
@[simp] theorem RxState.raise_valid (r : RxState) (e : RxError) : (r.raise e).valid = r.valid := rfl
@[simp] theorem RxState.raise_events (r : RxState) (e : RxError) : (r.raise e).events = r.events ++ [e.event] := rfl

@[simp] theorem TxState.setCh_ch (t : TxState) (v : Vector Chan 16) : (t.setCh v).ch = v := rfl
@[simp] theorem TxState.setCh_chcnt (t : TxState) (v : Vector Chan 16) : (t.setCh v).chcnt = t.chcnt := rfl
@[simp] theorem TxState.setCh_packacc (t : TxState) (v : Vector Chan 16) : (t.setCh v).packacc = t.packacc := rfl
@[simp] theorem TxState.setCh_packn (t : TxState) (v : Vector Chan 16) : (t.setCh v).packn = t.packn := rfl
@[simp] theorem TxState.setCh_pk (t : TxState) (v : Vector Chan 16) : (t.setCh v).pk = t.pk := rfl
@[simp] theorem TxState.setCh_txf (t : TxState) (v : Vector Chan 16) : (t.setCh v).txf = t.txf := rfl
@[simp] theorem TxState.setCh_crcacc (t : TxState) (v : Vector Chan 16) : (t.setCh v).crcacc = t.crcacc := rfl
@[simp] theorem TxState.setCh_out (t : TxState) (v : Vector Chan 16) : (t.setCh v).out = t.out := rfl
@[simp] theorem TxState.setCh_err (t : TxState) (v : Vector Chan 16) : (t.setCh v).err = t.err := rfl

@[simp] theorem TxState.setChcnt_ch (t : TxState) (v : BitVec 5) : (t.setChcnt v).ch = t.ch := rfl
@[simp] theorem TxState.setChcnt_chcnt (t : TxState) (v : BitVec 5) : (t.setChcnt v).chcnt = v := rfl
@[simp] theorem TxState.setChcnt_packacc (t : TxState) (v : BitVec 5) : (t.setChcnt v).packacc = t.packacc := rfl
@[simp] theorem TxState.setChcnt_packn (t : TxState) (v : BitVec 5) : (t.setChcnt v).packn = t.packn := rfl
@[simp] theorem TxState.setChcnt_pk (t : TxState) (v : BitVec 5) : (t.setChcnt v).pk = t.pk := rfl
@[simp] theorem TxState.setChcnt_txf (t : TxState) (v : BitVec 5) : (t.setChcnt v).txf = t.txf := rfl
@[simp] theorem TxState.setChcnt_crcacc (t : TxState) (v : BitVec 5) : (t.setChcnt v).crcacc = t.crcacc := rfl
@[simp] theorem TxState.setChcnt_out (t : TxState) (v : BitVec 5) : (t.setChcnt v).out = t.out := rfl
@[simp] theorem TxState.setChcnt_err (t : TxState) (v : BitVec 5) : (t.setChcnt v).err = t.err := rfl

@[simp] theorem TxState.setPacker_ch (t : TxState) (acc : BitVec 18) (n : BitVec 5) (pk : Vector Byte 22) : (t.setPacker acc n pk).ch = t.ch := rfl
@[simp] theorem TxState.setPacker_chcnt (t : TxState) (acc : BitVec 18) (n : BitVec 5) (pk : Vector Byte 22) : (t.setPacker acc n pk).chcnt = t.chcnt := rfl
@[simp] theorem TxState.setPacker_packacc (t : TxState) (acc : BitVec 18) (n : BitVec 5) (pk : Vector Byte 22) : (t.setPacker acc n pk).packacc = acc := rfl
@[simp] theorem TxState.setPacker_packn (t : TxState) (acc : BitVec 18) (n : BitVec 5) (pk : Vector Byte 22) : (t.setPacker acc n pk).packn = n := rfl
@[simp] theorem TxState.setPacker_pk (t : TxState) (acc : BitVec 18) (n : BitVec 5) (pk : Vector Byte 22) : (t.setPacker acc n pk).pk = pk := rfl
@[simp] theorem TxState.setPacker_txf (t : TxState) (acc : BitVec 18) (n : BitVec 5) (pk : Vector Byte 22) : (t.setPacker acc n pk).txf = t.txf := rfl
@[simp] theorem TxState.setPacker_crcacc (t : TxState) (acc : BitVec 18) (n : BitVec 5) (pk : Vector Byte 22) : (t.setPacker acc n pk).crcacc = t.crcacc := rfl
@[simp] theorem TxState.setPacker_out (t : TxState) (acc : BitVec 18) (n : BitVec 5) (pk : Vector Byte 22) : (t.setPacker acc n pk).out = t.out := rfl
@[simp] theorem TxState.setPacker_err (t : TxState) (acc : BitVec 18) (n : BitVec 5) (pk : Vector Byte 22) : (t.setPacker acc n pk).err = t.err := rfl

@[simp] theorem TxState.setTxf_ch (t : TxState) (v : Memory) : (t.setTxf v).ch = t.ch := rfl
@[simp] theorem TxState.setTxf_chcnt (t : TxState) (v : Memory) : (t.setTxf v).chcnt = t.chcnt := rfl
@[simp] theorem TxState.setTxf_packacc (t : TxState) (v : Memory) : (t.setTxf v).packacc = t.packacc := rfl
@[simp] theorem TxState.setTxf_packn (t : TxState) (v : Memory) : (t.setTxf v).packn = t.packn := rfl
@[simp] theorem TxState.setTxf_pk (t : TxState) (v : Memory) : (t.setTxf v).pk = t.pk := rfl
@[simp] theorem TxState.setTxf_txf (t : TxState) (v : Memory) : (t.setTxf v).txf = v := rfl
@[simp] theorem TxState.setTxf_crcacc (t : TxState) (v : Memory) : (t.setTxf v).crcacc = t.crcacc := rfl
@[simp] theorem TxState.setTxf_out (t : TxState) (v : Memory) : (t.setTxf v).out = t.out := rfl
@[simp] theorem TxState.setTxf_err (t : TxState) (v : Memory) : (t.setTxf v).err = t.err := rfl

@[simp] theorem TxState.setCrcacc_ch (t : TxState) (v : Byte) : (t.setCrcacc v).ch = t.ch := rfl
@[simp] theorem TxState.setCrcacc_chcnt (t : TxState) (v : Byte) : (t.setCrcacc v).chcnt = t.chcnt := rfl
@[simp] theorem TxState.setCrcacc_packacc (t : TxState) (v : Byte) : (t.setCrcacc v).packacc = t.packacc := rfl
@[simp] theorem TxState.setCrcacc_packn (t : TxState) (v : Byte) : (t.setCrcacc v).packn = t.packn := rfl
@[simp] theorem TxState.setCrcacc_pk (t : TxState) (v : Byte) : (t.setCrcacc v).pk = t.pk := rfl
@[simp] theorem TxState.setCrcacc_txf (t : TxState) (v : Byte) : (t.setCrcacc v).txf = t.txf := rfl
@[simp] theorem TxState.setCrcacc_crcacc (t : TxState) (v : Byte) : (t.setCrcacc v).crcacc = v := rfl
@[simp] theorem TxState.setCrcacc_out (t : TxState) (v : Byte) : (t.setCrcacc v).out = t.out := rfl
@[simp] theorem TxState.setCrcacc_err (t : TxState) (v : Byte) : (t.setCrcacc v).err = t.err := rfl

@[simp] theorem TxState.setOut_ch (t : TxState) (v : List TxBeat) : (t.setOut v).ch = t.ch := rfl
@[simp] theorem TxState.setOut_chcnt (t : TxState) (v : List TxBeat) : (t.setOut v).chcnt = t.chcnt := rfl
@[simp] theorem TxState.setOut_packacc (t : TxState) (v : List TxBeat) : (t.setOut v).packacc = t.packacc := rfl
@[simp] theorem TxState.setOut_packn (t : TxState) (v : List TxBeat) : (t.setOut v).packn = t.packn := rfl
@[simp] theorem TxState.setOut_pk (t : TxState) (v : List TxBeat) : (t.setOut v).pk = t.pk := rfl
@[simp] theorem TxState.setOut_txf (t : TxState) (v : List TxBeat) : (t.setOut v).txf = t.txf := rfl
@[simp] theorem TxState.setOut_crcacc (t : TxState) (v : List TxBeat) : (t.setOut v).crcacc = t.crcacc := rfl
@[simp] theorem TxState.setOut_out (t : TxState) (v : List TxBeat) : (t.setOut v).out = v := rfl
@[simp] theorem TxState.setOut_err (t : TxState) (v : List TxBeat) : (t.setOut v).err = t.err := rfl

@[simp] theorem TxState.setErr_ch (t : TxState) (v : Option (BitVec 5)) : (t.setErr v).ch = t.ch := rfl
@[simp] theorem TxState.setErr_chcnt (t : TxState) (v : Option (BitVec 5)) : (t.setErr v).chcnt = t.chcnt := rfl
@[simp] theorem TxState.setErr_packacc (t : TxState) (v : Option (BitVec 5)) : (t.setErr v).packacc = t.packacc := rfl
@[simp] theorem TxState.setErr_packn (t : TxState) (v : Option (BitVec 5)) : (t.setErr v).packn = t.packn := rfl
@[simp] theorem TxState.setErr_pk (t : TxState) (v : Option (BitVec 5)) : (t.setErr v).pk = t.pk := rfl
@[simp] theorem TxState.setErr_txf (t : TxState) (v : Option (BitVec 5)) : (t.setErr v).txf = t.txf := rfl
@[simp] theorem TxState.setErr_crcacc (t : TxState) (v : Option (BitVec 5)) : (t.setErr v).crcacc = t.crcacc := rfl
@[simp] theorem TxState.setErr_out (t : TxState) (v : Option (BitVec 5)) : (t.setErr v).out = t.out := rfl
@[simp] theorem TxState.setErr_err (t : TxState) (v : Option (BitVec 5)) : (t.setErr v).err = v := rfl

@[simp] theorem TxState.raise_ch (t : TxState) (n : BitVec 5) : (t.raise n).ch = t.ch := rfl
@[simp] theorem TxState.raise_chcnt (t : TxState) (n : BitVec 5) : (t.raise n).chcnt = t.chcnt := rfl
@[simp] theorem TxState.raise_packacc (t : TxState) (n : BitVec 5) : (t.raise n).packacc = t.packacc := rfl
@[simp] theorem TxState.raise_packn (t : TxState) (n : BitVec 5) : (t.raise n).packn = t.packn := rfl
@[simp] theorem TxState.raise_pk (t : TxState) (n : BitVec 5) : (t.raise n).pk = t.pk := rfl
@[simp] theorem TxState.raise_txf (t : TxState) (n : BitVec 5) : (t.raise n).txf = t.txf := rfl
@[simp] theorem TxState.raise_crcacc (t : TxState) (n : BitVec 5) : (t.raise n).crcacc = t.crcacc := rfl
@[simp] theorem TxState.raise_out (t : TxState) (n : BitVec 5) : (t.raise n).out = t.out := rfl
@[simp] theorem TxState.raise_err (t : TxState) (n : BitVec 5) : (t.raise n).err = some n := rfl

@[simp] theorem State.setRx_rx (s : State) (r : RxState) : (s.setRx r).rx = r := rfl
@[simp] theorem State.setRx_tx (s : State) (r : RxState) : (s.setRx r).tx = s.tx := rfl
@[simp] theorem State.setRx_encCrcStart (s : State) (r : RxState) : (s.setRx r).encCrcStart = s.encCrcStart := rfl
@[simp] theorem State.setRx_inputs (s : State) (r : RxState) : (s.setRx r).inputs = s.inputs := rfl
@[simp] theorem State.setRx_free (s : State) (r : RxState) : (s.setRx r).free = s.free := rfl

@[simp] theorem State.setTx_rx (s : State) (t : TxState) : (s.setTx t).rx = s.rx := rfl
@[simp] theorem State.setTx_tx (s : State) (t : TxState) : (s.setTx t).tx = t := rfl
@[simp] theorem State.setTx_encCrcStart (s : State) (t : TxState) : (s.setTx t).encCrcStart = s.encCrcStart := rfl
@[simp] theorem State.setTx_inputs (s : State) (t : TxState) : (s.setTx t).inputs = s.inputs := rfl
@[simp] theorem State.setTx_free (s : State) (t : TxState) : (s.setTx t).free = s.free := rfl

@[simp] theorem State.setInputs_rx (s : State) (v : List Input) : (s.setInputs v).rx = s.rx := rfl
@[simp] theorem State.setInputs_tx (s : State) (v : List Input) : (s.setInputs v).tx = s.tx := rfl
@[simp] theorem State.setInputs_encCrcStart (s : State) (v : List Input) : (s.setInputs v).encCrcStart = s.encCrcStart := rfl
@[simp] theorem State.setInputs_inputs (s : State) (v : List Input) : (s.setInputs v).inputs = v := rfl
@[simp] theorem State.setInputs_free (s : State) (v : List Input) : (s.setInputs v).free = s.free := rfl

/-- Two updates of different paths commute (R33). -/
theorem State.setRx_setTx (s : State) (r : RxState) (t : TxState) : (s.setRx r).setTx t = (s.setTx t).setRx r := rfl

end Sys2Proof.Machine
end

