-- ==== Sys2Proof/Laws/Ops.lean ====
section
/-! SUPPORT. What the shared operations of Machine/Ops.lean do, each said once: sequencing, the memory, MemRead and slices,
and the two paths. -/

namespace Sys2Proof.Machine

/-! ## Sequencing -/

@[simp] theorem andThen_next {α β : Type} (a : α) (k : α → Res β) : andThen (.next a) k = k a := rfl
@[simp] theorem andThen_fault {α β : Type} (e : Fault) (k : α → Res β) : andThen (.fault e) k = .fault e := rfl
@[simp] theorem andThen_refused {α β : Type} (e : Refusal) (k : α → Res β) : andThen (.refused e) k = .refused e := rfl
@[simp] theorem mapRes_next {α β : Type} (a : α) (g : α → β) : mapRes (.next a) g = .next (g a) := rfl
@[simp] theorem mapRes_fault {α β : Type} (e : Fault) (g : α → β) : mapRes (.fault e : Res α) g = .fault e := rfl
@[simp] theorem mapRes_refused {α β : Type} (e : Refusal) (g : α → β) : mapRes (.refused e : Res α) g = .refused e := rfl

theorem andThen_eq_next {α β : Type} {r : Res α} {k : α → Res β} {b : β} :
    andThen r k = .next b ↔ ∃ a, r = .next a ∧ k a = .next b := by
  cases r <;> simp

theorem mapRes_eq_next {α β : Type} {r : Res α} {g : α → β} {b : β} :
    mapRes r g = .next b ↔ ∃ a, r = .next a ∧ g a = b := by
  cases r <;> simp

theorem andThen_assoc {α β γ : Type} (r : Res α) (k : α → Res β) (l : β → Res γ) :
    andThen (andThen r k) l = andThen r fun a => andThen (k a) l := by
  cases r <;> rfl

/-- An operation of the RX path answers a next state exactly when it does so on the RX half, and changes that half only. -/
theorem onRx_eq_next {op : RxState → Res RxState} {s t : State} :
    onRx op s = .next t ↔ ∃ r, op s.rx = .next r ∧ t = s.setRx r := by
  rw [onRx, mapRes_eq_next]
  simp only [eq_comm]

/-- An operation of the TX path answers a next state exactly when it does so on the TX half, and changes that half only. -/
theorem onTx_eq_next {op : TxState → Res TxState} {s t : State} :
    onTx op s = .next t ↔ ∃ r, op s.tx = .next r ∧ t = s.setTx r := by
  rw [onTx, mapRes_eq_next]
  simp only [eq_comm]

theorem onRx_of_next {op : RxState → Res RxState} {s : State} {r : RxState} (h : op s.rx = .next r) :
    onRx op s = .next (s.setRx r) := by
  simp [onRx, h]

theorem onTx_of_next {op : TxState → Res TxState} {s : State} {r : TxState} (h : op s.tx = .next r) :
    onTx op s = .next (s.setTx r) := by
  simp [onTx, h]

/-! ## Memory -/

theorem Memory.read_write_same (m : Memory) (a : Nat) (v : Byte) : (m.write a v).read a = some v := by
  induction m with
  | nil => simp [Memory.write, Memory.read]
  | cons c m ih =>
    obtain ⟨b, w⟩ := c
    simp only [Memory.write]
    split
    · simp [Memory.read]
    · split
      · simp [Memory.read]
      · simp [Memory.read, *]

theorem Memory.read_write_other (m : Memory) {a c : Nat} (v : Byte) (h : c ≠ a) : (m.write a v).read c = m.read c := by
  induction m with
  | nil => simp [Memory.write, Memory.read, h]
  | cons d m ih =>
    obtain ⟨b, w⟩ := d
    simp only [Memory.write]
    split
    · simp [Memory.read, h]
    · split
      · subst_vars
        simp [Memory.read, h]
      · simp [Memory.read, ih]

/-- The canonical form, cell by cell. -/
theorem Memory.wf_cons (c : Host.Cell) (m : Memory) :
    Memory.wf (c :: m) = true ↔ (∀ d ∈ m.head?, c.1 < d.1) ∧ Memory.wf m = true := by
  cases m <;> simp [Memory.wf]

theorem Memory.head_write (m : Memory) (a : Nat) (v : Byte) {d : Host.Cell} (h : d ∈ (m.write a v).head?) :
    d.1 = a ∨ d ∈ m.head? ∨ ∃ e ∈ m.head?, d.1 = e.1 := by
  cases m with
  | nil => simp [Memory.write] at h; simp [← h]
  | cons c m =>
    obtain ⟨b, w⟩ := c
    simp only [Memory.write] at h
    split at h
    · simp at h; simp [← h]
    · split at h
      · simp at h; simp [← h]
      · simp at h; simp [← h]

/-- A write keeps the canonical form. -/
theorem Memory.write_wf (m : Memory) (a : Nat) (v : Byte) (h : m.wf = true) : (m.write a v).wf = true := by
  induction m with
  | nil => rfl
  | cons c m ih =>
    obtain ⟨b, w⟩ := c
    rw [Memory.wf_cons] at h
    simp only [Memory.write]
    split
    · rw [Memory.wf_cons]
      refine ⟨by simpa using ‹a < b›, ?_⟩
      rw [Memory.wf_cons]
      exact h
    · split
      · subst_vars
        rw [Memory.wf_cons]
        exact h
      · rw [Memory.wf_cons]
        refine ⟨fun d hd => ?_, ih h.2⟩
        rcases Memory.head_write m a v hd with h1 | h1 | ⟨e, he, h1⟩
        · simp only; omega
        · exact h.1 d h1
        · rw [h1]; exact h.1 e he

theorem Memory.writeBytes_wf (bs : List Byte) (m : Memory) (a : Nat) (h : m.wf = true) : (m.writeBytes a bs).wf = true := by
  induction bs generalizing m a with
  | nil => exact h
  | cons b bs ih => exact ih _ _ (Memory.write_wf m a b h)

/-- The memories right after reset. -/
theorem Memory.reset_wf : State.reset.rx.frame.wf = true ∧ State.reset.tx.txf.wf = true := by decide

/-- What a run of writes leaves at each address. -/
theorem Memory.read_writeBytes (bs : List Byte) (m : Memory) (a c : Nat) :
    (m.writeBytes a bs).read c = if a ≤ c ∧ c < a + bs.length then bs[c - a]? else m.read c := by
  induction bs generalizing m a with
  | nil => rw [Memory.writeBytes, if_neg (by simp)]
  | cons b bs ih =>
    rw [Memory.writeBytes, ih]
    by_cases h : c = a
    · subst h
      rw [if_neg (by omega), if_pos (by simp), Memory.read_write_same]
      simp
    · rw [Memory.read_write_other _ _ h]
      by_cases h1 : a + 1 ≤ c ∧ c < a + 1 + bs.length
      · obtain ⟨k, rfl⟩ : ∃ k, c = a + 1 + k := ⟨c - (a + 1), by omega⟩
        rw [if_pos h1, if_pos (by simp; omega)]
        have e1 : a + 1 + k - (a + 1) = k := by omega
        have e2 : a + 1 + k - a = k + 1 := by omega
        simp [e1, e2]
      · rw [if_neg h1, if_neg (by simp; omega)]

theorem Memory.length_ofBytesFrom (a : Nat) (bs : List Byte) : (Memory.ofBytesFrom a bs).length = bs.length := by
  induction bs generalizing a with
  | nil => rfl
  | cons b bs ih => simp [Memory.ofBytesFrom, ih]

@[simp] theorem Memory.length_ofBytes (bs : List Byte) : (Memory.ofBytes bs).length = bs.length :=
  Memory.length_ofBytesFrom 0 bs

theorem Memory.read_ofBytesFrom (a c : Nat) (bs : List Byte) :
    (Memory.ofBytesFrom a bs).read c = if a ≤ c then bs[c - a]? else none := by
  induction bs generalizing a with
  | nil => simp [Memory.ofBytesFrom, Memory.read]
  | cons b bs ih =>
    simp only [Memory.ofBytesFrom, Memory.read, ih]
    by_cases h : c = a
    · simp [h]
    · by_cases h1 : a + 1 ≤ c
      · obtain ⟨k, rfl⟩ : ∃ k, c = a + 1 + k := ⟨c - (a + 1), by omega⟩
        have e1 : a + 1 + k - (a + 1) = k := by omega
        have e2 : a + 1 + k - a = k + 1 := by omega
        have e3 : a ≤ a + 1 + k := by omega
        have e4 : a + 1 + k ≠ a := by omega
        simp [e1, e2, e3, e4]
      · rw [if_neg h, if_neg h1, if_neg (by omega)]

@[simp] theorem Memory.read_ofBytes (bs : List Byte) (c : Nat) : (Memory.ofBytes bs).read c = bs[c]? := by
  simp [Memory.ofBytes, Memory.read_ofBytesFrom]

theorem Memory.ofBytesFrom_wf (a : Nat) (bs : List Byte) : (Memory.ofBytesFrom a bs).wf = true := by
  induction bs generalizing a with
  | nil => rfl
  | cons b bs ih =>
    rw [Memory.ofBytesFrom, Memory.wf_cons]
    refine ⟨fun d hd => ?_, ih _⟩
    cases bs with
    | nil => simp [Memory.ofBytesFrom] at hd
    | cons c cs => simp [Memory.ofBytesFrom] at hd; simp [← hd]

theorem Memory.ofBytes_wf (bs : List Byte) : (Memory.ofBytes bs).wf = true :=
  Memory.ofBytesFrom_wf 0 bs

/-- A memory of bytes has a value at exactly the addresses below their number. -/
theorem Memory.read_ofBytes_isSome (bs : List Byte) (a : Nat) : ((Memory.ofBytes bs).read a).isSome = true ↔ a < bs.length := by
  simp

/-- `TXF` right after reset. -/
theorem TxState.reset_txf : TxState.reset.txf = Memory.ofBytes (List.replicate 26 0) := rfl

/-! ## Reads -/

/-- A slice whose bytes are all there. -/
theorem memSlice_of_read (err : Nat → Fault) (m : Memory) (bs : List Byte) (a : Nat)
    (h : ∀ i, i < bs.length → m.read (a + i) = bs[i]?) : memSlice err m a bs.length = .next bs := by
  induction bs generalizing a with
  | nil => rfl
  | cons b bs ih =>
    have h0 := h 0 (by simp)
    have hr := ih (a + 1) (fun i hi => by
      have := h (i + 1) (by simpa using hi)
      rw [show a + 1 + i = a + (i + 1) by omega, this]; simp)
    simp only [Nat.add_zero, List.getElem?_cons_zero] at h0
    simp [memSlice, memByte, h0, hr]

/-- A slice of a frame: the bytes from offset `a`, `n` of them. -/
theorem memSlice_ofBytes (err : Nat → Fault) (bs : List Byte) (a n : Nat) (h : a + n ≤ bs.length) :
    memSlice err (Memory.ofBytes bs) a n = .next ((bs.drop a).take n) := by
  have hl : ((bs.drop a).take n).length = n := by simp; omega
  have := memSlice_of_read err (Memory.ofBytes bs) ((bs.drop a).take n) a (fun i hi => by
    rw [hl] at hi
    simp [hi])
  rwa [hl] at this

theorem memRead1_ofBytes (bs : List Byte) (a : Nat) (h : a < bs.length) :
    memRead1 (Memory.ofBytes bs) a = .next (bs.getD a 0) := by
  simp [memRead1, memByte, List.getD_eq_getElem?_getD, h]

theorem memRead2_ofBytes (bs : List Byte) (a : Nat) (h : a + 1 < bs.length) :
    memRead2 (Memory.ofBytes bs) a = .next (bs.getD a 0 ++ bs.getD (a + 1) 0) := by
  simp [memRead2, memRead1_ofBytes bs a (by omega), memRead1_ofBytes bs (a + 1) h]

theorem memRead4_ofBytes (bs : List Byte) (a : Nat) (h : a + 3 < bs.length) :
    memRead4 (Memory.ofBytes bs) a =
      .next ((bs.getD a 0 ++ bs.getD (a + 1) 0 : BitVec 16) ++ (bs.getD (a + 2) 0 ++ bs.getD (a + 3) 0 : BitVec 16)) := by
  simp [memRead4, memRead2_ofBytes bs a (by omega), memRead2_ofBytes bs (a + 2) (by omega)]

/-- The whole of a frame. -/
theorem frameSlice_all (bs : List Byte) : frameSlice (Memory.ofBytes bs) 0 bs.length = .next bs := by
  rw [frameSlice, memSlice_ofBytes _ _ _ _ (by omega)]
  simp

/-! A read that ends beyond the frame faults at the first byte that is not there (log entry 8). -/

theorem memRead1_beyond (bs : List Byte) (a : Nat) (h : bs.length ≤ a) :
    memRead1 (Memory.ofBytes bs) a = .fault (.frameAddress a) := by
  simp [memRead1, memByte, h]

theorem memRead2_beyond (bs : List Byte) (a : Nat) (h : bs.length < a + 2) :
    memRead2 (Memory.ofBytes bs) a = .fault (.frameAddress (max a bs.length)) := by
  by_cases h1 : bs.length ≤ a
  · rw [memRead2, memRead1_beyond bs a h1, Nat.max_eq_left h1]; rfl
  · rw [memRead2, memRead1_ofBytes bs a (by omega), andThen_next, memRead1_beyond bs (a + 1) (by omega),
      show max a bs.length = a + 1 by omega]; rfl

theorem memRead4_beyond (bs : List Byte) (a : Nat) (h : bs.length < a + 4) :
    memRead4 (Memory.ofBytes bs) a = .fault (.frameAddress (max a bs.length)) := by
  by_cases h1 : bs.length < a + 2
  · rw [memRead4, memRead2_beyond bs a h1]; rfl
  · rw [memRead4, memRead2_ofBytes bs a (by omega), andThen_next, memRead2_beyond bs (a + 2) (by omega),
      show max (a + 2) bs.length = max a bs.length by omega]; rfl

end Sys2Proof.Machine
end

