-- ==== Sys2Proof/Laws/Crc.lean ====
section
/-! SUPPORT. CRCV: the laws of the CRC-8 function (R124) and what VALIDATE answers. -/

namespace Sys2Proof.Machine

/-- One shift step is linear. -/
theorem crc8Bit_xor (a b : Byte) : crc8Bit (a ^^^ b) = crc8Bit a ^^^ crc8Bit b := by
  simp only [crc8Bit, poly, BitVec.getLsbD_xor]
  have cancel (x y p : Byte) : x ^^^ y = p ^^^ (p ^^^ (x ^^^ y)) := by
    rw [← BitVec.xor_assoc, BitVec.xor_self, BitVec.zero_xor]
  cases a.getLsbD 7 <;> cases b.getLsbD 7 <;> simp [BitVec.shiftLeft_xor_distrib] <;>
    first | ac_rfl | (rw [cancel _ _ 0xD5]; ac_rfl)

theorem crc8Bit_zero : crc8Bit 0 = 0 := by decide

theorem repeat_crc8Bit_xor (n : Nat) (a b : Byte) :
    Nat.repeat crc8Bit n (a ^^^ b) = Nat.repeat crc8Bit n a ^^^ Nat.repeat crc8Bit n b := by
  induction n with
  | zero => rfl
  | succ n ih => simp only [Nat.repeat, ih, crc8Bit_xor]

/-- A byte enters by exclusive-or only, so the running CRC and the byte count as one. -/
theorem crc8Byte_zero (c b : Byte) : crc8Byte c b = crc8Byte 0 (c ^^^ b) := by
  simp [crc8Byte]

theorem crc8Byte_xor (c d a b : Byte) : crc8Byte (c ^^^ d) (a ^^^ b) = crc8Byte c a ^^^ crc8Byte d b := by
  simp only [crc8Byte, ← repeat_crc8Bit_xor]
  congr 1
  ac_rfl

theorem crc8Byte_self (c : Byte) : crc8Byte c c = 0 := by
  rw [crc8Byte, BitVec.xor_self]
  decide

theorem crc8From_append (c : Byte) (s t : List Byte) : crc8From c (s ++ t) = crc8From (crc8From c s) t := by
  simp [crc8From]

theorem crc8From_xor (c d : Byte) (s t : List Byte) (h : s.length = t.length) :
    crc8From (c ^^^ d) (List.zipWith (· ^^^ ·) s t) = crc8From c s ^^^ crc8From d t := by
  induction s generalizing c d t with
  | nil => cases t <;> simp_all [crc8From]
  | cons a s ih =>
    cases t with
    | nil => simp at h
    | cons b t =>
      simp only [List.zipWith_cons_cons, crc8From, List.foldl_cons, crc8Byte_xor]
      exact ih _ _ t (by simpa using h)

/-- What VALIDATE answers on a candidate frame of at least 4 bytes: the running CRC is the CRC of the covered bytes, the
result bit says whether it is the last byte, and nothing else changes (R125). -/
theorem validateFrame_ofBytes (r : RxState) (bs : List Byte) (hf : r.frame = Memory.ofBytes bs) (h : 4 ≤ bs.length) :
    validateFrame r =
      .next ((r.setCrcacc (crc8 (coveredBytes bs))).setValid (crc8 (coveredBytes bs) == crcByteOf bs)) := by
  simp only [validateFrame, hf, Memory.length_ofBytes, frameSlice]
  rw [memSlice_ofBytes _ _ _ _ (by omega), memRead1_ofBytes _ _ (by omega)]
  rfl

/-- A frame operand of legal length becomes the candidate frame. -/
theorem withFrame_legal {frame : List Byte} (h : LegalFrame frame) (op : RxState → Res RxState) (r : RxState) :
    withFrame frame op r = op (r.setFrame (Memory.ofBytes frame)) := by
  have h1 := h.1
  have h2 := h.2
  rw [withFrame, if_neg (by simp [minTotal, maxTotal]; omega)]

/-- A frame operand outside 4 to 64 bytes is refused by name. -/
theorem withFrame_illegal {frame : List Byte} (h : ¬ LegalFrame frame) (op : RxState → Res RxState) (r : RxState) :
    withFrame frame op r = .refused (.frameLength frame.length) := by
  simp only [LegalFrame] at h
  rw [withFrame, if_pos (by simp [minTotal, maxTotal]; omega)]

end Sys2Proof.Machine
end

