-- ==== Sys2Proof/Laws/Unpack.lean ====
section
/-! SUPPORT. UNPACK: what reading a layout's fields does, what each DEC_* operation answers on a candidate frame, and the one
lemma that says everything DECODE can do (R166). -/

namespace Sys2Proof.Machine

/-! ## Fields -/

/-- The number of frame bytes a field takes. -/
def FieldKind.width : FieldKind → Nat
  | .u8 => 1
  | .s8 => 1
  | .s16be => 2
  | .s32be => 4
  | .mah => 3

/-- The raw value of a field of the frame `bs`, with no question of addresses left. -/
def rawOf (bs : List Byte) (off : Nat) : FieldKind → Word32
  | .u8 => (bs.getD off 0).setWidth 32
  | .s8 => (bs.getD off 0).signExtend 32
  | .s16be => (bs.getD off 0 ++ bs.getD (off + 1) 0 : BitVec 16).signExtend 32
  | .s32be => (bs.getD off 0 ++ bs.getD (off + 1) 0 : BitVec 16) ++ (bs.getD (off + 2) 0 ++ bs.getD (off + 3) 0 : BitVec 16)
  | .mah =>
    ((bs.getD off 0).setWidth 32 <<< 16) ||| ((bs.getD (off + 1) 0).setWidth 32 <<< 7) ||| (bs.getD (off + 2) 0).setWidth 32

/-- The field registers after the fields of a layout are read from the frame `bs`. -/
def storeFields (bs : List Byte) (fds : List Field) (f : Vector Word32 10) : Vector Word32 10 :=
  fds.foldl (fun f fd => f.set fd.slot (rawOf bs fd.off fd.kind + fd.bias)) f

theorem readRaw_ofBytes (bs : List Byte) (off : Nat) (k : FieldKind) (h : off + k.width ≤ bs.length) :
    readRaw (Memory.ofBytes bs) off k = .next (rawOf bs off k) := by
  cases k <;> simp only [FieldKind.width] at h <;> simp only [readRaw, rawOf]
  · rw [memRead1_ofBytes _ _ (by omega)]; rfl
  · rw [memRead1_ofBytes _ _ (by omega)]; rfl
  · rw [memRead2_ofBytes _ _ (by omega)]; rfl
  · rw [memRead4_ofBytes _ _ (by omega)]
  · rw [memRead1_ofBytes _ _ (by omega), memRead1_ofBytes _ _ (by omega), memRead1_ofBytes _ _ (by omega)]; rfl

/-- Reading a layout that lies inside the frame completes and writes the layout's registers only. -/
theorem loadFields_ofBytes (bs : List Byte) (fds : List Field) (r : RxState) (hf : r.frame = Memory.ofBytes bs)
    (h : ∀ fd ∈ fds, fd.off + fd.kind.width ≤ bs.length) :
    loadFields fds r = .next (r.setF (storeFields bs fds r.f)) := by
  induction fds generalizing r with
  | nil => rfl
  | cons fd fds ih =>
    have h0 := readRaw_ofBytes bs fd.off fd.kind (h fd (by simp))
    have h1 : loadField fd r = .next (r.setField fd.slot (rawOf bs fd.off fd.kind + fd.bias)) := by
      rw [loadField, hf, h0]; rfl
    rw [loadFields, h1, andThen_next, ih (r.setField _ _) hf (fun g hg => h g (by simp [hg]))]
    rfl

/-- A register no field of the layout goes to keeps its value. -/
theorem getElem_storeFields (bs : List Byte) (fds : List Field) (f : Vector Word32 10) (i : Fin 10)
    (h : ∀ fd ∈ fds, fd.slot ≠ i) : (storeFields bs fds f)[i] = f[i] := by
  induction fds generalizing f with
  | nil => rfl
  | cons fd fds ih =>
    have h1 := ih (f.set fd.slot (rawOf bs fd.off fd.kind + fd.bias)) (fun g hg => h g (by simp [hg]))
    have h2 : (fd.slot : Nat) ≠ (i : Nat) := fun e => h fd (by simp) (Fin.ext e)
    simpa [storeFields, Vector.getElem_set, h2] using h1

theorem frameBytes_ofBytes (bs : List Byte) (r : RxState) (hf : r.frame = Memory.ofBytes bs) :
    frameBytes r = .next bs := by
  rw [frameBytes, hf, Memory.length_ofBytes]
  exact frameSlice_all bs

theorem emitRecord_ofBytes (bs : List Byte) (rec : Record) (r : RxState) (hf : r.frame = Memory.ofBytes bs) :
    emitRecord rec r = .next (r.emit (.record rec rec.update bs)) := by
  simp [emitRecord, frameBytes_ofBytes bs r hf]

/-! ## The operations -/

section
variable {bs : List Byte} {r : RxState} (hf : r.frame = Memory.ofBytes bs)
include hf

theorem decTruncated_ofBytes (h : 2 < bs.length) :
    decTruncated r = .next (r.raise (.truncatedPayload (bs.getD 2 0) bs)) := by
  rw [decTruncated, hf, memRead1_ofBytes _ _ h]
  simp [frameBytes_ofBytes bs r hf]

theorem unrecognized_ofBytes (known : Bool) (h : 2 < bs.length) :
    unrecognized known r = .next (r.raise (.unrecognizedPacketType (bs.getD 2 0) known bs)) := by
  rw [unrecognized, hf, memRead1_ofBytes _ _ h]
  simp [frameBytes_ofBytes bs r hf]

theorem decDeviceInfo_ofBytes (h : 2 < bs.length) :
    decDeviceInfo r = .next (r.emit (.record (.raw (bs.getD 2 0) true .none bs) false bs)) := by
  rw [decDeviceInfo, hf, memRead1_ofBytes _ _ h]
  simp only [andThen_next, frameBytes_ofBytes bs r hf]
  exact emitRecord_ofBytes bs _ r hf

theorem decRcChannelsPacked_ofBytes : decRcChannelsPacked r = .next (r.emit (.noop bs)) := by
  simp [decRcChannelsPacked, frameBytes_ofBytes bs r hf]

theorem decFlightMode_ofBytes (h : 5 ≤ bs.length) :
    decFlightMode r = .next (r.emit (.record (.flightMode ((bs.drop 3).take (bs.length - 5))) true bs)) := by
  rw [decFlightMode, hf, Memory.length_ofBytes, frameSlice, memSlice_ofBytes _ _ _ _ (by omega)]
  exact emitRecord_ofBytes bs _ r hf

/-- A structured type whose layout lies inside the frame. -/
theorem structured_ofBytes (layout : List Field) (record : Vector Word32 10 → Record)
    (h : ∀ fd ∈ layout, fd.off + fd.kind.width ≤ bs.length)
    (hu : (record (storeFields bs layout r.f)).update = true) :
    structured layout record r = .next ((r.setF (storeFields bs layout r.f)).emit
      (.record (record (storeFields bs layout r.f)) true bs)) := by
  rw [structured, loadFields_ofBytes bs layout r hf h, andThen_next, 
    emitRecord_ofBytes bs _ (r.setF (storeFields bs layout r.f)) hf, RxState.setF_f, hu]

theorem decLinkStatistics_ofBytes (h : 14 ≤ bs.length) :
    decLinkStatistics r = .next ((r.setF (storeFields bs linkStatisticsLayout r.f)).emit
      (.record (linkStatisticsRecord (storeFields bs linkStatisticsLayout r.f)) true bs)) :=
  structured_ofBytes hf linkStatisticsLayout linkStatisticsRecord (by simp [linkStatisticsLayout, FieldKind.width]; omega) rfl

theorem decAttitude_ofBytes (h : 10 ≤ bs.length) :
    decAttitude r = .next ((r.setF (storeFields bs attitudeLayout r.f)).emit
      (.record (attitudeRecord (storeFields bs attitudeLayout r.f)) true bs)) :=
  structured_ofBytes hf attitudeLayout attitudeRecord (by simp [attitudeLayout, FieldKind.width]; omega) rfl

theorem decBatterySensor_ofBytes (h : 12 ≤ bs.length) :
    decBatterySensor r = .next ((r.setF (storeFields bs batterySensorLayout r.f)).emit
      (.record (batterySensorRecord (storeFields bs batterySensorLayout r.f)) true bs)) :=
  structured_ofBytes hf batterySensorLayout batterySensorRecord (by simp [batterySensorLayout, FieldKind.width]; omega) rfl

theorem decBaroAlt_ofBytes (h : 8 ≤ bs.length) :
    decBaroAlt r = .next ((r.setF (storeFields bs baroAltLayout r.f)).emit
      (.record (baroAltRecord (storeFields bs baroAltLayout r.f)) true bs)) :=
  structured_ofBytes hf baroAltLayout baroAltRecord (by simp [baroAltLayout, FieldKind.width]; omega) rfl

theorem decGps_ofBytes (h : 19 ≤ bs.length) :
    decGps r = .next ((r.setF (storeFields bs gpsLayout r.f)).emit
      (.record (gpsRecord (storeFields bs gpsLayout r.f)) true bs)) :=
  structured_ofBytes hf gpsLayout gpsRecord (by simp [gpsLayout, FieldKind.width]; omega) rfl

theorem decVario_ofBytes (h : 6 ≤ bs.length) :
    decVario r = .next ((r.setF (storeFields bs varioLayout r.f)).emit
      (.record (varioRecord (storeFields bs varioLayout r.f)) true bs)) :=
  structured_ofBytes hf varioLayout varioRecord (by simp [varioLayout, FieldKind.width]; omega) rfl

end

/-! ## Dispatch -/

/-- One DEC_* operation: on every legal frame of type `t` and at least `lMin` bytes it completes; of the RX state it changes
the field registers and the event stream only; it emits one legal event, no framing or CRC error; and what it writes and emits
depends on the frame and the field registers alone. -/
def EmitsOne (lMin : Nat) (t : Byte) (op : RxState → Res RxState) : Prop :=
  ∀ bs : List Byte, LegalFrame bs → bs.getD 2 0 = t → lMin ≤ bs.length →
    ∃ (regs : Vector Word32 10 → Vector Word32 10) (event : Vector Word32 10 → Event),
      (∀ r : RxState, r.frame = Memory.ofBytes bs → op r = .next ((r.setF (regs r.f)).emit (event r.f))) ∧
      ∀ f, (event f).Legal ∧ (event f).error ≠ some .framingError ∧ (event f).error ≠ some .checksumError

theorem emitsOne_truncated {t : Byte} (ht : t ∈ packetTypes) : EmitsOne 4 t decTruncated := by
  intro bs hl h2 h4
  refine ⟨id, fun _ => _, fun r hf => decTruncated_ofBytes hf (by omega), fun _ => ⟨⟨hl, rfl, ?_⟩, nofun, nofun⟩⟩
  rintro t' k c bs' ⟨⟩
  exact ⟨rfl, rfl, by rw [h2]; exact ⟨fun _ => ht, fun _ => rfl⟩⟩

theorem emitsOne_unrecognized {t : Byte} {known : Bool} (ht : known = true ↔ t ∈ packetTypes) :
    EmitsOne 4 t (unrecognized known) := by
  intro bs hl h2 h4
  refine ⟨id, fun _ => _, fun r hf => unrecognized_ofBytes hf known (by omega), fun _ => ⟨⟨hl, rfl, ?_⟩, nofun, nofun⟩⟩
  rintro t' k c bs' ⟨⟩
  exact ⟨rfl, rfl, by rw [h2]; exact ht⟩

theorem emitsOne_deviceInfo : EmitsOne 4 0x29 decDeviceInfo := by
  intro bs hl h2 h4
  refine ⟨id, fun _ => _, fun r hf => decDeviceInfo_ofBytes hf (by omega), fun _ => ⟨⟨hl, rfl, ?_⟩, nofun, nofun⟩⟩
  rintro t' k c bs' ⟨⟩
  simp only [h2]
  decide

theorem emitsOne_rcChannelsPacked : EmitsOne 4 0x16 decRcChannelsPacked := by
  intro bs hl h2 h4
  exact ⟨id, fun _ => _, fun r hf => decRcChannelsPacked_ofBytes hf, fun _ => ⟨⟨hl, h2⟩, nofun, nofun⟩⟩

theorem emitsOne_linkStatistics : EmitsOne 14 0x14 decLinkStatistics := by
  intro bs hl _ h
  exact ⟨storeFields bs linkStatisticsLayout, fun f => .record (linkStatisticsRecord (storeFields bs linkStatisticsLayout f)) true bs, fun r hf => decLinkStatistics_ofBytes hf h, fun f => ⟨⟨hl, rfl, nofun⟩, nofun, nofun⟩⟩

theorem emitsOne_attitude : EmitsOne 10 0x1E decAttitude := by
  intro bs hl _ h
  exact ⟨storeFields bs attitudeLayout, fun f => .record (attitudeRecord (storeFields bs attitudeLayout f)) true bs, fun r hf => decAttitude_ofBytes hf h, fun f => ⟨⟨hl, rfl, nofun⟩, nofun, nofun⟩⟩

theorem emitsOne_batterySensor : EmitsOne 12 0x08 decBatterySensor := by
  intro bs hl _ h
  exact ⟨storeFields bs batterySensorLayout, fun f => .record (batterySensorRecord (storeFields bs batterySensorLayout f)) true bs, fun r hf => decBatterySensor_ofBytes hf h, fun f => ⟨⟨hl, rfl, nofun⟩, nofun, nofun⟩⟩

theorem emitsOne_baroAlt : EmitsOne 8 0x09 decBaroAlt := by
  intro bs hl _ h
  exact ⟨storeFields bs baroAltLayout, fun f => .record (baroAltRecord (storeFields bs baroAltLayout f)) true bs, fun r hf => decBaroAlt_ofBytes hf h, fun f => ⟨⟨hl, rfl, nofun⟩, nofun, nofun⟩⟩

theorem emitsOne_gps : EmitsOne 19 0x02 decGps := by
  intro bs hl _ h
  exact ⟨storeFields bs gpsLayout, fun f => .record (gpsRecord (storeFields bs gpsLayout f)) true bs, fun r hf => decGps_ofBytes hf h, fun f => ⟨⟨hl, rfl, nofun⟩, nofun, nofun⟩⟩

theorem emitsOne_vario : EmitsOne 6 0x07 decVario := by
  intro bs hl _ h
  exact ⟨storeFields bs varioLayout, fun f => .record (varioRecord (storeFields bs varioLayout f)) true bs, fun r hf => decVario_ofBytes hf h, fun f => ⟨⟨hl, rfl, nofun⟩, nofun, nofun⟩⟩

theorem emitsOne_flightMode : EmitsOne 5 0x21 decFlightMode := by
  intro bs hl _ h
  exact ⟨id, fun _ => _, fun r hf => decFlightMode_ofBytes hf h, fun f => ⟨⟨hl, rfl, nofun⟩, nofun, nofun⟩⟩

/-- The guard makes an operation of a structured type total on legal frames (R143). -/
theorem emitsOne_guarded {lMin : Nat} {t : Byte} {op : RxState → Res RxState} (ht : t ∈ packetTypes)
    (h : EmitsOne lMin t op) : EmitsOne 4 t (guarded lMin op) := by
  intro bs hl h2 h4
  have hlen (r : RxState) (hf : r.frame = Memory.ofBytes bs) : r.frame.length = bs.length := by
    rw [hf, Memory.length_ofBytes]
  by_cases hm : lMin ≤ bs.length
  · obtain ⟨regs, event, h1, h3⟩ := h bs hl h2 hm
    exact ⟨regs, event, fun r hf => by rw [guarded, if_pos (hlen r hf ▸ hm)]; exact h1 r hf, h3⟩
  · obtain ⟨regs, event, h1, h3⟩ := emitsOne_truncated ht bs hl h2 h4
    exact ⟨regs, event, fun r hf => by rw [guarded, if_neg (hlen r hf ▸ hm)]; exact h1 r hf, h3⟩

/-- The operation DECODE selects by the type byte, as a function of the type byte (R140). -/
def decodeOp (t : Byte) : RxState → Res RxState :=
  if t = 0x14 then guarded 14 decLinkStatistics
  else if t = 0x1E then guarded 10 decAttitude
  else if t = 0x21 then guarded 5 decFlightMode
  else if t = 0x08 then guarded 12 decBatterySensor
  else if t = 0x09 then guarded 8 decBaroAlt
  else if t = 0x02 then guarded 19 decGps
  else if t = 0x07 then guarded 6 decVario
  else if t = 0x29 then decDeviceInfo
  else if t = 0x16 then decRcChannelsPacked
  else if t = 0x0B then decHeartbeat
  else if t = 0x0F then decVideoTransmitter
  else if t = 0x2C then decConfigRead
  else if t = 0x2D then decConfigWrite
  else if t = 0x3A then decRadioId
  else decUnknown

theorem decodeFrame_eq_decodeOp (r : RxState) (t : Byte) (hr : memRead1 r.frame 2 = .next t) :
    decodeFrame r = decodeOp t r := by
  rw [decodeFrame, hr, andThen_next]
  simp only [decodeOp, apply_ite (fun op : RxState → Res RxState => op r)]

theorem decodeOp_emitsOne (t : Byte) : EmitsOne 4 t (decodeOp t) := by
  rw [decodeOp]
  by_cases c1 : t = 0x14
  · rw [if_pos c1, c1]; exact emitsOne_guarded (by decide) emitsOne_linkStatistics
  rw [if_neg c1]
  by_cases c2 : t = 0x1E
  · rw [if_pos c2, c2]; exact emitsOne_guarded (by decide) emitsOne_attitude
  rw [if_neg c2]
  by_cases c3 : t = 0x21
  · rw [if_pos c3, c3]; exact emitsOne_guarded (by decide) emitsOne_flightMode
  rw [if_neg c3]
  by_cases c4 : t = 0x08
  · rw [if_pos c4, c4]; exact emitsOne_guarded (by decide) emitsOne_batterySensor
  rw [if_neg c4]
  by_cases c5 : t = 0x09
  · rw [if_pos c5, c5]; exact emitsOne_guarded (by decide) emitsOne_baroAlt
  rw [if_neg c5]
  by_cases c6 : t = 0x02
  · rw [if_pos c6, c6]; exact emitsOne_guarded (by decide) emitsOne_gps
  rw [if_neg c6]
  by_cases c7 : t = 0x07
  · rw [if_pos c7, c7]; exact emitsOne_guarded (by decide) emitsOne_vario
  rw [if_neg c7]
  by_cases c8 : t = 0x29
  · rw [if_pos c8, c8]; exact emitsOne_deviceInfo
  rw [if_neg c8]
  by_cases c9 : t = 0x16
  · rw [if_pos c9, c9]; exact emitsOne_rcChannelsPacked
  rw [if_neg c9]
  by_cases c10 : t = 0x0B
  · rw [if_pos c10, c10]; exact emitsOne_unrecognized (by decide)
  rw [if_neg c10]
  by_cases c11 : t = 0x0F
  · rw [if_pos c11, c11]; exact emitsOne_unrecognized (by decide)
  rw [if_neg c11]
  by_cases c12 : t = 0x2C
  · rw [if_pos c12, c12]; exact emitsOne_unrecognized (by decide)
  rw [if_neg c12]
  by_cases c13 : t = 0x2D
  · rw [if_pos c13, c13]; exact emitsOne_unrecognized (by decide)
  rw [if_neg c13]
  by_cases c14 : t = 0x3A
  · rw [if_pos c14, c14]; exact emitsOne_unrecognized (by decide)
  rw [if_neg c14]
  refine emitsOne_unrecognized ?_
  simp only [Bool.false_eq_true, false_iff]
  rintro (h : t ∈ [0x14, 0x1E, 0x21, 0x08, 0x09, 0x02, 0x07, 0x0B, 0x0F, 0x16, 0x29, 0x2C, 0x2D, 0x3A])
  simp only [List.mem_cons, List.not_mem_nil, c1, c2, c3, c4, c5, c6, c7, c8, c9, c10, c11, c12, c13, c14, or_self] at h

/-- Everything DECODE can do on a legal frame: it completes, changes the field registers and the event stream only, and emits
exactly one legal event (R140, R166). -/
theorem decodeFrame_emitsOne (t : Byte) : EmitsOne 4 t decodeFrame := by
  intro bs hl h2 h4
  obtain ⟨regs, event, h1, h3⟩ := decodeOp_emitsOne t bs hl h2 h4
  refine ⟨regs, event, fun r hf => ?_, h3⟩
  rw [decodeFrame_eq_decodeOp r t (by rw [hf, memRead1_ofBytes _ _ (by omega), h2])]
  exact h1 r hf

end Sys2Proof.Machine
end

