-- ==== Sys2Proof/Laws/Deframer.lean ====
section
/-! SUPPORT. DEFRAMER: the arms' conditions, what each arm and the whole loop can do (R101 to R106), and that the streaming form
of R108 gives what R101 gives. -/

namespace Sys2Proof.Machine

/-! ## Conditions -/

@[simp] theorem expected_toNat (b : Byte) : (expected b).toNat = b.toNat + 2 := by
  have := b.isLt
  simp [expected]
  omega

theorem legalLen_iff (b : Byte) : legalLen b = true ↔ LegalLenByte b := by
  simp only [legalLen, expected_toNat, LegalLenByte, minTotal, maxTotal, Bool.and_eq_true, decide_eq_true_eq]
  omega

theorem headLen_of_long {buf : List Byte} (h : 3 ≤ buf.length) : headLen buf = some (buf.getD 1 0) := by
  match buf, h with
  | _ :: _ :: _ :: _, _ => rfl

theorem headLen_of_short {buf : List Byte} (h : buf.length < 3) : headLen buf = none := by
  match buf, h with
  | [], _ => rfl
  | [_], _ => rfl
  | [_, _], _ => rfl

theorem headLen_eq_some {buf : List Byte} {b : Byte} (h : headLen buf = some b) : 3 ≤ buf.length ∧ buf.getD 1 0 = b := by
  by_cases h3 : 3 ≤ buf.length
  · rw [headLen_of_long h3] at h
    exact ⟨h3, Option.some.inj h⟩
  · rw [headLen_of_short (by omega)] at h
    exact absurd h (by simp)

theorem selectArm_short {buf : List Byte} (h : buf.length < 3) : selectArm buf = .wait := by
  rw [selectArm, headLen_of_short h]

theorem selectArm_illegal {buf : List Byte} (h : 3 ≤ buf.length) (hb : ¬ LegalLenByte (buf.getD 1 0)) :
    selectArm buf = .discard := by
  rw [selectArm, headLen_of_long h]
  simp only
  rw [if_neg (by rwa [legalLen_iff])]

theorem selectArm_emit {buf : List Byte} (h : 3 ≤ buf.length) (hb : LegalLenByte (buf.getD 1 0))
    (hl : (buf.getD 1 0).toNat + 2 ≤ buf.length) : selectArm buf = .emit := by
  rw [selectArm, headLen_of_long h]
  simp only
  rw [if_pos (by rwa [legalLen_iff]), if_pos (by rwa [expected_toNat])]

theorem selectArm_wait {buf : List Byte} (h : 3 ≤ buf.length) (hb : LegalLenByte (buf.getD 1 0))
    (hl : buf.length < (buf.getD 1 0).toNat + 2) : selectArm buf = .wait := by
  rw [selectArm, headLen_of_long h]
  simp only
  rw [if_pos (by rwa [legalLen_iff]), if_neg (by rw [expected_toNat]; omega)]

theorem selectArm_eq_discard {buf : List Byte} :
    selectArm buf = .discard ↔ 3 ≤ buf.length ∧ ¬ LegalLenByte (buf.getD 1 0) := by
  by_cases h3 : 3 ≤ buf.length
  · by_cases hb : LegalLenByte (buf.getD 1 0)
    · by_cases hl : (buf.getD 1 0).toNat + 2 ≤ buf.length
      · simp only [selectArm_emit h3 hb hl, hb, reduceCtorEq, not_true, and_false]
      · simp only [selectArm_wait h3 hb (by omega), hb, reduceCtorEq, not_true, and_false]
    · simp only [selectArm_illegal h3 hb, h3, hb, not_false_eq_true, and_self]
  · simp [selectArm_short (Nat.lt_of_not_le h3), h3]

theorem selectArm_eq_emit {buf : List Byte} :
    selectArm buf = .emit ↔
      3 ≤ buf.length ∧ LegalLenByte (buf.getD 1 0) ∧ (buf.getD 1 0).toNat + 2 ≤ buf.length := by
  by_cases h3 : 3 ≤ buf.length
  · by_cases hb : LegalLenByte (buf.getD 1 0)
    · by_cases hl : (buf.getD 1 0).toNat + 2 ≤ buf.length
      · simp only [selectArm_emit h3 hb hl, h3, hb, hl, and_self]
      · simp only [selectArm_wait h3 hb (by omega), reduceCtorEq, false_iff]
        exact fun h => hl h.2.2
    · simp only [selectArm_illegal h3 hb, hb, reduceCtorEq, false_and, and_false]
  · simp [selectArm_short (Nat.lt_of_not_le h3), h3]

/-- In a residue the arm is WAIT (R22). -/
theorem selectArm_residue {buf : List Byte} (h : Residue buf) : selectArm buf = .wait := by
  by_cases h3 : 3 ≤ buf.length
  · exact selectArm_wait h3 (h.2 h3).1 (h.2 h3).2
  · exact selectArm_short (Nat.lt_of_not_le h3)

/-- Where the arm is WAIT the buffer is a residue (R22, R105). -/
theorem residue_of_wait {buf : List Byte} (h : selectArm buf = .wait) : Residue buf := by
  by_cases h3 : 3 ≤ buf.length
  · by_cases hb : LegalLenByte (buf.getD 1 0)
    · by_cases hl : (buf.getD 1 0).toNat + 2 ≤ buf.length
      · rw [selectArm_emit h3 hb hl] at h; exact absurd h (by simp)
      · exact ⟨by have := hb.2; omega, fun _ => ⟨hb, by omega⟩⟩
    · rw [selectArm_illegal h3 hb] at h; exact absurd h (by simp)
  · exact ⟨by omega, fun h => absurd h h3⟩

theorem residue_nil : Residue [] := ⟨by simp, by simp⟩

/-! ## One frame -/

/-- Everything that happens to a candidate frame (R104, R126, R166): it completes; one legal event that is no framing error is
emitted; of the RX state only the running CRC, the result bit and the field registers change besides; and all of that depends
on the frame and the field registers alone. -/
theorem acceptFrame_ofBytes (bs : List Byte) (hl : LegalFrame bs) :
    ∃ (v : Bool) (regs : Vector Word32 10 → Vector Word32 10) (event : Vector Word32 10 → Event),
      (∀ r : RxState, r.frame = Memory.ofBytes bs → acceptFrame r =
        .next ((((r.setCrcacc (crc8 (coveredBytes bs))).setValid v).setF (regs r.f)).emit (event r.f))) ∧
      ∀ f, (event f).Legal ∧ (event f).error ≠ some .framingError := by
  have h4 := hl.1
  refine ⟨crc8 (coveredBytes bs) == crcByteOf bs, ?_⟩
  by_cases hv : crc8 (coveredBytes bs) = crcByteOf bs
  · obtain ⟨regs, event, h1, h2⟩ := decodeFrame_emitsOne _ bs hl rfl h4
    refine ⟨regs, event, fun r hf => ?_, fun f => ⟨(h2 f).1, (h2 f).2.1⟩⟩
    rw [acceptFrame, validateFrame_ofBytes r bs hf h4, andThen_next, if_pos (by simpa using hv)]
    exact h1 _ hf
  · refine ⟨id, fun _ => .crcError bs (crc8 (coveredBytes bs)), fun r hf => ?_, fun f => ⟨⟨hl, rfl, hv⟩, nofun⟩⟩
    have hb : frameBytes ((r.setCrcacc (crc8 (coveredBytes bs))).setValid (crc8 (coveredBytes bs) == crcByteOf bs)) = .next bs :=
      frameBytes_ofBytes bs _ hf
    rw [acceptFrame, validateFrame_ofBytes r bs hf h4, andThen_next, if_neg (by simpa using hv), hb]
    rfl

/-- What becomes of the rest of the buffer has no part in it. -/
theorem acceptFrame_setRxbuf (bs : List Byte) (hl : LegalFrame bs) (r : RxState) (hf : r.frame = Memory.ofBytes bs)
    (buf : List Byte) : acceptFrame (r.setRxbuf buf) = mapRes (acceptFrame r) fun r => r.setRxbuf buf := by
  obtain ⟨v, regs, event, h1, -⟩ := acceptFrame_ofBytes bs hl
  rw [h1 r hf, h1 (r.setRxbuf buf) hf]
  rfl

/-- SCAN_EMIT where its condition holds: the frame leaves the buffer and one legal event is emitted. -/
theorem scanEmit_spec (r : RxState) (hb : LegalLenByte (r.rxbuf.getD 1 0))
    (hl : (r.rxbuf.getD 1 0).toNat + 2 ≤ r.rxbuf.length) :
    let n := (r.rxbuf.getD 1 0).toNat + 2
    ∃ c v f e, scanEmit r =
      .next ((((((r.setFrame (Memory.ofBytes (r.rxbuf.take n))).setRxbuf (r.rxbuf.drop n)).setCrcacc c).setValid v).setF
        f).emit e) ∧ e.Legal ∧ e.error ≠ some .framingError := by
  intro n
  have hlen : (r.rxbuf.take n).length = n := by simp only [List.length_take]; omega
  obtain ⟨v, regs, event, h1, h2⟩ := acceptFrame_ofBytes (r.rxbuf.take n)
    ⟨by rw [hlen]; have := hb.1; omega, by rw [hlen]; have := hb.2; omega⟩
  exact ⟨_, v, regs r.f, event r.f, by rw [scanEmit]; simp only [expected_toNat]; exact h1 _ rfl, h2 r.f⟩

/-! ## The loop -/

/-- The fuel is only a bound: any amount that covers the buffer gives the same result (R106). -/
theorem scanLoop_fuel (m n : Nat) (r : RxState) (hm : r.rxbuf.length ≤ m) (hn : r.rxbuf.length ≤ n) :
    scanLoop m r = scanLoop n r := by
  induction m generalizing n r with
  | zero =>
    cases n with
    | zero => rfl
    | succ n =>
      rw [scanLoop, scanLoop, selectArm_short (by omega)]
      rfl
  | succ m ih =>
    cases n with
    | zero =>
      rw [scanLoop, scanLoop, selectArm_short (by omega)]
      rfl
    | succ n =>
      rw [scanLoop, scanLoop]
      cases ha : selectArm r.rxbuf with
      | discard => rfl
      | wait => rfl
      | emit =>
        obtain ⟨h3, hb, hl⟩ := selectArm_eq_emit.1 ha
        obtain ⟨c, v, f, e, he, -⟩ := scanEmit_spec r hb hl
        simp only [he, andThen_next]
        exact ih n _ (by simp; omega) (by simp; omega)

/-- Everything one pass can do from a state with DROP = 0 (R101, R103, R105, R106): it completes; it leaves a residue; it
emits legal events of which only the last can be a framing error, and after a framing error the buffer is empty; every event
but a framing error took at least 4 bytes of the buffer. -/
structure PassResult (r r' : RxState) : Prop where
  residue : Residue r'.rxbuf
  drop : r'.drop = r.drop
  frame : r'.frame = r.frame ∨ ∃ bs : List Byte, bs.length ≤ 64 ∧ r'.frame = Memory.ofBytes bs
  events : ∃ es last, r'.events = r.events ++ es ++ last ∧ (∀ e ∈ es ++ last, e.Legal) ∧
    (∀ e ∈ es, e.error ≠ some .framingError) ∧ 4 * es.length + r'.rxbuf.length ≤ r.rxbuf.length ∧
    (last = [] ∨ ∃ n b, last = [.framingError n b] ∧ r'.rxbuf = [] ∧ 4 * es.length + n ≤ r.rxbuf.length)

theorem scanLoop_spec (n : Nat) (r : RxState) (hn : r.rxbuf.length ≤ n) :
    ∃ r', scanLoop n r = .next r' ∧ PassResult r r' := by
  induction n generalizing r with
  | zero =>
    have h0 : r.rxbuf = [] := List.length_eq_zero_iff.1 (by omega)
    exact ⟨r, rfl, ⟨h0 ▸ residue_nil, rfl, .inl rfl, [], [], by simp, by simp, by simp, by simp, .inl rfl⟩⟩
  | succ n ih =>
    rw [scanLoop]
    cases ha : selectArm r.rxbuf with
    | wait =>
      exact ⟨r, rfl, ⟨residue_of_wait ha, rfl, .inl rfl, [], [], by simp, by simp, by simp, by simp, .inl rfl⟩⟩
    | discard =>
      obtain ⟨h3, hb⟩ := selectArm_eq_discard.1 ha
      refine ⟨_, rfl, ⟨residue_nil, rfl, .inl rfl, [], [.framingError r.rxbuf.length (r.rxbuf.getD 1 0)], ?_, ?_, by simp, ?_,
        .inr ⟨_, _, rfl, rfl, by simp⟩⟩⟩
      · simp [scanDiscard, RxError.event]
      · intro e he
        obtain rfl : e = _ := List.mem_singleton.1 he
        exact ⟨h3, hb⟩
      · simp [scanDiscard]
    | emit =>
      obtain ⟨h3, hb, hl⟩ := selectArm_eq_emit.1 ha
      obtain ⟨c, v, f, e, he, hle, hne⟩ := scanEmit_spec r hb hl
      have hd : (r.rxbuf.drop ((r.rxbuf.getD 1 0).toNat + 2)).length + 4 ≤ r.rxbuf.length := by
        have := hb.1
        simp only [List.length_drop]
        omega
      have ht : (r.rxbuf.take ((r.rxbuf.getD 1 0).toNat + 2)).length ≤ 64 := by
        have := hb.2
        simp only [List.length_take]
        omega
      simp only [he, andThen_next]
      obtain ⟨r', hr', hp⟩ := ih ((((((r.setFrame (Memory.ofBytes (r.rxbuf.take ((r.rxbuf.getD 1 0).toNat + 2)))).setRxbuf
        (r.rxbuf.drop ((r.rxbuf.getD 1 0).toNat + 2))).setCrcacc c).setValid v).setF f).emit e)
        (by simp only [RxState.emit_rxbuf, RxState.setF_rxbuf, RxState.setValid_rxbuf, RxState.setCrcacc_rxbuf,
              RxState.setRxbuf_rxbuf]; omega)
      obtain ⟨es, last, h1, h2, h4, h5, h6⟩ := hp.events
      simp only [RxState.emit_rxbuf, RxState.setF_rxbuf, RxState.setValid_rxbuf, RxState.setCrcacc_rxbuf,
        RxState.setRxbuf_rxbuf] at h5 h6
      refine ⟨r', hr', hp.residue, hp.drop, ?_, e :: es, last, ?_, ?_, ?_, ?_, ?_⟩
      · rcases hp.frame with hfr | hfr
        · exact .inr ⟨_, ht, hfr⟩
        · exact .inr hfr
      · simpa using h1
      · intro x hx
        rcases List.mem_cons.1 hx with rfl | hx
        · exact hle
        · exact h2 x hx
      · intro x hx
        rcases List.mem_cons.1 hx with rfl | hx
        · exact hne
        · exact h4 x hx
      · simp only [List.length_cons]
        omega
      · rcases h6 with h6 | ⟨n, b, h6, h7, h8⟩
        · exact .inl h6
        · exact .inr ⟨n, b, h6, h7, by simp only [List.length_cons]; omega⟩

theorem getD_append_left {α : Type} (s t : List α) (i : Nat) (d : α) (h : i < s.length) : (s ++ t).getD i d = s.getD i d := by
  simp [List.getD_eq_getElem?_getD, List.getElem?_append_left h]

/-! ## The streaming form -/

/-- One chunk taken byte by byte, without its end (R108). -/
def streamBytes : List Byte → RxState → Res RxState
  | [], r => .next r
  | b :: bs, r => andThen (rxByte r b) (streamBytes bs)

/-- While DROP = 1 the bytes are only counted. -/
theorem streamBytes_drop (bs : List Byte) (r : RxState) (d : Discard) (hd : r.drop = some d) :
    streamBytes bs r = .next (r.setDrop (some { d with ndisc := d.ndisc + bs.length })) := by
  induction bs generalizing r d with
  | nil => simp [streamBytes, RxState.setDrop, ← hd]
  | cons b bs ih =>
    rw [streamBytes, rxByte, hd]
    simp only [andThen_next]
    rw [ih _ { d with ndisc := d.ndisc + 1 } rfl]
    simp [RxState.setDrop]
    omega

/-- The streaming form of a chunk and its end give what the pass of R101 over the whole chunk gives, from every residue
(R108). -/
theorem streamBytes_eq_scanLoop (bs : List Byte) (r : RxState) (hd : r.drop = none) (hr : Residue r.rxbuf) :
    mapRes (streamBytes bs r) chunkEnd = scanLoop (r.rxbuf ++ bs).length (r.setRxbuf (r.rxbuf ++ bs)) := by
  induction bs generalizing r with
  | nil =>
    simp only [List.append_nil, streamBytes, mapRes_next, chunkEnd, hd]
    rw [scanLoop_fuel _ (r.rxbuf.length + 1) (r.setRxbuf r.rxbuf) (by simp) (by simp), scanLoop,
      RxState.setRxbuf_rxbuf, selectArm_residue hr]
    rfl
  | cons b bs ih =>
    have hsplit : r.rxbuf ++ b :: bs = (r.rxbuf ++ [b]) ++ bs := by simp
    rw [streamBytes, rxByte, hd]
    simp only
    by_cases h3 : 3 ≤ (r.rxbuf ++ [b]).length
    · have hget : (r.rxbuf ++ b :: bs).getD 1 0 = (r.rxbuf ++ [b]).getD 1 0 := by
        rw [hsplit, getD_append_left _ _ _ _ (by omega)]
      have hlen : (r.rxbuf ++ b :: bs).length = (r.rxbuf ++ [b]).length + bs.length := by simp; omega
      rw [headLen_of_long h3]
      simp only
      by_cases hb : LegalLenByte ((r.rxbuf ++ [b]).getD 1 0)
      · rw [if_pos ((legalLen_iff _).2 hb), expected_toNat]
        by_cases he : (r.rxbuf ++ [b]).length = ((r.rxbuf ++ [b]).getD 1 0).toNat + 2
        · have hleg : LegalFrame (r.rxbuf ++ [b]) := by
            have h1 := hb.1
            have h2 := hb.2
            exact ⟨by omega, by omega⟩
          obtain ⟨v, regs, event, h1, -⟩ := acceptFrame_ofBytes (r.rxbuf ++ [b]) hleg
          rw [if_pos he, h1 _ rfl, andThen_next]
          refine (ih _ ?_ ?_).trans ?_
          · exact hd
          · exact residue_nil
          rw [scanLoop_fuel _ ((r.rxbuf ++ b :: bs).length + 1) (r.setRxbuf (r.rxbuf ++ b :: bs)) (by simp) (by simp), scanLoop,
            RxState.setRxbuf_rxbuf, selectArm_emit (by omega) (by rwa [hget]) (by rw [hget]; omega)]
          simp only [scanEmit, expected_toNat, RxState.setRxbuf_rxbuf]
          rw [hget, ← he, hsplit, List.take_left, List.drop_left, h1 _ rfl, andThen_next]
          exact scanLoop_fuel _ _ _ (by simp) (by simp; omega)
        · rw [if_neg he, andThen_next]
          refine (ih (r.setRxbuf (r.rxbuf ++ [b])) hd ?_).trans ?_
          · have hlt : (r.rxbuf ++ [b]).length < ((r.rxbuf ++ [b]).getD 1 0).toNat + 2 := by
              by_cases h2 : 3 ≤ r.rxbuf.length
              · have := (hr.2 h2).2
                rw [getD_append_left _ _ _ _ (by omega)] at he ⊢
                simp only [List.length_append, List.length_singleton] at he ⊢
                omega
              · have := hb.1
                simp only [List.length_append, List.length_singleton] at he ⊢
                omega
            have := hb.2
            exact ⟨by rw [RxState.setRxbuf_rxbuf]; omega, fun _ => ⟨hb, hlt⟩⟩
          · rw [hsplit]
            rfl
      · rw [if_neg (by rwa [legalLen_iff]), andThen_next, streamBytes_drop bs _ _ rfl, mapRes_next,
          scanLoop_fuel _ ((r.rxbuf ++ b :: bs).length + 1) _ (by simp) (by simp), scanLoop, RxState.setRxbuf_rxbuf,
          selectArm_illegal (by omega) (by rwa [hget])]
        simp only [chunkEnd, scanDiscard, hlen, hget, RxState.setDrop, RxState.setRxbuf, hd]
    · rw [headLen_of_short (by omega), andThen_next,
        ih (r.setRxbuf (r.rxbuf ++ [b])) hd ⟨by simp at h3 ⊢; omega, fun h => absurd h h3⟩, hsplit]
      rfl

/-- Before 3 bytes are buffered a length class does nothing (R102, log entry 15). -/
theorem lenRow_short {b : Byte} {op : RxState → Res RxState} {r : RxState} (h : r.rxbuf.length < 3) :
    lenRow true b op r = .next r := by
  rw [lenRow, if_pos rfl, headLen_of_short h]

end Sys2Proof.Machine
end

