-- ==== Sys2Proof/Laws/Fields.lean ====
section
/-! SUPPORT. What the raw value of each field kind is as an integer (spec/30_encoding.md R77, R78). -/

namespace Sys2Proof.Machine

theorem u8At_lt (bs : List Byte) (k : Nat) : u8At bs k < 256 := (bs.getD k 0).isLt

/-- The signed reading of a bit vector. -/
theorem toInt_eq_signed {w : Nat} (x : BitVec w) (hw : 0 < w) : x.toInt = signed w x.toNat := by
  obtain ⟨n, rfl⟩ : ∃ n, w = n + 1 := ⟨w - 1, by omega⟩
  rw [BitVec.toInt_eq_toNat_cond, signed, Nat.add_sub_cancel]
  have h2 : 2 ^ (n + 1) = 2 * 2 ^ n := by rw [Nat.pow_succ, Nat.mul_comm]
  by_cases h : x.toNat < 2 ^ n
  · rw [if_pos h, if_pos (by omega)]
  · rw [if_neg h, if_neg (by omega)]
    simp

theorem toNat_append2 (a b : Byte) : (a ++ b : BitVec 16).toNat = a.toNat * 256 + b.toNat := by
  rw [BitVec.toNat_append, ← Nat.shiftLeft_add_eq_or_of_lt b.isLt, Nat.shiftLeft_eq]

theorem toNat_append4 (a b c d : Byte) :
    ((a ++ b : BitVec 16) ++ (c ++ d : BitVec 16) : BitVec 32).toNat =
      (a.toNat * 256 + b.toNat) * 65536 + (c.toNat * 256 + d.toNat) := by
  rw [BitVec.toNat_append, ← Nat.shiftLeft_add_eq_or_of_lt (c ++ d : BitVec 16).isLt, Nat.shiftLeft_eq, toNat_append2,
    toNat_append2]

theorem rawOf_u8 (bs : List Byte) (k : Nat) : (rawOf bs k .u8).toInt = u8At bs k := by
  have h := u8At_lt bs k
  have hn : ((bs.getD k 0).setWidth 32).toNat = u8At bs k := by
    rw [BitVec.toNat_setWidth, u8At]
    exact Nat.mod_eq_of_lt (by have := (bs.getD k 0).isLt; omega)
  rw [rawOf, BitVec.toInt_eq_toNat_cond, hn, if_pos (by omega)]

theorem rawOf_s8 (bs : List Byte) (k : Nat) : (rawOf bs k .s8).toInt = s8At bs k := by
  rw [rawOf, BitVec.toInt_signExtend_of_le (by omega), toInt_eq_signed _ (by omega)]
  rfl

theorem rawOf_s16be (bs : List Byte) (k : Nat) : (rawOf bs k .s16be).toInt = s16At bs k := by
  rw [rawOf, BitVec.toInt_signExtend_of_le (by omega), toInt_eq_signed _ (by omega), toNat_append2]
  rfl

theorem rawOf_s32be (bs : List Byte) (k : Nat) : (rawOf bs k .s32be).toInt = s32At bs k := by
  rw [rawOf, toInt_eq_signed _ (by omega), toNat_append4]
  rfl

theorem s16At_bounds (bs : List Byte) (k : Nat) : -32768 ≤ s16At bs k ∧ s16At bs k ≤ 32767 := by
  have h1 := u8At_lt bs k
  have h2 := u8At_lt bs (k + 1)
  rw [s16At, signed, u16At]
  by_cases h : u8At bs k * 256 + u8At bs (k + 1) < 2 ^ (16 - 1)
  · rw [if_pos h]; omega
  · rw [if_neg h]; omega

/-- The biased field (GPS altitude): no overflow (R145). -/
theorem rawOf_altitude (bs : List Byte) (k : Nat) : (rawOf bs k .s16be + (-1000 : Word32)).toInt = s16At bs k - 1000 := by
  have h := s16At_bounds bs k
  have e : (-1000 : Word32).toInt = -1000 := by decide
  rw [BitVec.toInt_add, rawOf_s16be, e, Int.bmod_eq_of_le (by omega) (by omega)]
  omega

theorem rawOf_mah (bs : List Byte) (k : Nat) :
    (rawOf bs k .mah).toNat = u8At bs k <<< 16 ||| u8At bs (k + 1) <<< 7 ||| u8At bs (k + 2) := by
  have h0 := u8At_lt bs k
  have h1 := u8At_lt bs (k + 1)
  have h2 := u8At_lt bs (k + 2)
  simp only [u8At] at h0 h1 h2 ⊢
  simp only [rawOf, BitVec.toNat_or, BitVec.toNat_shiftLeft, BitVec.toNat_setWidth]
  rw [Nat.mod_eq_of_lt (a := (bs.getD k 0).toNat) (by omega), Nat.mod_eq_of_lt (a := (bs.getD (k + 1) 0).toNat) (by omega),
    Nat.mod_eq_of_lt (a := (bs.getD (k + 2) 0).toNat) (by omega), Nat.mod_eq_of_lt (a := _ <<< 16) (by rw [Nat.shiftLeft_eq]; omega),
    Nat.mod_eq_of_lt (a := _ <<< 7) (by rw [Nat.shiftLeft_eq]; omega)]

/-- The register a field of the layout goes to holds that field's value, where no two fields share a register. -/
theorem getElem_storeFields_mem (bs : List Byte) (fds : List Field) (f : Vector Word32 10) (fd : Field) (h : fd ∈ fds)
    (hn : (fds.map Field.slot).Nodup) : (storeFields bs fds f)[fd.slot] = rawOf bs fd.off fd.kind + fd.bias := by
  induction fds generalizing f with
  | nil => exact absurd h (by simp)
  | cons g fds ih =>
    rw [List.map_cons, List.nodup_cons] at hn
    rcases List.mem_cons.1 h with rfl | h
    · have := getElem_storeFields bs fds (f.set fd.slot (rawOf bs fd.off fd.kind + fd.bias)) fd.slot (fun g hg e =>
        hn.1 (List.mem_map.2 ⟨g, hg, e⟩))
      exact this.trans (by simp)
    · exact ih _ h hn.2

/-- The same at a register number, for a field without a bias. -/
theorem getElem_storeFields_raw (bs : List Byte) (fds : List Field) (f : Vector Word32 10) (i : Nat) (hi : i < 10) (off : Nat)
    (kind : FieldKind) (h : { slot := ⟨i, hi⟩, off := off, kind := kind : Field } ∈ fds) (hn : (fds.map Field.slot).Nodup) :
    (storeFields bs fds f)[i] = rawOf bs off kind := by
  have := getElem_storeFields_mem bs fds f _ h hn
  simpa using this

end Sys2Proof.Machine
end

