-- ==== Sys2Proof/Laws/Pack.lean ====
section
/-! SUPPORT. PACK: the accumulator form of R184 computes the closed form of R183, and what CH_LOAD, COMMIT and the sending of a
frame do. -/

namespace Sys2Proof.Machine

/-! ## The packer -/

/-- The little-endian number of the first `k` bytes of `PK`. -/
def bytesNumber (pk : Vector Byte 22) : Nat → Nat
  | 0 => 0
  | k + 1 => bytesNumber pk k + (pk.toList.getD k 0).toNat * 2 ^ (8 * k)

/-- The number of the channel values `vs` laid end to end from channel `i` on. -/
def chanNumber (i : Nat) : List Chan → Nat
  | [] => 0
  | v :: vs => v.toNat * 2 ^ (11 * i) + chanNumber (i + 1) vs

/-- What the packer has taken in: the bytes completed and the bits pending above them. -/
def Packer.number (p : Packer) : Nat :=
  bytesNumber p.pk p.k + p.acc.toNat * 2 ^ (8 * p.k)

theorem bytesNumber_set (pk : Vector Byte 22) (k m : Nat) (b : Byte) (h : m ≤ k) :
    bytesNumber (pk.setIfInBounds k b) m = bytesNumber pk m := by
  induction m with
  | zero => rfl
  | succ m ih =>
    have hm : k ≠ m := by omega
    simp [bytesNumber, ih (by omega), List.getD_eq_getElem?_getD, hm]

theorem bytesNumber_set_succ (pk : Vector Byte 22) (k : Nat) (b : Byte) (h : k < 22) :
    bytesNumber (pk.setIfInBounds k b) (k + 1) = bytesNumber pk k + b.toNat * 2 ^ (8 * k) := by
  simp [bytesNumber, bytesNumber_set pk k k b (Nat.le_refl k), List.getD_eq_getElem?_getD, h]

theorem bytesNumber_lt (pk : Vector Byte 22) (k : Nat) : bytesNumber pk k < 2 ^ (8 * k) := by
  induction k with
  | zero => simp [bytesNumber]
  | succ k ih =>
    have hb := (pk.toList.getD k 0).isLt
    have h8 : 2 ^ (8 * (k + 1)) = 256 * 2 ^ (8 * k) := by
      rw [show 8 * (k + 1) = 8 + 8 * k by omega, Nat.pow_add]
    have : (pk.toList.getD k 0).toNat * 2 ^ (8 * k) ≤ 255 * 2 ^ (8 * k) := Nat.mul_le_mul_right _ (by omega)
    simp only [bytesNumber]
    omega

/-- The bytes are the digits of their number. -/
theorem bytesNumber_digit (pk : Vector Byte 22) (m k : Nat) (h : k < m) :
    bytesNumber pk m / 2 ^ (8 * k) % 256 = (pk.toList.getD k 0).toNat := by
  induction m with
  | zero => omega
  | succ m ih =>
    have hp : 0 < 2 ^ (8 * k) := Nat.two_pow_pos _
    rw [bytesNumber]
    by_cases hk : k = m
    · subst hk
      rw [Nat.add_mul_div_right _ _ hp, Nat.div_eq_of_lt (bytesNumber_lt pk k), Nat.zero_add]
      exact Nat.mod_eq_of_lt (pk.toList.getD k 0).isLt
    · rw [show 8 * m = 8 * (m - k - 1) + 8 + 8 * k by omega, Nat.pow_add, ← Nat.mul_assoc, Nat.add_mul_div_right _ _ hp,
        Nat.pow_add, ← Nat.mul_assoc, Nat.add_mul_mod_self_right]
      exact ih (by omega)

/-- Draining completes every whole byte pending, in order, and keeps the number (R184). -/
theorem drainPacker_spec (fuel : Nat) (p : Packer) (hn : p.n.toNat < 8 * (fuel + 1)) (hk : p.k + p.n.toNat / 8 ≤ 22)
    (ha : p.acc.toNat < 2 ^ p.n.toNat) :
    (drainPacker fuel p).number = p.number ∧ (drainPacker fuel p).n.toNat = p.n.toNat % 8 ∧
      (drainPacker fuel p).k = p.k + p.n.toNat / 8 ∧ (drainPacker fuel p).acc.toNat < 2 ^ (p.n.toNat % 8) := by
  induction fuel generalizing p with
  | zero =>
    have h8 : p.n.toNat < 8 := by omega
    rw [drainPacker, Nat.mod_eq_of_lt h8, Nat.div_eq_of_lt h8]
    exact ⟨rfl, rfl, rfl, ha⟩
  | succ fuel ih =>
    rw [drainPacker]
    by_cases h8 : 8 ≤ p.n.toNat
    · rw [if_pos h8]
      have hn8 : (p.n - 8).toNat = p.n.toNat - 8 := BitVec.toNat_sub_of_le (by simpa [BitVec.le_def] using h8)
      have hs : (p.acc >>> 8).toNat = p.acc.toNat / 256 := by simp [BitVec.toNat_ushiftRight, Nat.shiftRight_eq_div_pow]
      have hpow : 2 ^ p.n.toNat = 2 ^ (p.n.toNat - 8) * 256 := by
        rw [show (256 : Nat) = 2 ^ 8 by rfl, ← Nat.pow_add, Nat.sub_add_cancel h8]
      have hacc : p.acc.toNat / 256 < 2 ^ (p.n.toNat - 8) := by
        rw [Nat.div_lt_iff_lt_mul (by omega)]
        omega
      obtain ⟨h1, h2, h3, h4⟩ := ih
        { acc := p.acc >>> 8, n := p.n - 8, pk := p.pk.setIfInBounds p.k (p.acc.setWidth 8), k := p.k + 1 }
        (by simp only [hn8]; omega) (by simp only [hn8]; omega) (by simp only [hn8, hs]; exact hacc)
      simp only [hn8] at h2 h3 h4
      have hm : (p.n.toNat - 8) % 8 = p.n.toNat % 8 := by omega
      have hd : p.k + 1 + (p.n.toNat - 8) / 8 = p.k + p.n.toNat / 8 := by omega
      refine ⟨h1.trans ?_, by omega, by omega, by rwa [hm] at h4⟩
      have hb : (p.acc.setWidth 8).toNat = p.acc.toNat % 256 := by simp
      have h16 : 2 ^ (8 * (p.k + 1)) = 256 * 2 ^ (8 * p.k) := by
        rw [show 8 * (p.k + 1) = 8 + 8 * p.k by omega, Nat.pow_add]
      simp only [Packer.number, bytesNumber_set_succ p.pk p.k _ (by omega : p.k < 22), hb, hs, h16]
      have hdm := Nat.div_add_mod p.acc.toNat 256
      calc bytesNumber p.pk p.k + p.acc.toNat % 256 * 2 ^ (8 * p.k) + p.acc.toNat / 256 * (256 * 2 ^ (8 * p.k))
          = bytesNumber p.pk p.k + (256 * (p.acc.toNat / 256) + p.acc.toNat % 256) * 2 ^ (8 * p.k) := by
            rw [Nat.add_mul, Nat.mul_comm 256 (p.acc.toNat / 256), Nat.mul_assoc]
            omega
        _ = _ := by rw [hdm]
    · rw [if_neg h8]
      have h8 : p.n.toNat < 8 := by omega
      rw [Nat.mod_eq_of_lt h8, Nat.div_eq_of_lt h8]
      exact ⟨rfl, rfl, rfl, ha⟩

/-- One channel value is added at the free bit position (R184). -/
theorem packValue_spec (p : Packer) (v : Chan) (i : Nat) (hi : i < 16) (hn : p.n.toNat < 8)
    (ha : p.acc.toNat < 2 ^ p.n.toNat) (hk : 8 * p.k + p.n.toNat = 11 * i) :
    (packValue p v).number = p.number + v.toNat * 2 ^ (11 * i) ∧ (packValue p v).n.toNat < 8 ∧
      (packValue p v).acc.toNat < 2 ^ (packValue p v).n.toNat ∧
      8 * (packValue p v).k + (packValue p v).n.toNat = 11 * (i + 1) := by
  have hv := v.isLt
  have hpow : 2 ^ p.n.toNat ≤ 2 ^ 7 := Nat.pow_le_pow_right (by omega) (by omega)
  have hpos : 0 < 2 ^ p.n.toNat := Nat.two_pow_pos _
  have hvp : v.toNat * 2 ^ p.n.toNat < 2 ^ 11 * 2 ^ p.n.toNat := Nat.mul_lt_mul_of_pos_right hv hpos
  have h18 : v.toNat % 2 ^ 18 = v.toNat := Nat.mod_eq_of_lt (by omega)
  have hsh : (v.setWidth 18 <<< p.n.toNat).toNat = v.toNat * 2 ^ p.n.toNat := by
    rw [BitVec.toNat_shiftLeft, BitVec.toNat_setWidth, h18, Nat.shiftLeft_eq, Nat.mod_eq_of_lt (by omega)]
  have hor : (p.acc ||| (v.setWidth 18 <<< p.n.toNat)).toNat = p.acc.toNat + v.toNat * 2 ^ p.n.toNat := by
    rw [BitVec.toNat_or, hsh, Nat.or_comm, Nat.mul_comm, ← Nat.two_pow_add_eq_or_of_lt ha, Nat.add_comm]
  have hn11 : (p.n + 11).toNat = p.n.toNat + 11 := by
    rw [BitVec.toNat_add]
    exact Nat.mod_eq_of_lt (by simp; omega)
  obtain ⟨h1, h2, h3, h4⟩ := drainPacker_spec 4
    { p with acc := p.acc ||| (v.setWidth 18 <<< p.n.toNat), n := p.n + 11 }
    (by simp only [hn11]; omega) (by simp only [hn11]; omega)
    (by have : v.toNat * 2 ^ p.n.toNat ≤ 2047 * 2 ^ p.n.toNat := Nat.mul_le_mul_right _ (by omega)
        simp only [hn11, hor, Nat.pow_add]
        omega)
  simp only [hn11] at h2 h3 h4
  refine ⟨?_, ?_, ?_, ?_⟩
  · rw [packValue, h1]
    simp only [Packer.number, hor]
    rw [Nat.add_mul, Nat.mul_assoc v.toNat, ← Nat.pow_add, show p.n.toNat + 8 * p.k = 11 * i by omega]
    omega
  · rw [packValue, h2]; omega
  · rw [packValue, h2]; exact h4
  · rw [packValue, h2, h3]; omega

/-- The whole run over the channel values from channel `i` on. -/
theorem foldl_packValue (vs : List Chan) (p : Packer) (i : Nat) (hi : i + vs.length ≤ 16) (hn : p.n.toNat < 8)
    (ha : p.acc.toNat < 2 ^ p.n.toNat) (hk : 8 * p.k + p.n.toNat = 11 * i) :
    (vs.foldl packValue p).number = p.number + chanNumber i vs ∧ (vs.foldl packValue p).n.toNat < 8 ∧
      (vs.foldl packValue p).acc.toNat < 2 ^ (vs.foldl packValue p).n.toNat ∧
      8 * (vs.foldl packValue p).k + (vs.foldl packValue p).n.toNat = 11 * (i + vs.length) := by
  induction vs generalizing p i with
  | nil => exact ⟨rfl, hn, ha, hk⟩
  | cons v vs ih =>
    simp only [List.length_cons] at hi
    obtain ⟨h1, h2, h3, h4⟩ := packValue_spec p v i (by omega) hn ha hk
    obtain ⟨g1, g2, g3, g4⟩ := ih (packValue p v) (i + 1) (by omega) h2 h3 h4
    refine ⟨?_, g2, g3, ?_⟩
    · rw [List.foldl_cons, g1, h1, chanNumber]; omega
    · rw [List.foldl_cons, g4, List.length_cons]; omega

theorem sum_range_eq_chanNumber (vs : List Chan) (k : Nat) :
    ((List.range vs.length).map fun i => (vs.getD i 0).toNat * 2 ^ (11 * (k + i))).sum = chanNumber k vs := by
  induction vs generalizing k with
  | nil => rfl
  | cons v vs ih =>
    rw [List.length_cons, List.range_succ_eq_map, List.map_cons, List.sum_cons, List.map_map, chanNumber, ← ih (k + 1)]
    congr 1
    congr 1
    apply List.map_congr_left
    intro i _
    simp [show k + (i + 1) = k + 1 + i by omega]

theorem packedNumber_eq (ch : Vector Chan 16) : packedNumber ch = chanNumber 0 ch.toList := by
  have := sum_range_eq_chanNumber ch.toList 0
  simpa [packedNumber] using this

/-- With nothing pending the number is that of the bytes completed. -/
theorem Packer.number_of_acc_zero (p : Packer) (h : p.acc.toNat = 0) : p.number = bytesNumber p.pk p.k := by
  rw [Packer.number, h, Nat.zero_mul, Nat.add_zero]

theorem Packer.number_empty (pk : Vector Byte 22) : Packer.number { acc := 0, n := 0, pk := pk, k := 0 } = 0 := rfl

/-- Bytes whose number is the packed number are the packed bytes. -/
theorem toList_eq_packedBytes (pk : Vector Byte 22) (ch : Vector Chan 16) (m : Nat) (hm : m = 22)
    (h : bytesNumber pk m = packedNumber ch) : pk.toList = packedBytes ch := by
  apply List.ext_getElem
  · simp [packedBytes]
  · intro k hk1 hk2
    have hk22 : k < 22 := by simpa using hk1
    have hd := bytesNumber_digit pk m k (by omega)
    rw [h] at hd
    apply BitVec.eq_of_toNat_eq
    simp only [packedBytes, List.getElem_map, List.getElem_range, BitVec.toNat_ofNat, hd]
    simp [List.getD_eq_getElem?_getD, hk22]

/-- PACK: nothing is left pending, and `PK[k] = P[8*k+7 : 8*k]` (R183, R184). -/
theorem packChannels_spec (t : TxState) :
    ∃ pk : Vector Byte 22, packChannels t = t.setPacker 0 0 pk ∧ pk.toList = packedBytes t.ch := by
  have hlen : t.ch.toList.length = 16 := by simp
  obtain ⟨h1, h2, h3, h4⟩ := foldl_packValue t.ch.toList { acc := 0, n := 0, pk := t.pk, k := 0 } 0 (by omega) (by simp)
    (by simp) (by simp)
  rw [hlen] at h4
  have hn : (t.ch.toList.foldl packValue { acc := 0, n := 0, pk := t.pk, k := 0 }).n.toNat = 0 := by omega
  have hk : (t.ch.toList.foldl packValue { acc := 0, n := 0, pk := t.pk, k := 0 }).k = 22 := by omega
  rw [hn] at h3
  have ha : (t.ch.toList.foldl packValue { acc := 0, n := 0, pk := t.pk, k := 0 }).acc.toNat = 0 := by omega
  refine ⟨(t.ch.toList.foldl packValue { acc := 0, n := 0, pk := t.pk, k := 0 }).pk, ?_, ?_⟩
  · simp only [packChannels]
    rw [BitVec.eq_of_toNat_eq (y := 0) ha, BitVec.eq_of_toNat_eq (y := 0) hn]
  · refine toList_eq_packedBytes _ _ _ hk ?_
    rw [← Packer.number_of_acc_zero _ ha, h1, Packer.number_empty, Nat.zero_add, packedNumber_eq]

/-! ## CH_LOAD -/

/-- CH_LOAD while the set has room: the value goes to the next channel (R181). -/
theorem loadChannel_room (t : TxState) (v : Chan) (h : t.chcnt.toNat < 16) :
    loadChannel t v = (t.setCh (t.ch.set t.chcnt.toNat v h)).setChcnt (t.chcnt + 1) := by
  rw [loadChannel]
  simp only [h, dite_true]
  rw [if_pos (by omega)]

/-- CH_LOAD of the seventeenth value: counted, not stored (R181). -/
theorem loadChannel_16 (t : TxState) (v : Chan) (h : t.chcnt.toNat = 16) : loadChannel t v = t.setChcnt (t.chcnt + 1) := by
  rw [loadChannel]
  simp only [show ¬ t.chcnt.toNat < 16 by omega, dite_false]
  rw [if_pos (by omega)]

/-- CH_LOAD at the saturated count: nothing (R181). -/
theorem loadChannel_17 (t : TxState) (v : Chan) (h : 17 ≤ t.chcnt.toNat) : loadChannel t v = t := by
  rw [loadChannel]
  simp only [show ¬ t.chcnt.toNat < 16 by omega, dite_false]
  rw [if_neg (by omega)]

/-- What CH_LOAD can touch. -/
theorem loadChannel_frame (t : TxState) (v : Chan) : ∃ ch n, loadChannel t v = (t.setCh ch).setChcnt n := by
  rcases Nat.lt_or_ge t.chcnt.toNat 16 with h | h
  · exact ⟨_, _, loadChannel_room t v h⟩
  · rcases Nat.lt_or_ge t.chcnt.toNat 17 with h' | h'
    · exact ⟨t.ch, _, loadChannel_16 t v (by omega)⟩
    · exact ⟨t.ch, t.chcnt, loadChannel_17 t v h'⟩

theorem loadChannel_chcnt (t : TxState) (v : Chan) : (loadChannel t v).chcnt.toNat = min (t.chcnt.toNat + 1) (max t.chcnt.toNat 17) := by
  have h1 (h : t.chcnt.toNat < 17) : (t.chcnt + 1).toNat = t.chcnt.toNat + 1 := by
    rw [BitVec.toNat_add]
    exact Nat.mod_eq_of_lt (by simp; omega)
  rcases Nat.lt_or_ge t.chcnt.toNat 16 with h | h
  · rw [loadChannel_room t v h, TxState.setChcnt_chcnt, h1 (by omega)]; omega
  · rcases Nat.lt_or_ge t.chcnt.toNat 17 with h' | h'
    · rw [loadChannel_16 t v (by omega), TxState.setChcnt_chcnt, h1 h']; omega
    · rw [loadChannel_17 t v h']; omega

/-- Loading a list of values touches the channel registers and their count only. -/
theorem foldl_loadChannel_frame (vs : List Chan) (t : TxState) :
    ∃ ch n, vs.foldl loadChannel t = (t.setCh ch).setChcnt n := by
  induction vs generalizing t with
  | nil => exact ⟨t.ch, t.chcnt, rfl⟩
  | cons v vs ih =>
    obtain ⟨ch, n, h⟩ := loadChannel_frame t v
    obtain ⟨ch', n', h'⟩ := ih (loadChannel t v)
    exact ⟨ch', n', by rw [List.foldl_cons, h', h]; rfl⟩

theorem foldl_loadChannel_chcnt (vs : List Chan) (t : TxState) (h : t.chcnt.toNat ≤ 17) :
    (vs.foldl loadChannel t).chcnt.toNat = min (t.chcnt.toNat + vs.length) 17 := by
  induction vs generalizing t with
  | nil => simp; omega
  | cons v vs ih =>
    have h1 := loadChannel_chcnt t v
    rw [List.foldl_cons, ih _ (by omega), h1, List.length_cons]
    omega

/-- The channels after `vs` is loaded from count `n` on, where it fits. -/
theorem foldl_loadChannel_ch (vs : List Chan) (t : TxState) (h : t.chcnt.toNat + vs.length ≤ 16) :
    (vs.foldl loadChannel t).ch.toList =
      t.ch.toList.take t.chcnt.toNat ++ vs ++ t.ch.toList.drop (t.chcnt.toNat + vs.length) := by
  induction vs generalizing t with
  | nil => simp
  | cons v vs ih =>
    rw [List.length_cons] at h
    have hlt : t.chcnt.toNat < 16 := by omega
    have h1 : (loadChannel t v).chcnt.toNat = t.chcnt.toNat + 1 := by rw [loadChannel_chcnt]; omega
    rw [List.foldl_cons, ih _ (by omega), h1, loadChannel_room t v hlt]
    simp only [TxState.setChcnt_ch, TxState.setCh_ch, Vector.toList_set, List.length_cons]
    have hl : t.ch.toList.length = 16 := by simp
    rw [List.take_add_one, List.take_set_of_le (by omega), List.drop_set_of_lt (by omega)]
    simp [hlt, Nat.add_assoc, Nat.add_comm 1]

/-! ## COMMIT -/

/-- The bytes of the header, the payload and the CRC, once written, read back as the encoded frame (R186, R187). -/
theorem encodedFrame_length (start : EncCrcStart) (ch : Vector Chan 16) : (encodedFrame start ch).length = 26 := by
  simp [encodedFrame, frameHead, packedBytes]

/-- Everything a commit of 16 values does (R188): it completes, whatever `TXF` held. -/
theorem sendFrame_spec (start : EncCrcStart) (t : TxState) :
    ∃ (pk : Vector Byte 22) (txf : Memory),
      sendFrame start t = .next ((((t.setPacker 0 0 pk).setTxf txf).setCrcacc (crc8 ((frameHead t.ch).drop start.index))).setOut
        (t.out ++ txBeats (encodedFrame start t.ch))) ∧
      pk.toList = packedBytes t.ch ∧ (t.txf.wf = true → txf.wf = true) ∧
      (∀ a, a < 26 → txf.read a = (encodedFrame start t.ch)[a]?) ∧ (∀ a, 26 ≤ a → txf.read a = t.txf.read a) := by
  obtain ⟨pk, h1, h2⟩ := packChannels_spec t
  have hlen : (frameHead t.ch).length = 25 := by simp [frameHead, packedBytes]
  have hpk : pk.toList.length = 22 := by simp
  let m := (t.txf.writeBytes 0 [syncTx, lenTx, typeRc]).writeBytes 3 pk.toList
  have hm (a : Nat) (ha : a < 25) : m.read a = (frameHead t.ch)[a]? := by
    simp only [m, Memory.read_writeBytes, hpk]
    by_cases h3 : 3 ≤ a
    · rw [if_pos (by omega), frameHead, List.getElem?_append_right (by simpa using h3), h2]
      rfl
    · rw [if_neg (by omega), if_pos (by simp; omega), frameHead, List.getElem?_append_left (by simp; omega)]
      rfl
  have hidx : start.index ≤ 2 := by cases start <;> simp [EncCrcStart.index]
  have hcov : txfSlice m start.index (25 - start.index) = .next ((frameHead t.ch).drop start.index) := by
    have hl : ((frameHead t.ch).drop start.index).length = 25 - start.index := by simp [hlen]
    rw [txfSlice, ← hl]
    refine memSlice_of_read _ _ _ _ fun i hi => ?_
    rw [hm _ (by omega)]
    simp
  have hw (a : Nat) (ha : a < 26) :
      (m.write 25 (crc8 ((frameHead t.ch).drop start.index))).read a = (encodedFrame start t.ch)[a]? := by
    by_cases h25 : a = 25
    · subst h25
      rw [Memory.read_write_same, encodedFrame, List.getElem?_append_right (by omega), hlen]
      rfl
    · rw [Memory.read_write_other _ _ h25, hm a (by omega), encodedFrame, List.getElem?_append_left (by omega)]
  have hall : txfSlice (m.write 25 (crc8 ((frameHead t.ch).drop start.index))) 0 26 = .next (encodedFrame start t.ch) := by
    rw [txfSlice, ← encodedFrame_length start t.ch]
    refine memSlice_of_read _ _ _ _ fun i hi => ?_
    rw [encodedFrame_length] at hi
    rw [Nat.zero_add, hw i hi]
  refine ⟨pk, m.write 25 (crc8 ((frameHead t.ch).drop start.index)), ?_, h2, fun h => ?_, hw, fun a ha => ?_⟩
  · simp only [sendFrame, h1, TxState.setPacker_pk, TxState.setPacker_txf, TxState.setPacker_out]
    change andThen (txfSlice m start.index (25 - start.index)) _ = _
    rw [hcov, andThen_next, hall]
    rfl
  · exact Memory.write_wf _ _ _ (Memory.writeBytes_wf _ _ _ (Memory.writeBytes_wf _ _ _ h))
  · rw [Memory.read_write_other _ _ (by omega), Memory.read_writeBytes, if_neg (by rw [hpk]; omega), Memory.read_writeBytes,
      if_neg (by simp; omega)]

/-- The commit of a set of the right count (R182). -/
theorem commit_right (start : EncCrcStart) (t : TxState) (h : t.chcnt = 16) :
    commit start t = sendFrame start ((t.setChcnt 0).setErr none) := by
  rw [commit, if_pos h]

/-- The commit of a set of a wrong count (R182). -/
theorem commit_wrong (start : EncCrcStart) (t : TxState) (h : t.chcnt ≠ 16) :
    commit start t = .next ((t.setChcnt 0).raise t.chcnt) := by
  rw [commit, if_neg h]

/-- A commit always completes. -/
theorem commit_completes (start : EncCrcStart) (t : TxState) : ∃ t', commit start t = .next t' := by
  by_cases h : t.chcnt = 16
  · obtain ⟨pk, txf, h1, -⟩ := sendFrame_spec start ((t.setChcnt 0).setErr none)
    exact ⟨_, (commit_right start t h).trans h1⟩
  · exact ⟨_, commit_wrong start t h⟩

/-- The beats of a frame carry its bytes, in order. -/
theorem txBeats_data (bs : List Byte) : (txBeats bs).map TxBeat.data = bs := by
  induction bs with
  | nil => rfl
  | cons b bs ih =>
    cases bs with
    | nil => rfl
    | cons c bs => rw [txBeats, List.map_cons, ih]; simp

end Sys2Proof.Machine
end

