-- ==== Sys2Proof/Laws/PerInstr.lean ====
section
/-! SUPPORT. The family RoundTrip: decoding the encoding of a well-formed instruction gives it back, one lemma per constructor. -/

namespace Sys2Proof.Laws.RoundTrip

/-- What is said of each instruction. -/
def Statement (i : Instr) : Prop :=
  WellFormed i = true → decode (encode i) = .ok i

/-! ## Frames -/

theorem withLegalLength_ok {frame : List Byte} (h : frameOk frame = true) (i : Instr) :
    withLegalLength frame i = .ok i := by
  simp only [frameOk, Bool.and_eq_true, decide_eq_true_eq] at h
  rw [withLegalLength, if_neg (by simp [minTotal]; omega), if_neg (by simp [maxTotal]; omega)]

/-- The bits of the mask. -/
theorem mask_bit (i : Nat) (hi : i < 24) : (0x0000FF : BitVec 24).getLsbD i = decide (i < 8) := by
  have : ∀ j : Fin 24, (0x0000FF : BitVec 24).getLsbD j = decide (j.val < 8) := by decide
  exact this ⟨i, hi⟩

/-- A mask of 0x0000FF reads the type byte alone (R75). -/
theorem decodeWord_type (frame : List Byte) : decodeWord frame &&& 0x0000FF = (typeByte frame).setWidth 24 := by
  apply BitVec.eq_of_getLsbD_eq
  intro i hi
  rw [BitVec.getLsbD_and, mask_bit i hi, decodeWord, BitVec.getLsbD_append, BitVec.getLsbD_setWidth, typeByte]
  by_cases h8 : i < 8
  · simp only [h8, hi, if_true, decide_true, Bool.and_true, Bool.true_and]
  · simp only [h8, hi, decide_false, Bool.and_false, decide_true, BitVec.getLsbD_of_ge _ i (by omega : 8 ≤ i)]

/-- The row of a type byte, as a function of the type byte. -/
def rowOfType (t : Byte) : TypeRow :=
  rowOf (t.setWidth 24)

theorem typeRows_mask : ∀ r ∈ typeRows, r.mask = 0x0000FF := by
  simp [typeRows]

theorem rowOf_decodeWord (frame : List Byte) : rowOf (decodeWord frame) = rowOfType (typeByte frame) := by
  have h : (typeByte frame).setWidth 24 &&& 0x0000FF = (typeByte frame).setWidth 24 := by
    rw [← decodeWord_type, BitVec.and_assoc, BitVec.and_self]
  have key : typeRows.find? (fun r => decodeWord frame &&& r.mask == r.pattern) =
      typeRows.find? (fun r => (typeByte frame).setWidth 24 &&& r.mask == r.pattern) := by
    have : ∀ rs : List TypeRow, (∀ r ∈ rs, r.mask = 0x0000FF) →
        rs.find? (fun r => decodeWord frame &&& r.mask == r.pattern) =
          rs.find? (fun r => (typeByte frame).setWidth 24 &&& r.mask == r.pattern) := by
      intro rs hrs
      induction rs with
      | nil => rfl
      | cons r rs ih =>
        have hr := hrs r (by simp)
        simp only [List.find?_cons, hr, h, decodeWord_type, ih fun r hr => hrs r (by simp [hr])]
    exact this _ typeRows_mask
  rw [rowOfType, rowOf, rowOf, key]

/-- A frame of a row's type and at least its minimum length decodes to that row. -/
theorem decode_row {frame : List Byte} {t : Byte} {lMin : Nat} (mk : List Byte → Instr)
    (h : typedFrame t lMin frame = true) (hi : (rowOfType t).instr = mk) (hl : (rowOfType t).lMin = lMin) :
    decode (.frame frame) = .ok (mk frame) := by
  simp only [typedFrame, Bool.and_eq_true, beq_iff_eq, decide_eq_true_eq] at h
  rw [decode, withLegalLength_ok h.1.1]
  simp only [frameInstr, rowOf_decodeWord, h.1.2, hl, hi]
  rw [if_neg (by omega)]

/-! ## One lemma per constructor -/

theorem decGps (frame : List Byte) : Statement (.decGps frame) :=
  fun h => decode_row .decGps h rfl rfl

theorem decVario (frame : List Byte) : Statement (.decVario frame) :=
  fun h => decode_row .decVario h rfl rfl

theorem decBatterySensor (frame : List Byte) : Statement (.decBatterySensor frame) :=
  fun h => decode_row .decBatterySensor h rfl rfl

theorem decBaroAlt (frame : List Byte) : Statement (.decBaroAlt frame) :=
  fun h => decode_row .decBaroAlt h rfl rfl

theorem decHeartbeat (frame : List Byte) : Statement (.decHeartbeat frame) :=
  fun h => decode_row .decHeartbeat h rfl rfl

theorem decVideoTransmitter (frame : List Byte) : Statement (.decVideoTransmitter frame) :=
  fun h => decode_row .decVideoTransmitter h rfl rfl

theorem decLinkStatistics (frame : List Byte) : Statement (.decLinkStatistics frame) :=
  fun h => decode_row .decLinkStatistics h rfl rfl

theorem decRcChannelsPacked (frame : List Byte) : Statement (.decRcChannelsPacked frame) :=
  fun h => decode_row .decRcChannelsPacked h rfl rfl

theorem decAttitude (frame : List Byte) : Statement (.decAttitude frame) :=
  fun h => decode_row .decAttitude h rfl rfl

theorem decFlightMode (frame : List Byte) : Statement (.decFlightMode frame) :=
  fun h => decode_row .decFlightMode h rfl rfl

theorem decDeviceInfo (frame : List Byte) : Statement (.decDeviceInfo frame) :=
  fun h => decode_row .decDeviceInfo h rfl rfl

theorem decConfigRead (frame : List Byte) : Statement (.decConfigRead frame) :=
  fun h => decode_row .decConfigRead h rfl rfl

theorem decConfigWrite (frame : List Byte) : Statement (.decConfigWrite frame) :=
  fun h => decode_row .decConfigWrite h rfl rfl

theorem decRadioId (frame : List Byte) : Statement (.decRadioId frame) :=
  fun h => decode_row .decRadioId h rfl rfl

/-- Every type byte that is not one of the fourteen selects the catch-all row (R75). -/
theorem rowOfType_unknown : ∀ t : Byte, t ∉ packetTypes → rowOfType t = unknownRow := by
  intro t ht
  have hnot : ∀ r ∈ typeRows, (t.setWidth 24 &&& r.mask == r.pattern) = false := by
    intro r hr
    rw [beq_eq_false_iff_ne, typeRows_mask r hr]
    intro h
    have hp : ∀ r ∈ typeRows, r.pattern.setWidth 8 ∈ packetTypes ∧ r.pattern.setWidth 8 = r.pattern.setWidth 8 := by
      simp only [typeRows, List.forall_mem_cons, List.not_mem_nil, and_true, false_implies, implies_true]
      decide
    have h8 : (t.setWidth 24 &&& 0x0000FF).setWidth 8 = t := by
      apply BitVec.eq_of_getLsbD_eq
      intro i hi
      rw [BitVec.getLsbD_setWidth, BitVec.getLsbD_and, mask_bit i (by omega), BitVec.getLsbD_setWidth]
      simp only [hi, decide_true, Bool.and_true, Bool.true_and, show i < 24 by omega]
    exact ht (by rw [← h8, h]; exact (hp r hr).1)
  have : typeRows.find? (fun r => t.setWidth 24 &&& r.mask == r.pattern) = none := by
    rw [List.find?_eq_none]
    intro r hr
    simp [hnot r hr]
  rw [rowOfType, rowOf, this, Option.getD_none]

theorem decUnknown (frame : List Byte) : Statement (.decUnknown frame) := by
  intro h
  simp only [WellFormed, Bool.and_eq_true, Bool.not_eq_true', List.contains_eq_mem, decide_eq_false_iff_not] at h
  rw [encode, decode, withLegalLength_ok h.1]
  have h4 : 4 ≤ frame.length := by
    have := h.1
    simp only [frameOk, Bool.and_eq_true, decide_eq_true_eq] at this
    exact this.1
  simp only [frameInstr, rowOf_decodeWord, rowOfType_unknown _ h.2, unknownRow]
  rw [if_neg (by omega)]

theorem decTruncated (frame : List Byte) : Statement (.decTruncated frame) := by
  intro h
  simp only [WellFormed, truncatedFrame, Bool.and_eq_true, List.any_eq_true, beq_iff_eq, decide_eq_true_eq] at h
  obtain ⟨h1, p, hp, h2, h3⟩ := h
  rw [encode, decode, withLegalLength_ok h1]
  have hrow : ∀ p ∈ structuredTypes, (rowOfType p.1).lMin = p.2 := by
    simp only [structuredTypes, List.forall_mem_cons, List.not_mem_nil, and_true, false_implies, implies_true]
    exact ⟨rfl, rfl, rfl, rfl, rfl, rfl, rfl⟩
  simp only [frameInstr, rowOf_decodeWord, h2, hrow p hp]
  rw [if_pos h3]

theorem lenTooShort (len : Byte) : Statement (.lenTooShort len) := by
  intro h
  simp only [WellFormed, decide_eq_true_eq] at h
  rw [encode, decode, lenInstr, if_pos (by simp [minTotal]; omega)]

theorem lenLegal (len : Byte) : Statement (.lenLegal len) := by
  intro h
  simp only [WellFormed, Bool.and_eq_true, decide_eq_true_eq] at h
  rw [encode, decode, lenInstr, if_neg (by simp [minTotal]; omega), if_pos (by simp [maxTotal]; omega)]

theorem lenTooLong (len : Byte) : Statement (.lenTooLong len) := by
  intro h
  simp only [WellFormed, decide_eq_true_eq] at h
  rw [encode, decode, lenInstr, if_neg (by simp [minTotal]; omega), if_neg (by simp [maxTotal]; omega)]

theorem feed (operand : RxOperand) : Statement (.feed operand) := by
  cases operand <;> exact fun _ => rfl

theorem scanDiscard : Statement .scanDiscard := fun _ => rfl

theorem scanEmit : Statement .scanEmit := fun _ => rfl

theorem scanWait : Statement .scanWait := fun _ => rfl

theorem crc8Bit (unit : CrcUnit) : Statement (.crc8Bit unit) := fun _ => rfl

theorem crc8Byte (unit : CrcUnit) (b : Byte) : Statement (.crc8Byte unit b) := fun _ => rfl

theorem crc8 (unit : CrcUnit) (bytes : List Byte) : Statement (.crc8 unit bytes) := fun _ => rfl

theorem validate (frame : List Byte) : Statement (.validate frame) :=
  fun h => withLegalLength_ok h _

theorem decode (frame : List Byte) : Statement (.decode frame) :=
  fun h => withLegalLength_ok h _

theorem chLoad (v : Chan) : Statement (.chLoad v) := fun _ => rfl

theorem pack : Statement .pack := fun _ => rfl

theorem encode (operand : ChOperand) : Statement (.encode operand) := by
  cases operand <;> exact fun _ => rfl

theorem reset : Statement .reset := fun _ => rfl

end Sys2Proof.Laws.RoundTrip
end

