-- ==== Sys2Proof/Laws/Step.lean ====
section
/-! SUPPORT. The instructions as operations of one path, what FEED, the DEC_* rows, VALIDATE and DECODE answer as instructions,
and which input a step takes. -/

namespace Sys2Proof.Machine

/-! ## Paths -/

theorem execCrc_rx (g : Byte → Byte) (s : State) : onCrc .rx g s = onRx (fun r => .next (r.setCrcacc (g r.crcacc))) s := rfl

theorem execCrc_tx (g : Byte → Byte) (s : State) : onCrc .tx g s = onTx (fun t => .next (t.setCrcacc (g t.crcacc))) s := rfl

/-- Every operation of the RX path is an operation on the RX half alone (R33). -/
theorem exec_onRx {i : Instr} (h : onRxPath i = true) : ∃ op, ∀ s, exec i s = onRx op s := by
  cases i with
  | feed operand => cases operand <;> exact ⟨_, fun _ => rfl⟩
  | crc8Bit u =>
    cases u with
    | rx => exact ⟨_, execCrc_rx Sys2Proof.Machine.crc8Bit⟩
    | tx => exact absurd h (by simp [onRxPath, onTxPath])
  | crc8Byte u b =>
    cases u with
    | rx => exact ⟨_, execCrc_rx (fun c => Sys2Proof.Machine.crc8Byte c b)⟩
    | tx => exact absurd h (by simp [onRxPath, onTxPath])
  | crc8 u bs =>
    cases u with
    | rx => exact ⟨_, execCrc_rx (fun _ => Sys2Proof.Machine.crc8 bs)⟩
    | tx => exact absurd h (by simp [onRxPath, onTxPath])
  | chLoad v => exact absurd h (by simp [onRxPath, onTxPath])
  | pack => exact absurd h (by simp [onRxPath, onTxPath])
  | encode o => exact absurd h (by simp [onRxPath, onTxPath])
  | reset => exact absurd h (by simp [onRxPath])
  | _ => exact ⟨_, fun _ => rfl⟩

/-- Every operation of the TX path is an operation on the TX half and the parameter alone (R33, R8). -/
theorem exec_onTx {i : Instr} (h : onTxPath i = true) : ∃ op : EncCrcStart → TxState → Res TxState,
    ∀ s, exec i s = onTx (op s.encCrcStart) s := by
  cases i with
  | chLoad v => exact ⟨fun _ t => .next (loadChannel t v), fun _ => rfl⟩
  | pack => exact ⟨fun _ t => .next (packChannels t), fun _ => rfl⟩
  | encode o =>
    cases o with
    | values vs => exact ⟨fun start t => commit start (vs.foldl loadChannel t), fun _ => rfl⟩
    | lastBeat v => exact ⟨fun start t => commit start (loadChannel t v), fun _ => rfl⟩
  | crc8Bit u =>
    cases u with
    | rx => exact absurd h (by simp [onTxPath])
    | tx => exact ⟨fun _ => _, execCrc_tx Sys2Proof.Machine.crc8Bit⟩
  | crc8Byte u b =>
    cases u with
    | rx => exact absurd h (by simp [onTxPath])
    | tx => exact ⟨fun _ => _, execCrc_tx (fun c => Sys2Proof.Machine.crc8Byte c b)⟩
  | crc8 u bs =>
    cases u with
    | rx => exact absurd h (by simp [onTxPath])
    | tx => exact ⟨fun _ => _, execCrc_tx (fun _ => Sys2Proof.Machine.crc8 bs)⟩
  | _ => exact absurd h (by simp [onTxPath])

/-! ## FEED -/

theorem onRx_map {op : RxState → Res RxState} (s : State) : onRx op s = mapRes (op s.rx) s.setRx := rfl

theorem mapRes_andThen {α β γ : Type} (r : Res α) (k : α → Res β) (g : β → γ) :
    mapRes (andThen r k) g = andThen r fun a => mapRes (k a) g := by
  cases r <;> rfl

theorem andThen_mapRes {α β γ : Type} (r : Res α) (g : α → β) (k : β → Res γ) :
    andThen (mapRes r g) k = andThen r fun a => k (g a) := by
  cases r <;> rfl

/-- Two operations of the RX path one after the other. -/
theorem andThen_onRx (op op' : RxState → Res RxState) (s : State) :
    andThen (onRx op s) (onRx op') = onRx (fun r => andThen (op r) op') s := by
  simp only [onRx_map, mapRes_andThen, andThen_mapRes]
  cases op s.rx <;> rfl

theorem feedChunk_none {r : RxState} (h : r.drop = none) (chunk : List Byte) :
    feedChunk chunk r = scanLoop (r.rxbuf ++ chunk).length (r.setRxbuf (r.rxbuf ++ chunk)) := by
  rw [feedChunk, h]

/-- A FEED completes whatever the buffer holds, and does what one pass does (R101, R106). -/
theorem feedChunk_spec {r : RxState} (h : r.drop = none) (chunk : List Byte) :
    ∃ r', feedChunk chunk r = .next r' ∧ PassResult (r.setRxbuf (r.rxbuf ++ chunk)) r' := by
  rw [feedChunk_none h]
  exact scanLoop_spec _ _ (by simp)

/-- One byte of the streaming form completes in every state. -/
theorem rxByte_completes (r : RxState) (b : Byte) : ∃ r', rxByte r b = .next r' := by
  rw [rxByte]
  cases r.drop with
  | some d => exact ⟨_, rfl⟩
  | none =>
    simp only
    cases hh : headLen (r.rxbuf ++ [b]) with
    | none => exact ⟨_, rfl⟩
    | some len =>
      simp only
      by_cases hl : legalLen len = true
      · rw [if_pos hl]
        by_cases he : (r.rxbuf ++ [b]).length = (expected len).toNat
        · rw [if_pos he]
          have hle := (legalLen_iff len).1 hl
          have h1 := hle.1
          have h2 := hle.2
          rw [expected_toNat] at he
          obtain ⟨v, regs, event, ha, -⟩ := acceptFrame_ofBytes (r.rxbuf ++ [b]) ⟨by omega, by omega⟩
          exact ⟨_, ha _ rfl⟩
        · rw [if_neg he]; exact ⟨_, rfl⟩
      · rw [if_neg hl]; exact ⟨_, rfl⟩

/-- One beat is one byte, and the end of the chunk where `rx_last` is 1. -/
theorem rxBeat_eq (b : Byte) (last : Bool) (r : RxState) :
    rxBeat b last r = if last then mapRes (rxByte r b) chunkEnd else rxByte r b := by
  rw [rxBeat]
  cases last <;> cases rxByte r b <;> rfl

/-! ## Frames as operands -/

/-- A DEC_* row on a legal frame of its type. -/
theorem decRow_legal {ok : Byte → Bool} {op : RxState → Res RxState} {frame : List Byte} (h : LegalFrame frame)
    (hok : ok (frame.getD 2 0) = true) (s : State) :
    decRow ok op frame s = onRx (fun r => op (r.setFrame (Memory.ofBytes frame))) s := by
  rw [decRow, onRx, onRx, withFrame_legal h, RxState.setFrame_frame, memRead1_ofBytes _ _ (by have := h.1; omega), andThen_next,
    if_pos hok]

/-- A DEC_* row on a legal frame of another type stops by name. -/
theorem decRow_otherType {ok : Byte → Bool} {op : RxState → Res RxState} {frame : List Byte} (h : LegalFrame frame)
    (hok : ok (frame.getD 2 0) = false) (s : State) :
    decRow ok op frame s = .refused (.typeByte (frame.getD 2 0)) := by
  rw [decRow, onRx, withFrame_legal h, RxState.setFrame_frame, memRead1_ofBytes _ _ (by have := h.1; omega), andThen_next,
    if_neg (by rw [hok]; simp)]
  rfl

/-- A DEC_* row on a frame of illegal length stops by name. -/
theorem decRow_illegal {ok : Byte → Bool} {op : RxState → Res RxState} {frame : List Byte} (h : ¬ LegalFrame frame) (s : State) :
    decRow ok op frame s = .refused (.frameLength frame.length) := by
  rw [decRow, onRx, withFrame_illegal h]
  rfl

/-- DECODE on a legal frame is the operation its type byte selects (R140). -/
theorem execDecode_legal {frame : List Byte} (h : LegalFrame frame) (s : State) :
    execDecode frame s = onRx (fun r => decodeOp (frame.getD 2 0) (r.setFrame (Memory.ofBytes frame))) s := by
  rw [execDecode, onRx, onRx, withFrame_legal h]
  rw [decodeFrame_eq_decodeOp _ (frame.getD 2 0)]
  exact memRead1_ofBytes _ _ (by have := h.1; omega)

/-- The guard where the frame reaches the minimum length. -/
theorem guarded_long {lMin : Nat} {op : RxState → Res RxState} {r : RxState} (h : lMin ≤ r.frame.length) :
    guarded lMin op r = op r := by
  rw [guarded, if_pos h]

/-- The guard where it does not. -/
theorem guarded_short {lMin : Nat} {op : RxState → Res RxState} {r : RxState} (h : r.frame.length < lMin) :
    guarded lMin op r = decTruncated r := by
  rw [guarded, if_neg (by omega)]

/-! ## The step -/

@[simp] theorem State.endPulse_rx (s : State) : s.endPulse.rx = s.rx := rfl
@[simp] theorem State.endPulse_tx (s : State) : s.endPulse.tx = s.tx.setErr none := rfl
@[simp] theorem State.endPulse_encCrcStart (s : State) : s.endPulse.encCrcStart = s.encCrcStart := rfl
@[simp] theorem State.endPulse_inputs (s : State) : s.endPulse.inputs = s.inputs := rfl
@[simp] theorem State.endPulse_free (s : State) : s.endPulse.free = s.free := rfl

theorem noneMoves_nil (s : State) (before : List Input) : NoneMoves s before [] := by
  intro p j q h
  simp at h

theorem noneMoves_cons (s : State) (before is : List Input) (i : Input) :
    NoneMoves s before (i :: is) ↔ canMove s before i = false ∧ NoneMoves s (before ++ [i]) is := by
  constructor
  · intro h
    refine ⟨by simpa using h [] i is rfl, fun p j q e => ?_⟩
    have := h (i :: p) j q (by rw [e]; rfl)
    rwa [List.append_assoc]
  · rintro ⟨h, hs⟩ p j q e
    cases p with
    | nil =>
      obtain ⟨rfl, rfl⟩ := List.cons.inj e
      simpa using h
    | cons k p =>
      obtain ⟨rfl, rfl⟩ := List.cons.inj e
      have := hs p j q rfl
      rwa [List.append_assoc] at this

/-- Everything `pickAfter` can answer: nothing can move, or the first input that can is taken and the others keep their order. -/
theorem pickAfter_spec (s : State) (before is : List Input) :
    (pickAfter s before is = none ∧ NoneMoves s before is) ∨
    ∃ pre i post, is = pre ++ i :: post ∧ pickAfter s before is = some (i, pre ++ post) ∧ canMove s (before ++ pre) i = true ∧
      NoneMoves s before pre := by
  induction is generalizing before with
  | nil => exact .inl ⟨rfl, noneMoves_nil s before⟩
  | cons i is ih =>
    rw [pickAfter]
    by_cases h : canMove s before i = true
    · exact .inr ⟨[], i, is, rfl, by rw [if_pos h]; rfl, by simpa using h, noneMoves_nil s before⟩
    · rw [if_neg h]
      have h' : canMove s before i = false := by simpa using h
      rcases ih (before ++ [i]) with ⟨h1, h2⟩ | ⟨pre, j, post, h1, h2, h3, h4⟩
      · exact .inl ⟨by rw [h1]; rfl, (noneMoves_cons ..).2 ⟨h', h2⟩⟩
      · refine .inr ⟨i :: pre, j, post, by rw [h1]; rfl, by rw [h2]; rfl, ?_, (noneMoves_cons ..).2 ⟨h', h4⟩⟩
        rwa [List.append_assoc] at h3

/-- The first input that can move is taken. -/
theorem pickAfter_first {s : State} {before pre post : List Input} {i : Input} (hpre : NoneMoves s before pre)
    (hi : canMove s (before ++ pre) i = true) : pickAfter s before (pre ++ i :: post) = some (i, pre ++ post) := by
  induction pre generalizing before with
  | nil => rw [List.nil_append, pickAfter, if_pos (by simpa using hi)]; rfl
  | cons j pre ih =>
    obtain ⟨h1, h2⟩ := (noneMoves_cons ..).1 hpre
    rw [List.cons_append, pickAfter, if_neg (by simp [h1]), ih h2 (by rwa [List.append_assoc])]
    rfl

theorem pickAfter_none {s : State} {before is : List Input} (h : NoneMoves s before is) : pickAfter s before is = none := by
  induction is generalizing before with
  | nil => rfl
  | cons j is ih =>
    obtain ⟨h1, h2⟩ := (noneMoves_cons ..).1 h
    rw [pickAfter, if_neg (by simp [h1]), ih h2]; rfl

/-- Nothing moves exactly where `pickAfter` finds nothing. -/
theorem pickAfter_eq_none {s : State} {before is : List Input} : pickAfter s before is = none ↔ NoneMoves s before is := by
  refine ⟨fun h => ?_, pickAfter_none⟩
  rcases pickAfter_spec s before is with ⟨-, h2⟩ | ⟨pre, i, post, -, h2, -⟩
  · exact h2
  · rw [h2] at h
    cases h

/-- Everything a step can be (R244): idle, or the first input that can move, run without it; the pulse of the step before is
over. -/
theorem step_spec (s : State) :
    (step s = .next s.endPulse ∧ NoneMoves s [] s.inputs) ∨
    ∃ pre i post, s.inputs = pre ++ i :: post ∧ canMove s pre i = true ∧ NoneMoves s [] pre ∧
      step s = runInput i (s.endPulse.setInputs (pre ++ post)) := by
  rcases pickAfter_spec s [] s.inputs with ⟨h1, h2⟩ | ⟨pre, i, post, h1, h2, h3, h4⟩
  · exact .inl ⟨by rw [step, pick, h1], h2⟩
  · exact .inr ⟨pre, i, post, h1, h3, h4, by rw [step, pick, h2]⟩

/-- The step where the input that moves is known. -/
theorem step_first {s : State} {pre post : List Input} {i : Input} (h : s.inputs = pre ++ i :: post)
    (hpre : NoneMoves s [] pre) (hi : canMove s pre i = true) :
    step s = runInput i (s.endPulse.setInputs (pre ++ post)) := by
  rw [step, pick, h, pickAfter_first hpre hi]

/-- RESET as an equation (R230). -/
theorem execReset_eq (s : State) : execReset s =
    .next { s with rx := RxState.afterReset s.free, tx := TxState.afterReset s.free, free := s.free + 1 } := rfl

/-- What RESET leaves in `TXF`: a free value at each of its 26 addresses (R40), and no other address. -/
theorem TxState.afterReset_txf_read (free a : Nat) :
    (TxState.afterReset free).txf.read a = if a < 26 then some (Config.freeTxf free a) else none := by
  by_cases h : a < 26 <;> simp [TxState.afterReset, h]

/-- No instruction changes the parameter or the inputs (R32). -/
theorem exec_keeps {i : Instr} {s t : State} (h : exec i s = .next t) :
    t.encCrcStart = s.encCrcStart ∧ t.inputs = s.inputs := by
  by_cases hr : i = .reset
  · subst hr
    have : t = _ := (Host.Outcome.next.inj ((execReset_eq s).symm.trans h)).symm
    rw [this]
    exact ⟨rfl, rfl⟩
  · by_cases ht : onTxPath i = true
    · obtain ⟨op, ho⟩ := exec_onTx ht
      rw [ho, onTx_eq_next] at h
      obtain ⟨t', -, rfl⟩ := h
      exact ⟨rfl, rfl⟩
    · obtain ⟨op, ho⟩ := exec_onRx (i := i) (by cases i <;> simp_all [onRxPath])
      rw [ho, onRx_eq_next] at h
      obtain ⟨t', -, rfl⟩ := h
      exact ⟨rfl, rfl⟩

/-- Running an input puts none to the ports and takes none away. -/
theorem runInput_inputs {i : Input} {s t : State} (h : runInput i s = .next t) : t.inputs = s.inputs := by
  cases i with
  | word w =>
    simp only [runInput] at h
    split at h
    · exact (exec_keeps h).2
    · cases h
  | takeEvent => cases h; rfl
  | takeTx => cases h; rfl

/-- What the decoder rejects: a word that carries a frame outside 4 to 64 bytes, by the name of the bound it misses. -/
theorem decode_eq_error {w : PortWord} {e : DecodeError} :
    decode w = .error e ↔ ∃ bytes, (w = .frame bytes ∨ w = .validate bytes ∨ w = .decode bytes) ∧
      ¬ (minTotal ≤ bytes.length ∧ bytes.length ≤ maxTotal) ∧
      e = if bytes.length < minTotal then .frameTooShort bytes.length else .frameTooLong bytes.length := by
  have key (bytes : List Byte) (i : Instr) : withLegalLength bytes i = .error e ↔
      ¬ (minTotal ≤ bytes.length ∧ bytes.length ≤ maxTotal) ∧
      e = if bytes.length < minTotal then .frameTooShort bytes.length else .frameTooLong bytes.length := by
    rw [withLegalLength]
    by_cases h : bytes.length < minTotal
    · simp [h, eq_comm, show ¬ minTotal ≤ bytes.length by omega]
    · by_cases h2 : maxTotal < bytes.length
      · simp [h, h2, eq_comm]
      · simp [h, h2, show minTotal ≤ bytes.length by omega, show bytes.length ≤ maxTotal by omega]
  cases w with
  | frame bytes => simp [decode, key]
  | validate bytes => simp [decode, key]
  | decode bytes => simp [decode, key]
  | scan arm => cases arm <;> simp [decode]
  | _ => simp [decode]

/-- What moves is ready and stands behind no earlier word of its path (R61, R62). -/
theorem canMove_iff (s : State) (before : List Input) (i : Input) :
    canMove s before i = true ↔ ready s i = true ∧ ∀ k ∈ before, ∀ p, inputPath k = some p → inputPath i ≠ some p := by
  simp only [canMove, Bool.and_eq_true, Bool.not_eq_true', List.any_eq_false, behind]
  refine and_congr_right fun _ => forall_congr' fun k => forall_congr' fun _ => ?_
  cases hi : inputPath i <;> cases hk : inputPath k <;> simp

end Sys2Proof.Machine
end

