-- ==== Sys2Proof/Tests/Slice0.lean ====
section
/-! SUPPORT. The model's own tests: one ill-formed term for each check of WellFormed, words written out from the spec's encodings
(spec/30_encoding.md), one step per instruction with the results of spec/95_test_vectors.md, and for every obligation with
hypotheses concrete states and operands that meet them. Each expected value is the spec's; none is the model's own answer. -/

namespace Sys2Proof.Tests

-- One kernel evaluation at a time: each in a thread of its own would take more memory than the checker allows.
set_option Elab.async false

open Sys2Proof Sys2Proof.Machine

/-! ## Helpers -/

/-- `p` holds of the next state. -/
def after (r : Res State) (p : State → Bool) : Bool :=
  match r with
  | .next t => p t
  | _ => false

theorem next_of_after {r : Res State} {p : State → Bool} (h : after r p = true) : ∃ t, r = .next t ∧ p t = true := by
  cases r with
  | next t => exact ⟨t, rfl, h⟩
  | fault e => cases h
  | refused e => cases h

/-- A machine with `buf` buffered. -/
def buffered (buf : List Byte) : State := State.reset.buffering buf

/-- A machine with an empty ChannelSet whose registers hold `vs`. -/
def channels (vs : Vector Chan 16) : State :=
  State.reset.setTx (State.reset.tx.setCh vs)

/-- A machine with `n` values loaded. -/
def counted (n : BitVec 5) : State :=
  State.reset.setTx (State.reset.tx.setChcnt n)

/-- A machine with words and consumers at the ports. -/
def offered (is : List Input) : State := State.reset.setInputs is

/-- A machine in the middle of a discard. -/
def dropping : State := State.reset.setRx (State.reset.rx.setDrop (some ⟨3, 0xC8⟩))

/-- S9: the document's ATTITUDE example, pitch 10000, roll -10000, yaw 0. -/
def attitudeFrame : List Byte := [0xC8, 0x08, 0x1E, 0x27, 0x10, 0xD8, 0xF0, 0x00, 0x00, 0xAB]

/-- V-UNPACK: Vario{-5/2}. -/
def varioFrame : List Byte := [0xC8, 0x04, 0x07, 0xFF, 0xE7, 0xD9]

/-- V-UNPACK: the BATTERY_SENSOR row. -/
def batteryFrame : List Byte := [0xC8, 0x0A, 0x08, 0x00, 0xA8, 0xFF, 0xF1, 0x01, 0x02, 0x03, 0x4B, 0x5B]

/-- V-UNPACK: the LINK_STATISTICS row. -/
def linkFrame : List Byte := [0xC8, 0x0C, 0x14, 0xA6, 0x9C, 0x64, 0x0A, 0x01, 0x02, 0x03, 0xB0, 0x5F, 0xFB, 0x5D]

/-- V-UNPACK: FlightMode "ACRO". -/
def flightFrame : List Byte := [0xC8, 0x07, 0x21, 0x41, 0x43, 0x52, 0x4F, 0x00, 0x80]

/-- V-UNPACK: BaroAlt{2469/20}. -/
def baroFrame : List Byte := [0xC8, 0x06, 0x09, 0x00, 0x00, 0x30, 0x39, 0x22]

/-- V-UNPACK: the GPS row. -/
def gpsFrame : List Byte :=
  [0xC8, 0x11, 0x02, 0x1B, 0x1E, 0xBF, 0xC0, 0xD4, 0x30, 0xCA, 0x40, 0x01, 0x68, 0x46, 0x50, 0x04, 0x4C, 0x0C, 0x0A]

/-- A frame of 64 bytes with the type byte `t` (R71). -/
def longFrame (t : Byte) : List Byte := [0xC8, 0x3E, t] ++ List.replicate 61 0x00

/-- A frame of `n + 3` bytes with the type byte `t`. -/
def frameOf (t : Byte) (n : Nat) : List Byte := [0xC8, 0x02, t] ++ List.replicate n 0x00

/-- The decoder reads `i` from the word. -/
def reads (w : PortWord) (i : Instr) : Bool :=
  match decode w with
  | .ok j => j == i
  | .error _ => false

/-- The decoder rejects the word by the name `e`. -/
def rejects (w : PortWord) (e : DecodeError) : Bool :=
  match decode w with
  | .ok _ => false
  | .error d => d == e

/-- A state with an event and a TX beat waiting, and the consumers behind a beat that waits. -/
def full : State where
  rx := State.reset.rx.setEvents [.framingError 3 0]
  tx := State.reset.tx.setOut [⟨0xC8, false⟩]
  encCrcStart := .lengthByte
  inputs := [.word (.rxBeat 0xC8 true), .takeEvent]
  free := 0

/-! ## WellFormed: one ill-formed term for each check -/

theorem test_wf_frame_of_three_bytes : WellFormed (.validate [0xC8, 0x02, 0x7F]) = false := by decide
theorem test_wf_frame_of_65_bytes : WellFormed (.decode (0x00 :: longFrame 0x7F)) = false := by decide
theorem test_wf_type_byte_of_another_row :
    ∀ p ∈ typedInstrs, WellFormed (p.2 (longFrame (p.1 + 1))) = false := by decide +kernel
theorem test_wf_structured_frame_below_minimum :
    WellFormed (.decGps (frameOf 0x02 15)) = false ∧ WellFormed (.decVario (frameOf 0x07 2)) = false ∧
    WellFormed (.decBatterySensor (frameOf 0x08 8)) = false ∧ WellFormed (.decBaroAlt (frameOf 0x09 4)) = false ∧
    WellFormed (.decLinkStatistics (frameOf 0x14 10)) = false ∧ WellFormed (.decAttitude (frameOf 0x1E 6)) = false ∧
    WellFormed (.decFlightMode (frameOf 0x21 1)) = false := by decide
theorem test_wf_unknown_with_a_known_type : ∀ t ∈ packetTypes, WellFormed (.decUnknown (longFrame t)) = false := by
  decide +kernel
theorem test_wf_truncated_but_long_enough :
    WellFormed (.decTruncated varioFrame) = false ∧ WellFormed (.decTruncated [0xC8, 0x02, 0x7F, 0x16]) = false := by decide
theorem test_wf_length_byte_of_another_class :
    WellFormed (.lenTooShort 2) = false ∧ WellFormed (.lenLegal 1) = false ∧ WellFormed (.lenLegal 63) = false ∧
    WellFormed (.lenTooLong 62) = false := by decide

/-! ## Decoding: words written out from the encodings of R70, R72, R75, R76, R86 -/

theorem test_decode_gps : reads (.frame gpsFrame) (.decGps gpsFrame) = true := by decide +kernel
theorem test_decode_vario : reads (.frame varioFrame) (.decVario varioFrame) = true := by decide +kernel
theorem test_decode_battery : reads (.frame batteryFrame) (.decBatterySensor batteryFrame) = true := by decide +kernel
theorem test_decode_baro : reads (.frame baroFrame) (.decBaroAlt baroFrame) = true := by decide +kernel
theorem test_decode_heartbeat :
    reads (.frame [0xC8, 0x04, 0x0B, 0x00, 0xEA, 0x36]) (.decHeartbeat [0xC8, 0x04, 0x0B, 0x00, 0xEA, 0x36]) = true := by decide +kernel
theorem test_decode_video :
    reads (.frame [0xC8, 0x03, 0x0F, 0x01, 0xBC]) (.decVideoTransmitter [0xC8, 0x03, 0x0F, 0x01, 0xBC]) = true := by decide +kernel
theorem test_decode_link : reads (.frame linkFrame) (.decLinkStatistics linkFrame) = true := by decide +kernel
theorem test_decode_rc :
    reads (.frame [0xC8, 0x02, 0x16, 0xD3]) (.decRcChannelsPacked [0xC8, 0x02, 0x16, 0xD3]) = true := by decide +kernel
theorem test_decode_attitude : reads (.frame attitudeFrame) (.decAttitude attitudeFrame) = true := by decide +kernel
theorem test_decode_flight : reads (.frame flightFrame) (.decFlightMode flightFrame) = true := by decide +kernel
theorem test_decode_device :
    reads (.frame [0xC8, 0x05, 0x29, 0x41, 0x42, 0x00, 0xD5])
      (.decDeviceInfo [0xC8, 0x05, 0x29, 0x41, 0x42, 0x00, 0xD5]) = true := by decide +kernel
theorem test_decode_config_read :
    reads (.frame [0xC8, 0x04, 0x2C, 0x01, 0x02, 0xD3]) (.decConfigRead [0xC8, 0x04, 0x2C, 0x01, 0x02, 0xD3]) = true := by decide +kernel
theorem test_decode_config_write :
    reads (.frame [0xC8, 0x05, 0x2D, 0x01, 0x02, 0x03, 0x65])
      (.decConfigWrite [0xC8, 0x05, 0x2D, 0x01, 0x02, 0x03, 0x65]) = true := by decide +kernel
theorem test_decode_radio :
    reads (.frame [0xC8, 0x03, 0x3A, 0x10, 0x19]) (.decRadioId [0xC8, 0x03, 0x3A, 0x10, 0x19]) = true := by decide +kernel
theorem test_decode_unknown :
    reads (.frame [0xC8, 0x02, 0x7F, 0x16]) (.decUnknown [0xC8, 0x02, 0x7F, 0x16]) = true ∧
    reads (.frame [0x00, 0x02, 0x00, 0x00]) (.decUnknown [0x00, 0x02, 0x00, 0x00]) = true := by decide +kernel
theorem test_decode_truncated :
    reads (.frame [0xC8, 0x02, 0x21, 0x71]) (.decTruncated [0xC8, 0x02, 0x21, 0x71]) = true ∧
    reads (.frame [0xC8, 0x03, 0x07, 0x01, 0xE4]) (.decTruncated [0xC8, 0x03, 0x07, 0x01, 0xE4]) = true := by decide +kernel
theorem test_decode_length_classes :
    reads (.lenByte 0x00) (.lenTooShort 0x00) = true ∧ reads (.lenByte 0x01) (.lenTooShort 0x01) = true ∧
    reads (.lenByte 0x02) (.lenLegal 0x02) = true ∧ reads (.lenByte 0x3E) (.lenLegal 0x3E) = true ∧
    reads (.lenByte 0x3F) (.lenTooLong 0x3F) = true ∧ reads (.lenByte 0xFF) (.lenTooLong 0xFF) = true := by decide +kernel
theorem test_decode_ports :
    reads (.rxChunk [0xC8, 0xFF]) (.feed (.chunk [0xC8, 0xFF])) = true ∧
    reads (.rxBeat 0xC8 true) (.feed (.beat 0xC8 true)) = true ∧
    reads (.chBeat 2047 false) (.chLoad 2047) = true ∧ reads (.chBeat 2047 true) (.encode (.lastBeat 2047)) = true ∧
    reads (.chSet [1, 2]) (.encode (.values [1, 2])) = true ∧ reads .rst .reset = true ∧ reads .pack .pack = true ∧
    reads (.validate varioFrame) (.validate varioFrame) = true ∧ reads (.decode varioFrame) (.decode varioFrame) = true ∧
    reads (.crcSeq .rx [0x1E]) (.crc8 .rx [0x1E]) = true ∧ reads (.crcByte .tx 0x1E) (.crc8Byte .tx 0x1E) = true ∧
    reads (.crcBit .rx) (.crc8Bit .rx) = true ∧ reads (.scan .discard) .scanDiscard = true ∧
    reads (.scan .emit) .scanEmit = true ∧ reads (.scan .wait) .scanWait = true := by decide +kernel
theorem test_decode_refuses_illegal_lengths :
    rejects (.frame [0xC8, 0x02, 0x7F]) (.frameTooShort 3) = true ∧
    rejects (.validate (0x00 :: longFrame 0x7E)) (.frameTooLong 65) = true := by decide +kernel

/-- The table's word of a FRAME row is its 24-bit `W` (R75): sync, length, type from the top. -/
theorem test_table_words :
    decodeTableWord 24 0xC8111E = some (.decAttitude ([0xC8, 0x11, 0x1E] ++ List.replicate 61 0)) ∧
    decodeTableWord 24 0x000002 = some (.decGps ([0x00, 0x00, 0x02] ++ List.replicate 61 0)) ∧
    decodeTableWord 24 0xC80216 = some (.decRcChannelsPacked ([0xC8, 0x02, 0x16] ++ List.replicate 61 0)) ∧
    decodeTableWord 24 0x000000 = some (.decUnknown (List.replicate 64 0)) := by decide +kernel

/-! ## Memory -/

theorem test_memory_write_keeps_order :
    Memory.write (Memory.write [] 5 1) 3 2 = [(3, 2), (5, 1)] ∧
    Memory.write [(3, 2), (5, 1)] 5 9 = [(3, 2), (5, 9)] := by decide

/-! ## One step per instruction: the vectors of spec/95_test_vectors.md -/

/-- The last event of the next state. -/
def emits (r : Res State) (e : Event) : Bool :=
  after r fun t => t.rx.events == [e]

theorem test_gps : emits (execDecGps gpsFrame State.reset)
    (.record (.gps ⟨455000000⟩ ⟨-735000000⟩ ⟨360⟩ ⟨18000⟩ 100 12) true gpsFrame) = true := by decide +kernel
theorem test_gps_extremes : after
    (execDecGps [0xC8, 0x11, 0x02, 0xFF, 0xFF, 0xFF, 0xFF, 0x00, 0x00, 0x00, 0x01, 0xFF, 0xFF, 0x88, 0xB8, 0x80, 0x00, 0xFF, 0xEF]
      State.reset) (fun t => t.rx.f.toList == [-1, 1, -1, -30536, -33768, 255, 0, 0, 0, 0]) = true := by decide +kernel
theorem test_vario : emits (execDecVario varioFrame State.reset) (.record (.vario ⟨-25⟩) true varioFrame) = true := by
  decide +kernel
theorem test_vario_extra_bytes_ignored :
    after (execDecVario [0xC8, 0x06, 0x07, 0x00, 0x0F, 0xAA, 0xBB, 0xA7] State.reset) (fun t => t.rx.f[0] == 15) = true := by
  decide +kernel
theorem test_battery : emits (execDecBatterySensor batteryFrame State.reset)
    (.record (.battery ⟨168⟩ ⟨-15⟩ 65795 75) true batteryFrame) = true := by decide +kernel
theorem test_battery_overlap :
    after (execDecBatterySensor [0xC8, 0x0A, 0x08, 0x7F, 0xFF, 0x80, 0x00, 0x00, 0x01, 0x80, 0x64, 0xEB] State.reset)
      (fun t => t.rx.f.toList == [32767, -32768, 128, 100, 0, 0, 0, 0, 0, 0]) = true := by decide +kernel
theorem test_baro : emits (execDecBaroAlt baroFrame State.reset) (.record (.baroAlt ⟨12345⟩) true baroFrame) = true := by
  decide +kernel
theorem test_baro_most_negative :
    after (execDecBaroAlt [0xC8, 0x06, 0x09, 0x80, 0x00, 0x00, 0x00, 0x76] State.reset)
      (fun t => t.rx.f[0].toInt == -2147483648) = true := by decide +kernel
theorem test_link : emits (execDecLinkStatistics linkFrame State.reset)
    (.record (.linkStats (-90) (-100) 100 10 1 2 3 (-80) 95 (-5)) true linkFrame) = true := by decide +kernel
theorem test_attitude : emits (execDecAttitude attitudeFrame State.reset)
    (.record (.attitude ⟨10000⟩ ⟨-10000⟩ ⟨0⟩) true attitudeFrame) = true := by decide +kernel
theorem test_attitude_scale : (Scaled.mk 10000 : Scaled 10000).value = 1 ∧ (Scaled.mk (-10000) : Scaled 10000).value = -1 := by
  decide +kernel
theorem test_flight : emits (execDecFlightMode flightFrame State.reset)
    (.record (.flightMode [0x41, 0x43, 0x52, 0x4F]) true flightFrame) = true := by decide +kernel
theorem test_flight_empty_name : emits (execDecFlightMode [0xC8, 0x03, 0x21, 0x00, 0xBE] State.reset)
    (.record (.flightMode []) true [0xC8, 0x03, 0x21, 0x00, 0xBE]) = true := by decide +kernel
theorem test_heartbeat : emits (execDecHeartbeat [0xC8, 0x04, 0x0B, 0x00, 0xEA, 0x36] State.reset)
    (rawEvent true .unrecognizedPacketType [0xC8, 0x04, 0x0B, 0x00, 0xEA, 0x36]) = true := by decide +kernel
theorem test_video : emits (execDecVideoTransmitter [0xC8, 0x03, 0x0F, 0x01, 0xBC] State.reset)
    (rawEvent true .unrecognizedPacketType [0xC8, 0x03, 0x0F, 0x01, 0xBC]) = true := by decide +kernel
theorem test_rc : emits (execDecRcChannelsPacked [0xC8, 0x02, 0x16, 0xD3] State.reset) (.noop [0xC8, 0x02, 0x16, 0xD3]) = true := by
  decide +kernel
theorem test_device : emits (execDecDeviceInfo [0xC8, 0x05, 0x29, 0x41, 0x42, 0x00, 0xD5] State.reset)
    (rawEvent true .none [0xC8, 0x05, 0x29, 0x41, 0x42, 0x00, 0xD5]) = true := by decide +kernel
theorem test_config_read : emits (execDecConfigRead [0xC8, 0x04, 0x2C, 0x01, 0x02, 0xD3] State.reset)
    (rawEvent true .unrecognizedPacketType [0xC8, 0x04, 0x2C, 0x01, 0x02, 0xD3]) = true := by decide +kernel
theorem test_config_write : emits (execDecConfigWrite [0xC8, 0x05, 0x2D, 0x01, 0x02, 0x03, 0x65] State.reset)
    (rawEvent true .unrecognizedPacketType [0xC8, 0x05, 0x2D, 0x01, 0x02, 0x03, 0x65]) = true := by decide +kernel
theorem test_radio : emits (execDecRadioId [0xC8, 0x03, 0x3A, 0x10, 0x19] State.reset)
    (rawEvent true .unrecognizedPacketType [0xC8, 0x03, 0x3A, 0x10, 0x19]) = true := by decide +kernel
theorem test_unknown : emits (execDecUnknown [0xC8, 0x02, 0x7F, 0x16] State.reset)
    (rawEvent false .unrecognizedPacketType [0xC8, 0x02, 0x7F, 0x16]) = true := by decide +kernel
theorem test_truncated : emits (execDecTruncated [0xC8, 0x02, 0x21, 0x71] State.reset)
    (rawEvent true .truncatedPayload [0xC8, 0x02, 0x21, 0x71]) = true := by decide +kernel
theorem test_decode_dispatch_one_below_minimum : emits
    (execDecode [0xC8, 0x10, 0x02, 0x00, 0x00, 0x00, 0x01, 0x00, 0x00, 0x00, 0x02, 0x00, 0x03, 0x00, 0x04, 0x00, 0x05, 0x87] State.reset)
    (rawEvent true .truncatedPayload
      [0xC8, 0x10, 0x02, 0x00, 0x00, 0x00, 0x01, 0x00, 0x00, 0x00, 0x02, 0x00, 0x03, 0x00, 0x04, 0x00, 0x05, 0x87]) = true := by
  decide +kernel
theorem test_decode_ignores_sync : emits (execDecode [0x00, 0x04, 0x07, 0xFF, 0xE7, 0xD9] State.reset)
    (.record (.vario ⟨-25⟩) true [0x00, 0x04, 0x07, 0xFF, 0xE7, 0xD9]) = true := by decide +kernel

/-- V-DEFRAMER, the table of length bytes: `FEED C8 xx 11`. -/
theorem test_length_classes :
    emits (execLenTooShort 0x01 (buffered [0xC8, 0x01, 0x11])) (.framingError 3 0x01) = true ∧
    after (execLenLegal 0x3E (buffered [0xC8, 0x3E, 0x11])) (fun t => t.rx.rxbuf == [0xC8, 0x3E, 0x11]) = true ∧
    emits (execLenTooLong 0x3F (buffered [0xC8, 0x3F, 0x11])) (.framingError 3 0x3F) = true := by decide +kernel
theorem test_feed_length_bytes :
    emits (execFeed (.chunk [0xC8, 0x00, 0x11]) State.reset) (.framingError 3 0x00) = true ∧
    after (execFeed (.chunk [0xC8, 0x02, 0x11]) State.reset) (fun t => t.rx.rxbuf.length == 3 && t.rx.events.isEmpty) = true ∧
    emits (execFeed (.chunk [0xC8, 0xFF, 0x11]) State.reset) (.framingError 3 0xFF) = true := by decide +kernel
theorem test_feed_two_frames : after (execFeed (.chunk (attitudeFrame ++ varioFrame)) State.reset) (fun t =>
    t.rx.rxbuf.isEmpty && t.rx.events == [.record (.attitude ⟨10000⟩ ⟨-10000⟩ ⟨0⟩) true attitudeFrame,
      .record (.vario ⟨-25⟩) true varioFrame]) = true := by decide +kernel
/-- R109 and P2: the same thirteen bytes as one chunk, and the streaming form of it. -/
theorem test_feed_stray_byte_loses_the_frame :
    emits (execFeed (.chunk ([0xC8, 0xC8, 0x00] ++ attitudeFrame)) State.reset) (.framingError 13 0xC8) = true ∧
    emits (feedBeats ([0xC8, 0xC8, 0x00] ++ attitudeFrame) State.reset) (.framingError 13 0xC8) = true := by decide +kernel
theorem test_feed_bytes_singly_recovers :
    after (feedChunks (([0xC8, 0xC8, 0x00] ++ attitudeFrame).map fun b => [b]) State.reset) (fun t =>
      t.rx.events == [.framingError 3 0xC8, .record (.attitude ⟨10000⟩ ⟨-10000⟩ ⟨0⟩) true attitudeFrame]) = true := by
  decide +kernel
/-- V-VALIDATE's second row, and P3: one flipped bit. -/
theorem test_feed_bad_crc :
    emits (execFeed (.chunk [0xC8, 0x08, 0x1E, 0x27, 0x11, 0xD8, 0xF0, 0x00, 0x00, 0xAB]) State.reset)
      (.crcError [0xC8, 0x08, 0x1E, 0x27, 0x11, 0xD8, 0xF0, 0x00, 0x00, 0xAB] 0x1D) = true := by decide +kernel
theorem test_scan_discard :
    emits (execScanDiscard (buffered [0xC8, 0x00, 0x11, 0x22])) (.framingError 4 0x00) = true := by decide +kernel
theorem test_scan_emit : after (execScanEmit (buffered (varioFrame ++ [0xC8, 0x08]))) (fun t =>
    t.rx.rxbuf == [0xC8, 0x08] && t.rx.events == [.record (.vario ⟨-25⟩) true varioFrame]) = true := by decide +kernel
theorem test_scan_wait : after (execScanWait (buffered [0xC8, 0x04, 0x07])) (fun t =>
    t.rx.rxbuf == [0xC8, 0x04, 0x07] && t.rx.events.isEmpty) = true := by decide +kernel

/-- V-CRC. -/
theorem test_crc_bit : crc8Bit 0x01 = 0x02 ∧ crc8Bit 0x80 = 0xD5 ∧ crc8Bit 0xFF = 0x2B ∧ crc8Bit 0xD5 = 0x7F := by decide
theorem test_crc_bit_runs : after (execCrc8Bit .tx (State.reset.withCrc .tx 0x80)) (fun t => t.tx.crcacc == 0xD5) = true := by
  decide +kernel
theorem test_crc_byte : after (execCrc8Byte .rx 0xFF (State.reset.withCrc .rx 0x00)) (fun t => t.rx.crcacc == 0xF9) = true := by
  decide +kernel
theorem test_crc_check_value :
    after (execCrc8 .rx [0x31, 0x32, 0x33, 0x34, 0x35, 0x36, 0x37, 0x38, 0x39] (State.reset.withCrc .rx 0x55))
      (fun t => t.rx.crcacc == 0xBC) = true := by decide +kernel
theorem test_crc_empty : after (execCrc8 .tx [] (State.reset.withCrc .tx 0x55)) (fun t => t.tx.crcacc == 0x00) = true := by
  decide +kernel
theorem test_validate : after (execValidate attitudeFrame State.reset) (fun t => t.rx.valid && t.rx.crcacc == 0xAB) = true := by
  decide +kernel
theorem test_validate_smallest : after (execValidate [0x00, 0x02, 0x00, 0x00] State.reset) (fun t => t.rx.valid) = true := by
  decide +kernel

theorem test_ch_load : after (execChLoad 992 (counted 15)) (fun t => t.tx.ch[15] == 992 && t.tx.chcnt == 16) = true := by
  decide +kernel
theorem test_ch_load_saturates : after (execChLoad 992 (counted 17)) (fun t => t.tx.chcnt == 17) = true := by decide +kernel
/-- V-PACK: `CH[i] = i`. -/
theorem test_pack_indices : after (execPack (channels (Vector.ofFn fun i : Fin 16 => BitVec.ofNat 11 i.val))) (fun t => t.tx.pk.toList ==
    [0x00, 0x08, 0x80, 0x00, 0x06, 0x40, 0x80, 0x02, 0x18, 0xE0, 0x00, 0x08, 0x48, 0x80, 0x02, 0x16, 0xC0, 0x80, 0x06, 0x38, 0xE0,
      0x01]) = true := by decide +kernel
/-- V-PACK: the mixed row. -/
theorem test_pack_mixed :
    after (execPack (channels #v[172, 1811, 992, 1000, 1500, 2000, 0, 2047, 1, 2, 4, 8, 16, 32, 64, 128])) (fun t => t.tx.pk.toList ==
    [0xAC, 0x98, 0x38, 0xF8, 0xD0, 0xC7, 0x5D, 0xE8, 0x03, 0xE0, 0xFF, 0x01, 0x10, 0x00, 0x01, 0x10, 0x00, 0x01, 0x10, 0x00, 0x01,
      0x10]) = true := by decide +kernel
/-- P5: sixteen 992, the CRC byte for both values of the parameter. -/
theorem test_encode :
    after (execEncode (.values (List.replicate 16 992)) State.reset) (fun t =>
      t.tx.out == txBeats ([0xC8, 0x18, 0x16, 0xE0, 0x03, 0x1F, 0xF8, 0xC0, 0x07, 0x3E, 0xF0, 0x81, 0x0F, 0x7C,
        0xE0, 0x03, 0x1F, 0xF8, 0xC0, 0x07, 0x3E, 0xF0, 0x81, 0x0F, 0x7C, 0x2C])) = true ∧
    after (execEncode (.values (List.replicate 16 992)) { State.reset with encCrcStart := .typeByte }) (fun t =>
      t.tx.txf.read 25 == some 0xAD) = true := by decide +kernel
/-- P6: the count error, at its boundaries. -/
theorem test_encode_count :
    after (execEncode (.values (List.replicate 15 0)) State.reset) (fun t =>
      t.tx.err == some 15 && t.tx.out.isEmpty && t.tx.chcnt == 0) = true ∧
    after (execEncode (.values (List.replicate 40 0)) State.reset) (fun t => t.tx.err == some 17) = true := by
  decide +kernel
/-- V-RESET: the residue and the count go. -/
theorem test_reset : after (execReset ((counted 3).buffering [0xC8, 0x08, 0x1E, 0x27])) (fun t =>
    t.rx.rxbuf.isEmpty && t.tx.chcnt == 0 && t.rx.drop.isNone) = true := by decide +kernel

/-! ## The step -/

/-- The program interface: the first step after reset runs the word's instruction. -/
theorem test_step_runs_the_table_word :
    after (step (State.reset.withFetchWord 24 0xC80207)) (fun t => t.rx.events.length == 1 && t.rx.f[0] == 0) = true ∧
    after (step (State.reset.withFetchWord 24 0x000000)) (fun t =>
      t.rx.events == [rawEvent false .unrecognizedPacketType (List.replicate 64 0)]) = true := by decide +kernel
/-- R61: with an event waiting, a chunk put behind a beat does not pass it. -/
theorem test_step_keeps_the_order_of_rx_words :
    after (step (full.setInputs [.word (.rxBeat 0xC8 false), .word (.rxChunk varioFrame)])) (fun t =>
      t.inputs.length == 2 && t.rx == full.rx) = true := by decide +kernel
/-- R38, D15: the pulse needs no acknowledgement and hides no byte of a later frame. -/
theorem test_step_pulse :
    after (step (offered [.word (.chSet [1]), .word (.chSet (List.replicate 16 992))])) (fun t =>
      t.txErr && !t.txValid && after (step t) fun u => !u.txErr && u.txBeat == some (0xC8, false)) = true := by decide +kernel
theorem test_step_idle : after (step State.reset) (fun t => t == State.reset) = true := by decide +kernel
/-- P1's pins. -/
theorem test_pins : (Event.record (.attitude ⟨10000⟩ ⟨-10000⟩ ⟨0⟩) true attitudeFrame).pins.kind = 2 ∧
    (Event.record (.attitude ⟨10000⟩ ⟨-10000⟩ ⟨0⟩) true attitudeFrame).pins.type = some 0x1E ∧
    (Event.record (.attitude ⟨10000⟩ ⟨-10000⟩ ⟨0⟩) true attitudeFrame).pins.len = some 10 ∧
    (rawEvent true .truncatedPayload [0xC8, 0x02, 0x21, 0x71]).pins.cause = 4 := by decide +kernel

/-! ## Witnesses: for every obligation with hypotheses, states and operands that meet them together -/

theorem witness_EncodedInstrDecodesToItself :
    WellFormed (.decGps gpsFrame) = true ∧ WellFormed (.decTruncated [0xC8, 0x02, 0x21, 0x71]) = true ∧
    WellFormed (.lenTooShort 1) = true ∧ WellFormed (.lenLegal 2) = true ∧ WellFormed (.lenLegal 62) = true ∧
    WellFormed (.lenTooLong 63) = true ∧ WellFormed (.validate (longFrame 0x7E)) = true := by decide

theorem witness_DecodedWordIsItsEncoding : reads (.frame gpsFrame) (.decGps gpsFrame) = true := test_decode_gps

/-- The three clauses with a premise: a row that matches, a word no row matches, two frames of one type byte. -/
theorem witness_TypeByteSelectsTheRow :
    (∃ r ∈ typeRows, (0xC8111E : BitVec 24) &&& r.mask = r.pattern) ∧
    (∀ r ∈ typeRows, (0xC8027F : BitVec 24) &&& r.mask ≠ r.pattern) ∧
    typeByte varioFrame = typeByte [0x00, 0x3E, 0x07, 0x00] := by
  refine ⟨⟨⟨0x00001E, 0x0000FF, 10, .decAttitude⟩, ?_, by decide⟩, ?_, by decide⟩
  · simp [typeRows]
  · simp [typeRows]

/-- A beat that waits for an event stands before a word of the other path. -/
def waiting : State :=
  (offered [.word (.rxBeat 0xC8 false), .word (.chBeat 992 false), .takeEvent]).setRx (State.reset.rx.setEvents [.framingError 3 0])

/-- Nothing moves, by evaluation. -/
theorem noneMoves_of_pick {s : State} {is : List Input} (h : (pick s is).isNone = true) : NoneMoves s [] is :=
  pickAfter_eq_none.1 (Option.isNone_iff_eq_none.1 h)

theorem witness_StepRunsTheDecodedWord :
    waiting.inputs = [.word (.rxBeat 0xC8 false)] ++ .word (.chBeat 992 false) :: [.takeEvent] ∧
    NoneMoves waiting [] [.word (.rxBeat 0xC8 false)] ∧
    canMove waiting [.word (.rxBeat 0xC8 false)] (.word (.chBeat 992 false)) = true ∧
    reads (.chBeat 992 false) (.chLoad 992) = true :=
  ⟨rfl, noneMoves_of_pick (by decide +kernel), by decide +kernel, by decide +kernel⟩

theorem witness_StepTakesOutputsOrIdles :
    NoneMoves (offered [.takeEvent, .takeTx]) [] (offered [.takeEvent, .takeTx]).inputs ∧
    (∀ w ∈ ([.frame [1, 2, 3], .validate [1, 2, 3], .decode (0x00 :: longFrame 0x7E)] : List PortWord),
      (offered [.takeEvent, .word w]).inputs = [.takeEvent] ++ .word w :: [] ∧
      NoneMoves (offered [.takeEvent, .word w]) [] [.takeEvent] ∧
      canMove (offered [.takeEvent, .word w]) [.takeEvent] (.word w) = true) ∧
    (rejects (.frame [1, 2, 3]) (.frameTooShort 3) = true ∧ rejects (.validate [1, 2, 3]) (.frameTooShort 3) = true ∧
      rejects (.decode (0x00 :: longFrame 0x7E)) (.frameTooLong 65) = true) ∧
    (¬ LegalFrame [1, 2, 3] ∧ ¬ LegalFrame (0x00 :: longFrame 0x7E)) ∧
    (full.rx.events = .framingError 3 0 :: [] ∧ full.inputs = [.word (.rxBeat 0xC8 true)] ++ .takeEvent :: [] ∧
      NoneMoves full [] [.word (.rxBeat 0xC8 true)]) ∧
    (full.tx.out = ⟨0xC8, false⟩ :: [] ∧ (full.setInputs [.takeTx]).inputs = [] ++ .takeTx :: [] ∧
      NoneMoves (full.setInputs [.takeTx]) [] []) ∧
    (State.reset.rx.events = [] ∧ State.reset.tx.out = []) ∧
    ∃ t, step (offered [.takeEvent, .word (.chSet [])]) = .next t ∧ t.txErr = true :=
  ⟨noneMoves_of_pick (by decide +kernel), fun w hw => ⟨rfl, noneMoves_of_pick rfl, by revert w; decide +kernel⟩,
    ⟨by decide +kernel, by decide +kernel, by decide +kernel⟩, ⟨by simp [LegalFrame], by simp [LegalFrame, longFrame]⟩,
    ⟨rfl, rfl, noneMoves_of_pick (by decide +kernel)⟩, ⟨rfl, rfl, noneMoves_nil _ _⟩, ⟨rfl, rfl⟩,
    next_of_after (p := State.txErr) (by decide +kernel)⟩

theorem witness_RxBeatWaitsForTheEvent :
    full.rx.events = .framingError 3 0 :: [] ∧ full.rx.events ≠ [] ∧
    (full.inputs = [] ++ .word (.rxBeat 0xC8 true) :: [.takeEvent] ∧ ∃ t, step full = .next t) ∧
    (full.inputs = ([] ++ .word (.rxBeat 0xC8 true) :: []) ++ .takeEvent :: [] ∧
      NoneMoves full [] ([] ++ .word (.rxBeat 0xC8 true) :: [])) :=
  ⟨rfl, by decide, ⟨rfl, _, rfl⟩, rfl, noneMoves_of_pick (by decide +kernel)⟩

theorem witness_StepTakesExactlyOneInput :
    ¬ NoneMoves waiting [] waiting.inputs ∧ ∃ t, step waiting = .next t := by
  refine ⟨fun h => ?_, _, rfl⟩
  have := h [.word (.rxBeat 0xC8 false)] (.word (.chBeat 992 false)) [.takeEvent] rfl
  revert this
  decide +kernel

theorem witness_FirstBehaviourAfterReset : (∃ t, exec .reset dropping = .next t) ∧ ([0x00, 0xFF] : List Byte).length ≤ 2 ∧
    (Vector.replicate 16 (992 : Chan)).toList = List.replicate 16 992 :=
  ⟨⟨_, rfl⟩, by decide, by decide⟩

/-- The clause on at most two bytes at its boundary, and the clause on an unexamined illegal length byte. -/
theorem witness_TwoBytesAreNotExamined :
    (buffered [0xC8]).rx.drop = none ∧ ((buffered [0xC8]).rx.rxbuf ++ [0xFF]).length ≤ 2 ∧
    (buffered [0xC8, 0x3F]).rx.rxbuf = [0xC8, 0x3F] ∧ ¬ LegalLenByte 0x3F ∧ ([0x00] : List Byte) ≠ [] :=
  ⟨rfl, by decide, rfl, by simp [LegalLenByte], by decide⟩

theorem witness_ScanDiscardLosesTheWholeBuffer :
    (3 ≤ (buffered [0xC8, 0x01, 0x11]).rx.rxbuf.length ∧ ¬ LegalLenByte ((buffered [0xC8, 0x01, 0x11]).rx.rxbuf.getD 1 0)) ∧
    ¬ LegalLenByte 63 :=
  ⟨⟨by decide, by simp [LegalLenByte, buffered, State.buffering, State.setRx, RxState.setRxbuf]⟩, by simp [LegalLenByte]⟩

/-- Both clauses: the CRC that matches and the one that does not; the smallest frame. -/
theorem witness_ScanEmitValidatesThenDecodes :
    LegalLenByte ((buffered [0xC8, 0x02, 0x7F, 0x16]).rx.rxbuf.getD 1 0) ∧
    ((buffered [0xC8, 0x02, 0x7F, 0x16]).rx.rxbuf.getD 1 0).toNat + 2 ≤ (buffered [0xC8, 0x02, 0x7F, 0x16]).rx.rxbuf.length ∧
    crc8 (coveredBytes [0xC8, 0x02, 0x7F, 0x16]) = crcByteOf [0xC8, 0x02, 0x7F, 0x16] ∧
    LegalLenByte ((buffered (longFrame 0x7E)).rx.rxbuf.getD 1 0) ∧
    ((buffered (longFrame 0x7E)).rx.rxbuf.getD 1 0).toNat + 2 ≤ (buffered (longFrame 0x7E)).rx.rxbuf.length ∧
    crc8 (coveredBytes (longFrame 0x7E)) ≠ crcByteOf (longFrame 0x7E) :=
  ⟨⟨by decide, by decide⟩, by decide, by decide +kernel, ⟨by decide, by decide⟩, by decide, by decide +kernel⟩

/-- The residues at the bounds of R22: two arbitrary bytes, and 63 bytes of a frame of 64. -/
theorem residue_two : Residue (buffered [0xC8, 0xFF]).rx.rxbuf :=
  ⟨by decide, fun h => absurd h (by decide)⟩
theorem residue_longest : Residue ((longFrame 0x7E).take 63) :=
  ⟨by decide, fun _ => ⟨⟨by decide, by decide⟩, by decide⟩⟩

theorem witness_ScanWaitChangesNothing : Residue (buffered [0xC8, 0xFF]).rx.rxbuf ∧ Residue ((longFrame 0x7E).take 63) ∧
    (buffered [0xC8, 0xFF]).rx.rxbuf.length < 3 ∧ reads (.lenByte 1) (.lenTooShort 1) = true ∧
    reads (.lenByte 62) (.lenLegal 62) = true ∧ reads (.lenByte 63) (.lenTooLong 63) = true :=
  ⟨residue_two, residue_longest, by decide, by decide +kernel, by decide +kernel, by decide +kernel⟩

/-- Each class at its boundary values; the legal one with the frame complete and one byte short. -/
theorem witness_LengthByteClassesAndEffects :
    (∀ b ∈ ([0, 1, 2, 62, 63, 255] : List Byte),
      3 ≤ (buffered [0xC8, b, 0x11]).rx.rxbuf.length ∧ (buffered [0xC8, b, 0x11]).rx.rxbuf.getD 1 0 = b) ∧
    (2 : Byte).toNat + 2 ≤ (buffered [0xC8, 0x02, 0x7F, 0x16]).rx.rxbuf.length ∧
    (buffered ((longFrame 0x7E).take 63)).rx.rxbuf.length < (62 : Byte).toNat + 2 := by decide +kernel

/-- The four cases of the loop's turn, with the buffer after the chunk. -/
theorem witness_FeedRunsTheScanLoop :
    State.reset.rx.drop = none ∧ (State.reset.rx.rxbuf ++ [0xC8, 0xFF]).length ≤ 2 ∧
    (3 ≤ (State.reset.rx.rxbuf ++ [0xC8, 0x3F, 0x11]).length ∧ ¬ LegalLenByte 0x3F) ∧
    (LegalLenByte 2 ∧ (2 : Byte).toNat + 2 ≤ (State.reset.rx.rxbuf ++ [0xC8, 0x02, 0x7F, 0x16]).length) ∧
    (LegalLenByte 62 ∧ (State.reset.rx.rxbuf ++ [0xC8, 0x3E, 0x11]).length < (62 : Byte).toNat + 2) :=
  ⟨rfl, by decide, ⟨by decide, by simp [LegalLenByte]⟩, ⟨⟨by decide, by decide⟩, by decide⟩, ⟨by decide, by decide⟩, by decide⟩

theorem witness_FeedCompletesWithinBounds : (buffered [0xC8, 0x08, 0x1E, 0x27]).rx.drop = none := rfl

/-- The clauses of the streaming form: DROP set; two bytes; an illegal and a legal length at the third byte; the last byte of a
frame. -/
theorem witness_StreamingFormByteByByte :
    dropping.rx.drop = some ⟨3, 0xC8⟩ ∧ (buffered []).rx.drop = none ∧
    ((buffered [0xC8]).rx.rxbuf ++ [0xFF]).length ≤ 2 ∧
    (3 ≤ ((buffered [0xC8, 0x01]).rx.rxbuf ++ [0x00]).length ∧ ¬ LegalLenByte 0x01) ∧
    (LegalLenByte 0x02 ∧ ((buffered [0xC8, 0x02, 0x7F]).rx.rxbuf ++ [0x16]).length = (0x02 : Byte).toNat + 2) ∧
    ((buffered [0xC8, 0x02]).rx.rxbuf ++ [0x7F]).length < (0x02 : Byte).toNat + 2 :=
  ⟨rfl, rfl, by decide, ⟨by decide, by simp [LegalLenByte]⟩, ⟨⟨by decide, by decide⟩, by decide⟩, by decide⟩

theorem witness_StreamingFormEqualsFeed :
    (buffered [0xC8, 0xFF]).rx.drop = none ∧ Residue (buffered [0xC8, 0xFF]).rx.rxbuf ∧ ([0x00] : List Byte) ≠ [] :=
  ⟨rfl, residue_two, by decide⟩

/-- A run without a discard: the ATTITUDE frame in two chunks, from a residue. -/
theorem witness_ChunkingIsIrrelevantWithoutDiscard :
    (buffered [0xC8, 0x08]).rx.drop = none ∧ Residue (buffered [0xC8, 0x08]).rx.rxbuf ∧
    ∃ t, feedChunks [[0x1E, 0x27], [0x10, 0xD8, 0xF0, 0x00, 0x00, 0xAB]] (buffered [0xC8, 0x08]) = .next t ∧
      ∀ e ∈ t.rx.events.drop (buffered [0xC8, 0x08]).rx.events.length, e.error ≠ some .framingError := by
  refine ⟨rfl, ⟨by decide, fun h => absurd h (by decide)⟩, ?_⟩
  obtain ⟨t, ht, hp⟩ := next_of_after (p := fun t => decide (∀ e ∈ t.rx.events.drop (buffered [0xC8, 0x08]).rx.events.length,
      e.error ≠ some .framingError)) (show after (feedChunks [[0x1E, 0x27], [0x10, 0xD8, 0xF0, 0x00, 0x00, 0xAB]]
      (buffered [0xC8, 0x08])) _ = true by decide +kernel)
  exact ⟨t, ht, of_decide_eq_true hp⟩

theorem witness_ByteByByteGivesOneFrame :
    State.reset.rx.drop = none ∧ State.reset.rx.rxbuf = [] ∧ LegalFrame attitudeFrame ∧
    attitudeFrame.length = u8At attitudeFrame 1 + 2 :=
  ⟨rfl, rfl, ⟨by decide, by decide⟩, by decide⟩

theorem witness_DiscardThenNextFrameDecodes :
    State.reset.rx.drop = none ∧ State.reset.rx.rxbuf = [] ∧ 3 ≤ ([0xC8, 0xC8, 0x00] : List Byte).length ∧
    ([0xC8, 0xC8, 0x00] : List Byte).getD 1 0 = 200 ∧ LegalFrame attitudeFrame ∧
    attitudeFrame.length = u8At attitudeFrame 1 + 2 ∧ crc8 (coveredBytes attitudeFrame) = crcByteOf attitudeFrame :=
  ⟨rfl, rfl, by decide, by decide, ⟨by decide, by decide⟩, by decide, by decide +kernel⟩

theorem witness_StrayByteDiscardsTheFrame : State.reset.rx.drop = none ∧ State.reset.rx.rxbuf = [] := ⟨rfl, rfl⟩

theorem witness_CrcLinearZeroAppendTable : ([0x01, 0x00] : List Byte).length = ([0x80, 0x00] : List Byte).length := rfl

/-- A frame of the least and of the greatest length, and one on either side of them. -/
theorem witness_ValidateComparesTheCrc :
    LegalFrame [0xC8, 0x02, 0x7F, 0x16] ∧ LegalFrame (longFrame 0x7E) ∧ ¬ LegalFrame [0xC8, 0x02, 0x7F] ∧
    ¬ LegalFrame (0x00 :: longFrame 0x7E) ∧ (∃ t, exec (.validate varioFrame) State.reset = .next t) ∧
    ∃ u, exec (.validate ((varioFrame.set 0 0x00).set 1 0xFF)) State.reset = .next u :=
  ⟨⟨by decide, by decide⟩, ⟨by decide, by decide⟩, by simp [LegalFrame], by simp [LegalFrame, longFrame], ⟨_, rfl⟩, _, rfl⟩

/-- Each width at the last offset that fits, and at the first offset that does not. -/
theorem witness_MemReadIsBigEndian :
    5 < varioFrame.length ∧ 4 + 2 ≤ varioFrame.length ∧ 2 + 4 ≤ varioFrame.length ∧
    varioFrame.length < 6 + 1 ∧ varioFrame.length < 5 + 2 ∧ varioFrame.length < 3 + 4 := by decide

/-- Every arm of the dispatch, and a byte no arm names. -/
theorem witness_DecodeDispatchesOnTheType :
    (∀ p ∈ typedInstrs, 4 ≤ (longFrame p.1).length ∧ (longFrame p.1).length ≤ 64 ∧ typeByte (longFrame p.1) = p.1) ∧
    (LegalFrame [0xC8, 0x02, 0x7F, 0x16] ∧ typeByte [0xC8, 0x02, 0x7F, 0x16] ∉ packetTypes) ∧
    (∀ p ∈ structuredTypes, 4 ≤ (frameOf p.1 (p.2 - 4)).length ∧ typeByte (frameOf p.1 (p.2 - 4)) = p.1 ∧
      (frameOf p.1 (p.2 - 4)).length < p.2) :=
  ⟨by decide +kernel, ⟨⟨by decide, by decide⟩, by decide⟩, by decide +kernel⟩

theorem witness_DecodeIsTotalAndIgnoresSync :
    LegalFrame varioFrame ∧ [0x00, 0x02, 0x07, 0x01, 0x02, 0x03].length = varioFrame.length ∧
    typeByte [0x00, 0x02, 0x07, 0x01, 0x02, 0x03] = typeByte varioFrame ∧
    ∃ t, exec (.decode [0x00, 0x02, 0x07, 0x01, 0x02, 0x03]) State.reset = .next t :=
  ⟨⟨by decide, by decide⟩, by decide, by decide, _, rfl⟩

theorem witness_UpdateBitMarksStructured : LegalFrame varioFrame ∧ LegalFrame [0xC8, 0x02, 0x21, 0x71] :=
  ⟨⟨by decide, by decide⟩, by decide, by decide⟩

theorem witness_LinkStatisticsFields : LegalFrame linkFrame ∧ typeByte linkFrame = 0x14 ∧ 14 ≤ linkFrame.length :=
  ⟨⟨by decide, by decide⟩, by decide, by decide⟩
theorem witness_AttitudeFields : LegalFrame attitudeFrame ∧ typeByte attitudeFrame = 0x1E ∧ 10 ≤ attitudeFrame.length :=
  ⟨⟨by decide, by decide⟩, by decide, by decide⟩
theorem witness_FlightModeName : LegalFrame [0xC8, 0x03, 0x21, 0x00, 0xBE] ∧ typeByte [0xC8, 0x03, 0x21, 0x00, 0xBE] = 0x21 ∧
    5 ≤ ([0xC8, 0x03, 0x21, 0x00, 0xBE] : List Byte).length :=
  ⟨⟨by decide, by decide⟩, by decide, by decide⟩
theorem witness_BatteryFields : LegalFrame batteryFrame ∧ typeByte batteryFrame = 0x08 ∧ 12 ≤ batteryFrame.length :=
  ⟨⟨by decide, by decide⟩, by decide, by decide⟩
theorem witness_BaroAltField : LegalFrame baroFrame ∧ typeByte baroFrame = 0x09 ∧ 8 ≤ baroFrame.length :=
  ⟨⟨by decide, by decide⟩, by decide, by decide⟩
theorem witness_GpsFields : LegalFrame gpsFrame ∧ typeByte gpsFrame = 0x02 ∧ 19 ≤ gpsFrame.length :=
  ⟨⟨by decide, by decide⟩, by decide, by decide⟩
theorem witness_VarioField : LegalFrame varioFrame ∧ typeByte varioFrame = 0x07 ∧ 6 ≤ varioFrame.length :=
  ⟨⟨by decide, by decide⟩, by decide, by decide⟩

/-- One frame of 4 bytes, the least length, for each of the eight types. -/
theorem witness_FieldlessTypesGiveRawOrNoop :
    (∀ t ∈ ([0x29, 0x16, 0x7F, 0x0B, 0x0F, 0x2C, 0x2D, 0x3A] : List Byte),
      (4 ≤ (frameOf t 1).length ∧ (frameOf t 1).length ≤ 64) ∧ typeByte (frameOf t 1) = t) ∧
    typeByte (frameOf 0x7F 1) ∉ packetTypes := by decide +kernel

/-- Each structured type, one byte below its minimum. -/
theorem witness_TruncatedFrameGivesRaw : ∀ p ∈ structuredTypes,
    (4 ≤ (frameOf p.1 (p.2 - 4)).length ∧ (frameOf p.1 (p.2 - 4)).length ≤ 64) ∧
    typeByte (frameOf p.1 (p.2 - 4)) = p.1 ∧ (frameOf p.1 (p.2 - 4)).length < p.2 := by decide +kernel

/-- Every clause: the lengths 3 and 65; a frame of another type; a known type for DEC_UNKNOWN; a fieldless and a long enough frame
for DEC_TRUNCATED; a short frame for its own row; each length class one value outside it, and a byte that is not the head's. -/
theorem witness_StopsOutsideTheOperandDomain :
    (¬ LegalFrame [0xC8, 0x02, 0x7F] ∧ ¬ LegalFrame (0x00 :: longFrame 0x7E)) ∧
    (∀ p ∈ typedInstrs, typeByte (longFrame 0x7F) ≠ p.1) ∧ LegalFrame (longFrame 0x7F) ∧
    (LegalFrame (longFrame 0x02) ∧ typeByte (longFrame 0x02) ∈ packetTypes) ∧
    (LegalFrame (longFrame 0x29) ∧ ∀ p ∈ structuredTypes, typeByte (longFrame 0x29) ≠ p.1) ∧
    (∀ p ∈ structuredTypes, typeByte (frameOf p.1 (p.2 - 3)) = p.1 ∧ p.2 ≤ (frameOf p.1 (p.2 - 3)).length) ∧
    (∀ p ∈ structuredTypes, (frameOf p.1 (p.2 - 4)).length < p.2 ∧ ∃ q ∈ typedInstrs.map Prod.fst, q = p.1) ∧
    2 ≤ (2 : Byte).toNat ∧ ¬ LegalLenByte 1 ∧ ¬ LegalLenByte 63 ∧ (62 : Byte).toNat ≤ 62 ∧
    3 ≤ (buffered [0xC8, 0x3F, 0x11]).rx.rxbuf.length ∧ (buffered [0xC8, 0x3F, 0x11]).rx.rxbuf.getD 1 0 ≠ (2 : Byte) ∧
    reads (.lenByte 2) (.lenLegal 2) = true := by
  refine ⟨⟨by simp [LegalFrame], by simp [LegalFrame, longFrame]⟩, by decide +kernel, ⟨by decide, by decide⟩,
    ⟨⟨by decide, by decide⟩, by decide⟩, ⟨⟨by decide, by decide⟩, by decide⟩, by decide +kernel, by decide +kernel, by decide,
    by simp [LegalLenByte], by simp [LegalLenByte], by decide, by decide, by decide, by decide +kernel⟩

/-- The count at 15, 16 and 17. -/
theorem witness_ChLoadStoresAndCounts :
    (counted 15).tx.chcnt.toNat < 16 ∧ (counted 16).tx.chcnt.toNat = 16 ∧ 17 ≤ (counted 17).tx.chcnt.toNat := by decide

/-- The first and the last bit of the payload. -/
theorem witness_PackedBitPositions : (0 : Nat) = (11 * 0 + 0) / 8 ∧ (21 : Nat) = (11 * 15 + 10) / 8 := by decide

theorem witness_PackingIsInjective :
    (∃ t, exec .pack State.reset = .next t ∧ ∃ t', exec .pack (counted 3) = .next t' ∧ t.tx.pk = t'.tx.pk) ∧
    State.reset.tx.chcnt = 0 ∧
    ∃ t sent, exec (.encode (.values (List.replicate 16 992))) State.reset = .next t ∧ sent ≠ [] ∧
      t.tx.out = State.reset.tx.out ++ sent := by
  obtain ⟨t, ht, hp⟩ := next_of_after (r := exec (.encode (.values (List.replicate 16 992))) State.reset)
    (p := fun t => !t.tx.out.isEmpty) (by decide +kernel)
  exact ⟨⟨_, rfl, _, rfl, rfl⟩, rfl, t, t.tx.out, ht, by simpa using hp, rfl⟩

theorem witness_EncodeWritesTheFrame : State.reset.tx.chcnt = 0 ∧ 21 < 22 ∧ 26 ≤ 26 := by decide

theorem witness_EncodeSendsTheFrame :
    State.reset.tx.chcnt = 0 ∧ (List.replicate 15 (0 : Chan)).length ≠ 16 ∧ (List.replicate 17 (0 : Chan)).length ≠ 16 := by
  decide

/-- The counts before the commit: 15; 14, 16 and 17; 0. -/
theorem witness_CommitChecksTheCount :
    (counted 15).tx.chcnt = 15 ∧ (∀ n ∈ ([0, 14, 16, 17] : List (BitVec 5)), (counted n).tx.chcnt ≠ 15 ∧ (counted n).tx.chcnt.toNat ≤ 17) ∧
    (counted 0).tx.chcnt = 0 := by decide +kernel

theorem witness_EncodedFrameAgainstTheValidator : State.reset.rx.drop = none ∧ State.reset.rx.rxbuf = [] := ⟨rfl, rfl⟩

theorem witness_EventPinForm :
    (rawEvent true .truncatedPayload [0xC8, 0x02, 0x21, 0x71]).frame = some [0xC8, 0x02, 0x21, 0x71] ∧
    (Event.noop (longFrame 0x16)).frame = some (longFrame 0x16) ∧ (longFrame 0x16).length ≤ 64 := by decide +kernel

/-- A state that meets the invariant with a residue, a candidate frame, an event, a full count, and a step from it that runs the
residue's last byte. -/
def busy : State where
  rx := { State.reset.rx with
    rxbuf := [0xC8, 0x02, 0x7F]
    frame := Memory.ofBytes [0xC8, 0x02, 0x16, 0xD3]
    events := [.noop [0xC8, 0x02, 0x16, 0xD3]] }
  tx := { State.reset.tx with chcnt := 17, err := some 15, txf := State.reset.tx.txf.write 25 0x2C }
  encCrcStart := .lengthByte
  inputs := [.word (.rxChunk [0x16])]
  free := 0

theorem busy_inv : busy.Inv := by
  refine ⟨⟨⟨by decide, fun _ => ⟨⟨by decide, by decide⟩, by decide⟩⟩, fun d h => (by cases h), ⟨_, ?_, rfl⟩, ?_⟩,
    by decide, rfl, rfl, by decide, ?_, ?_⟩
  · decide
  · intro e he
    obtain rfl := List.mem_singleton.mp he
    exact ⟨⟨by decide, by decide⟩, by decide⟩
  · intro a
    by_cases h : a = 25
    · subst h
      decide
    · rw [show busy.tx.txf = TxState.reset.txf.write 25 0x2C from rfl, Memory.read_write_other _ _ h, TxState.reset_txf,
        Memory.read_ofBytes_isSome, List.length_replicate]
  · intro n hn
    obtain rfl : 15 = n := Option.some.inj hn
    decide

theorem witness_StepKeepsTheInvariant : busy.Inv ∧ ∃ t, step busy = .next t := ⟨busy_inv, _, rfl⟩

/-- One operand for each instruction that has one. -/
theorem witness_WellFormedInstrCompletes :
    (∀ p ∈ typedInstrs, WellFormed (p.2 (longFrame p.1)) = true ∧ onBufferHead (p.2 (longFrame p.1)) = false) ∧
    WellFormed (.decUnknown (longFrame 0x7F)) = true ∧ WellFormed (.decTruncated [0xC8, 0x02, 0x21, 0x71]) = true ∧
    WellFormed (.validate varioFrame) = true ∧ WellFormed (.decode varioFrame) = true ∧
    WellFormed (.feed (.chunk varioFrame)) = true ∧ WellFormed (.encode (.values [])) = true := by decide +kernel

theorem witness_RxAndTxPathsCommute :
    onRxPath (.decode varioFrame) = true ∧ onTxPath (.chLoad 992) = true ∧
    (∃ t, exec (.decode varioFrame) State.reset = .next t) ∧ (∃ u, exec (.chLoad 992) State.reset = .next u) ∧
    (State.reset.setTx (counted 3).tx).rx = State.reset.rx ∧ (buffered [0xC8]).tx = State.reset.tx ∧
    (buffered [0xC8]).encCrcStart = State.reset.encCrcStart :=
  ⟨rfl, rfl, ⟨_, rfl⟩, ⟨_, rfl⟩, rfl, rfl, rfl⟩

theorem witness_OutputsOnlyGrow : (∃ t, exec (.feed (.chunk attitudeFrame)) busy = .next t) ∧
    Instr.feed (.chunk attitudeFrame) ≠ .reset := ⟨⟨_, rfl⟩, by decide⟩

end Sys2Proof.Tests
end

/-! PROOFS of the family 10_state. What an operation may do to its half of the machine is said once, by `RxState.StepsTo` and
`TxState.StepsTo` (outputs only appended to, invariant kept); every instruction is shown to do no more, and the statements about
`exec` and `step` follow from that and from the laws of Laws/Step.lean. -/

namespace Sys2Proof.Machine

/-! ## What an operation may do to the RX half -/

/-- `r'` comes from `r` by what an operation of the RX path may do: events are only appended (R61, R209), and the invariant is
kept. -/
structure RxState.StepsTo (r r' : RxState) : Prop where
  events : ∃ es, r'.events = r.events ++ es
  inv : r.Inv → r'.Inv

theorem RxState.StepsTo.refl (r : RxState) : r.StepsTo r := ⟨⟨[], by simp⟩, id⟩

theorem RxState.StepsTo.trans {a b c : RxState} (hab : a.StepsTo b) (hbc : b.StepsTo c) : a.StepsTo c := by
  obtain ⟨es, he⟩ := hab.events
  obtain ⟨fs, hf⟩ := hbc.events
  exact ⟨⟨es ++ fs, by rw [hf, he, List.append_assoc]⟩, hbc.inv ∘ hab.inv⟩

/-! The registers the invariant does not speak of may take any value. -/

theorem RxState.stepsTo_setCrcacc (r : RxState) (c : Byte) : r.StepsTo (r.setCrcacc c) := ⟨⟨[], by simp⟩, id⟩

theorem RxState.stepsTo_setValid (r : RxState) (v : Bool) : r.StepsTo (r.setValid v) := ⟨⟨[], by simp⟩, id⟩

theorem RxState.stepsTo_setF (r : RxState) (f : Vector Word32 10) : r.StepsTo (r.setF f) := ⟨⟨[], by simp⟩, id⟩

/-- A snapshot of at most 64 bytes may become the candidate frame (R50). -/
theorem RxState.stepsTo_setFrame (r : RxState) {bs : List Byte} (hl : bs.length ≤ 64) :
    r.StepsTo (r.setFrame (Memory.ofBytes bs)) :=
  ⟨⟨[], by simp⟩, fun ⟨hbuf, hdrop, _, hevents⟩ => ⟨hbuf, hdrop, ⟨bs, hl, rfl⟩, hevents⟩⟩

/-- With DROP = 0 the buffer may become whatever is a residue where the old one was (R22). -/
theorem RxState.stepsTo_setRxbuf (r : RxState) {buf : List Byte} (hd : r.drop = none)
    (hb : Residue r.rxbuf → Residue buf) : r.StepsTo (r.setRxbuf buf) :=
  ⟨⟨[], by simp⟩, fun ⟨hbuf, _, hframe, hevents⟩ => ⟨hb hbuf, fun d h => by simp [hd] at h, hframe, hevents⟩⟩

/-- An event may be appended that is legal where the invariant holds. -/
theorem RxState.stepsTo_emit (r : RxState) {e : Event} (he : r.Inv → e.Legal) : r.StepsTo (r.emit e) := by
  refine ⟨⟨[e], rfl⟩, fun h => ?_⟩
  obtain ⟨hbuf, hdrop, hframe, hevents⟩ := id h
  refine ⟨hbuf, hdrop, hframe, fun x hx => ?_⟩
  rcases List.mem_append.1 hx with hx | hx
  · exact hevents x hx
  · exact List.mem_singleton.1 hx ▸ he h

/-! ## The operations on a candidate frame -/

/-- On every legal frame of type `t` the operation, if it completes, does only what an RX operation may do. -/
def StepsOnFrame (t : Byte) (op : RxState → Res RxState) : Prop :=
  ∀ (bs : List Byte) (r r' : RxState), LegalFrame bs → bs.getD 2 0 = t → r.frame = Memory.ofBytes bs → op r = .next r' →
    r.StepsTo r'

/-- An operation that emits one legal event per frame does only that and the writing of field registers. -/
theorem EmitsOne.stepsOnFrame {t : Byte} {op : RxState → Res RxState} (h : EmitsOne 4 t op) : StepsOnFrame t op := by
  intro bs r r' hl ht hf hop
  obtain ⟨regs, event, hrun, hlegal⟩ := h bs hl ht hl.1
  obtain rfl := Host.Outcome.next.inj ((hrun r hf).symm.trans hop)
  exact (r.stepsTo_setF _).trans (RxState.stepsTo_emit _ fun _ => (hlegal r.f).1)

/-- Taking an operand as the candidate frame and running an operation on it. -/
theorem withFrame_stepsTo {frame : List Byte} {op : RxState → Res RxState} (hop : StepsOnFrame (frame.getD 2 0) op)
    {r r' : RxState} (h : withFrame frame op r = .next r') : r.StepsTo r' := by
  by_cases hl : LegalFrame frame
  · rw [withFrame_legal hl] at h
    exact (r.stepsTo_setFrame hl.2).trans (hop frame _ _ hl rfl rfl h)
  · rw [withFrame_illegal hl] at h
    cases h

/-- VALIDATE writes the running CRC and the result bit (R125). -/
theorem validateFrame_stepsOnFrame (t : Byte) : StepsOnFrame t validateFrame := by
  intro bs r r' hl _ hf h
  rw [validateFrame_ofBytes r bs hf hl.1] at h
  obtain rfl := Host.Outcome.next.inj h
  exact (r.stepsTo_setCrcacc _).trans (RxState.stepsTo_setValid _ _)

/-- Validating a frame and then decoding or rejecting it (R104). -/
theorem acceptFrame_stepsOnFrame (t : Byte) : StepsOnFrame t acceptFrame := by
  intro bs r r' hl _ hf h
  obtain ⟨v, regs, event, hrun, hlegal⟩ := acceptFrame_ofBytes bs hl
  obtain rfl := Host.Outcome.next.inj ((hrun r hf).symm.trans h)
  exact (((r.stepsTo_setCrcacc _).trans (RxState.stepsTo_setValid _ _)).trans (RxState.stepsTo_setF _ _)).trans
    (RxState.stepsTo_emit _ fun _ => (hlegal r.f).1)

/-! ## The DEC_* rows -/

/-- A type with a minimum length is among the fourteen (R76, R80). -/
theorem mem_packetTypes_of_lMinOf {t : Byte} (h : (lMinOf t).isSome = true) : t ∈ packetTypes := by
  refine Decidable.byContradiction fun hn => ?_
  simp only [packetTypes, structuredTypes, List.map_cons, List.map_nil, List.mem_append, List.mem_cons, not_or] at hn
  simp only [lMinOf, hn, if_false, Option.isSome_none, Bool.false_eq_true] at h

/-- The catch-all row takes none of the fourteen (R75). -/
theorem not_mem_packetTypes_of_unknown {t : Byte} (h : ((lMinOf t).isNone && !fieldless t) = true) : t ∉ packetTypes := by
  have key : ∀ u ∈ packetTypes, ((lMinOf u).isNone && !fieldless u) = false := by decide
  intro hmem
  rw [key t hmem] at h
  cases h

/-- A DEC_* row whose operation is sound on every type the row takes. -/
theorem decRow_stepsTo {ok : Byte → Bool} {op : RxState → Res RxState} (hop : ∀ t, ok t = true → StepsOnFrame t op)
    {frame : List Byte} {s t : State} (h : decRow ok op frame s = .next t) : s.rx.StepsTo t.rx := by
  by_cases hl : LegalFrame frame
  · cases hok : ok (frame.getD 2 0) with
    | false => rw [decRow_otherType hl hok] at h; cases h
    | true =>
      rw [decRow_legal hl hok, onRx_eq_next] at h
      obtain ⟨r, hr, rfl⟩ := h
      exact (s.rx.stepsTo_setFrame hl.2).trans (hop _ hok frame _ _ hl rfl rfl hr)
  · rw [decRow_illegal hl] at h
    cases h

/-- A row of a single type byte. -/
theorem decRow_type_stepsTo {t₀ : Byte} {op : RxState → Res RxState} (hop : EmitsOne 4 t₀ op)
    {frame : List Byte} {s t : State} (h : decRow (· == t₀) op frame s = .next t) : s.rx.StepsTo t.rx :=
  decRow_stepsTo (fun _ ht => eq_of_beq ht ▸ hop.stepsOnFrame) h

theorem execDecUnknown_stepsTo {frame : List Byte} {s t : State} (h : execDecUnknown frame s = .next t) :
    s.rx.StepsTo t.rx :=
  decRow_stepsTo (fun _ ht => (emitsOne_unrecognized
    (by simpa using not_mem_packetTypes_of_unknown ht)).stepsOnFrame) h

theorem execDecTruncated_stepsTo {frame : List Byte} {s t : State} (h : execDecTruncated frame s = .next t) :
    s.rx.StepsTo t.rx := by
  refine decRow_stepsTo (fun ty hty bs r r' hl h2 hf hop => ?_) h
  obtain ⟨_, _, hop⟩ := andThen_eq_next.1 hop
  split at hop
  · exact (emitsOne_truncated (mem_packetTypes_of_lMinOf hty)).stepsOnFrame bs r r' hl h2 hf hop
  · cases hop

/-! ## The deframer -/

/-- One more byte on a residue leaves a residue where it completes no frame and its length byte is legal or not yet examined
(R22, R108). -/
theorem Residue.append_byte {buf : List Byte} {b : Byte} (h : Residue buf)
    (hb : ∀ len, headLen (buf ++ [b]) = some len → LegalLenByte len ∧ (buf ++ [b]).length ≠ len.toNat + 2) :
    Residue (buf ++ [b]) := by
  refine residue_of_wait ?_
  by_cases h3 : 3 ≤ (buf ++ [b]).length
  · obtain ⟨hlegal, hne⟩ := hb _ (headLen_of_long h3)
    refine selectArm_wait h3 hlegal ?_
    have hmin := hlegal.1
    by_cases h2 : 3 ≤ buf.length
    · have hlt := (h.2 h2).2
      rw [getD_append_left _ _ _ _ (by omega)] at hne ⊢
      simp only [List.length_append, List.length_singleton] at hne ⊢
      omega
    · simp only [List.length_append, List.length_singleton] at hne ⊢
      omega
  · exact selectArm_short (Nat.lt_of_not_le h3)

/-- SCAN_DISCARD where its condition holds (R103). -/
theorem scanDiscard_stepsTo {r : RxState} (h3 : 3 ≤ r.rxbuf.length) (hb : ¬ LegalLenByte (r.rxbuf.getD 1 0)) :
    r.StepsTo (scanDiscard r) := by
  have hempty : r.StepsTo (r.setRxbuf []) := 
    ⟨⟨[], by simp⟩, fun ⟨_, hdrop, hframe, hevents⟩ =>
      ⟨residue_nil, fun d hd => ⟨rfl, (hdrop d hd).2⟩, hframe, hevents⟩⟩
  exact hempty.trans (RxState.stepsTo_emit _ fun _ => ⟨h3, hb⟩)

/-- SCAN_EMIT where its condition holds: one event; and a residue never meets the condition (R22, R104). -/
theorem scanEmit_stepsTo {r r' : RxState} (hsel : selectArm r.rxbuf = .emit) (h : scanEmit r = .next r') :
    r.StepsTo r' := by
  obtain ⟨-, hb, hl⟩ := selectArm_eq_emit.1 hsel
  obtain ⟨c, v, f, e, hrun, -⟩ := scanEmit_spec r hb hl
  obtain rfl := Host.Outcome.next.inj (hrun.symm.trans h)
  refine ⟨⟨[e], rfl⟩, fun ⟨hbuf, _⟩ => ?_⟩
  rw [selectArm_residue hbuf] at hsel
  cases hsel

/-- An arm standing alone runs only where it is selected (R112). -/
theorem whenSelected_eq_next {arm : ScanArm} {op : RxState → Res RxState} {r r' : RxState} :
    whenSelected arm op r = .next r' ↔ selectArm r.rxbuf = arm ∧ op r = .next r' := by
  rw [whenSelected]
  split <;> simp [*]

/-- A LEN_* class does something only where its byte is the one at the head, and of the class (R72, R102). -/
theorem lenRow_eq_next {ok : Bool} {b : Byte} {op : RxState → Res RxState} {r r' : RxState}
    (h : lenRow ok b op r = .next r') : r' = r ∨ ok = true ∧ headLen r.rxbuf = some b ∧ op r = .next r' := by
  rw [lenRow] at h
  cases hok : ok with
  | false => simp [hok] at h
  | true =>
    rw [if_pos hok] at h
    cases hh : headLen r.rxbuf with
    | none => rw [hh] at h; exact .inl (Host.Outcome.next.inj h).symm
    | some c =>
      rw [hh] at h
      by_cases hc : c = b
      · exact .inr ⟨rfl, by rw [hc], by simpa [hc] using h⟩
      · simp [hc] at h

/-- LEN_TOO_SHORT and LEN_TOO_LONG: a class of illegal length bytes discards (R72). -/
theorem lenRow_discard_stepsTo {ok : Bool} {b : Byte} (hok : ok = true → ¬ LegalLenByte b) {r r' : RxState}
    (h : lenRow ok b (fun r => .next (scanDiscard r)) r = .next r') : r.StepsTo r' := by
  rcases lenRow_eq_next h with rfl | ⟨hclass, hhead, hop⟩
  · exact .refl _
  · obtain rfl := Host.Outcome.next.inj hop
    obtain ⟨h3, hb⟩ := headLen_eq_some hhead
    exact scanDiscard_stepsTo h3 (hb ▸ hok hclass)

/-- LEN_LEGAL: SCAN_EMIT where the frame is complete, else nothing (R72). -/
theorem lenRow_legal_stepsTo {b : Byte} {r r' : RxState}
    (h : lenRow (legalLen b) b (fun r => if (expected b).toNat ≤ r.rxbuf.length then scanEmit r else .next (scanWait r)) r =
      .next r') : r.StepsTo r' := by
  rcases lenRow_eq_next h with rfl | ⟨hclass, hhead, hop⟩
  · exact .refl _
  · split at hop
    next hlen =>
      obtain ⟨h3, hb⟩ := headLen_eq_some hhead
      rw [expected_toNat] at hlen
      exact scanEmit_stepsTo (selectArm_emit h3 (hb ▸ (legalLen_iff b).1 hclass) (hb ▸ hlen)) hop
    next =>
      obtain rfl := Host.Outcome.next.inj hop
      exact .refl _

/-! ## FEED -/

/-- Bytes counted while DROP = 1 (R108). -/
theorem RxState.stepsTo_countDrop {r : RxState} {d : Discard} (hd : r.drop = some d) (k : Nat) :
    r.StepsTo (r.setDrop (some { d with ndisc := d.ndisc + k })) := by
  refine ⟨⟨[], by simp⟩, fun ⟨hbuf, hdrop, hframe, hevents⟩ => ⟨hbuf, ?_, hframe, hevents⟩⟩
  rintro _ ⟨⟩
  obtain ⟨hempty, hcount, hlen⟩ := hdrop d hd
  exact ⟨hempty, Nat.le_add_right_of_le hcount, hlen⟩

/-- The end of a chunk reports the discard in progress, which the invariant makes a legal one (R108). -/
theorem chunkEnd_stepsTo (r : RxState) : r.StepsTo (chunkEnd r) := by
  rw [chunkEnd]
  cases hd : r.drop with
  | none => exact .refl r
  | some d =>
    refine ⟨⟨[_], rfl⟩, fun h => ?_⟩
    obtain ⟨hbuf, hdrop, hframe, hevents⟩ := h
    have hclear : (r.setDrop none).Inv := ⟨hbuf, nofun, hframe, hevents⟩
    exact (RxState.stepsTo_emit _ (e := .framingError d.ndisc d.lenb) fun _ => (hdrop d hd).2).inv hclear

/-- A byte that shows an illegal length byte sets DROP and empties the buffer (R108). -/
theorem RxState.stepsTo_beginDrop (r : RxState) {d : Discard} (h3 : 3 ≤ d.ndisc) (hb : ¬ LegalLenByte d.lenb) :
    r.StepsTo ((r.setRxbuf []).setDrop (some d)) := by
  refine ⟨⟨[], by simp⟩, fun ⟨_, _, hframe, hevents⟩ => ⟨residue_nil, ?_, hframe, hevents⟩⟩
  rintro _ ⟨⟩
  exact ⟨rfl, h3, hb⟩

/-- One byte of the streaming form (R108). -/
theorem rxByte_stepsTo {r r' : RxState} {b : Byte} (h : rxByte r b = .next r') : r.StepsTo r' := by
  rw [rxByte] at h
  cases hd : r.drop with
  | some d =>
    rw [hd] at h
    obtain rfl := Host.Outcome.next.inj h
    exact RxState.stepsTo_countDrop hd 1
  | none =>
    rw [hd] at h
    cases hh : headLen (r.rxbuf ++ [b]) with
    | none =>
      simp only [hh] at h
      obtain rfl := Host.Outcome.next.inj h
      exact r.stepsTo_setRxbuf hd fun hres => hres.append_byte fun len hlen => by simp [hh] at hlen
    | some len =>
      obtain ⟨h3, -⟩ := headLen_eq_some hh
      simp only [hh] at h
      by_cases hlegal : legalLen len = true
      · have hb := (legalLen_iff len).1 hlegal
        obtain ⟨hmin, hmax⟩ := id hb
        rw [if_pos hlegal, expected_toNat] at h
        by_cases hfull : (r.rxbuf ++ [b]).length = len.toNat + 2
        · rw [if_pos hfull] at h
          exact ((r.stepsTo_setFrame (by omega)).trans (RxState.stepsTo_setRxbuf _ hd fun _ => residue_nil)).trans
            (acceptFrame_stepsOnFrame _ _ _ _ ⟨by omega, by omega⟩ rfl rfl h)
        · rw [if_neg hfull] at h
          obtain rfl := Host.Outcome.next.inj h
          refine r.stepsTo_setRxbuf hd fun hres => hres.append_byte fun len' hlen' => ?_
          obtain rfl := Option.some.inj (hh.symm.trans hlen')
          exact ⟨hb, hfull⟩
      · rw [if_neg hlegal] at h
        obtain rfl := Host.Outcome.next.inj h
        exact r.stepsTo_beginDrop h3 fun hb => hlegal ((legalLen_iff len).2 hb)

/-- One beat (R39, R108). -/
theorem rxBeat_stepsTo {b : Byte} {last : Bool} {r r' : RxState} (h : rxBeat b last r = .next r') : r.StepsTo r' := by
  rw [rxBeat_eq] at h
  cases last with
  | false => exact rxByte_stepsTo h
  | true =>
    obtain ⟨m, hm, rfl⟩ := mapRes_eq_next.1 h
    exact (rxByte_stepsTo hm).trans (chunkEnd_stepsTo m)

/-- A whole pass of the scan loop (R101). -/
theorem PassResult.stepsTo {r r' : RxState} {buf : List Byte} (hd : r.drop = none) (h : PassResult (r.setRxbuf buf) r') :
    r.StepsTo r' := by
  obtain ⟨es, last, hevents, hlegal, -⟩ := h.events
  rw [RxState.setRxbuf_events, List.append_assoc] at hevents
  refine ⟨⟨_, hevents⟩, fun ⟨_, _, hframe, hold⟩ => ⟨h.residue, fun d hdrop => ?_, ?_, fun e he => ?_⟩⟩
  · rw [h.drop, RxState.setRxbuf_drop, hd] at hdrop
    cases hdrop
  · rcases h.frame with hsame | hnew
    · exact hsame ▸ hframe
    · exact hnew
  · rw [hevents] at he
    exact (List.mem_append.1 he).elim (hold e) (hlegal e)

/-- A whole chunk (R101; with DROP = 1 log entry 12). -/
theorem feedChunk_stepsTo {chunk : List Byte} {r r' : RxState} (h : feedChunk chunk r = .next r') : r.StepsTo r' := by
  cases hd : r.drop with
  | none =>
    obtain ⟨m, hm, hpass⟩ := feedChunk_spec hd chunk
    obtain rfl := Host.Outcome.next.inj (hm.symm.trans h)
    exact hpass.stepsTo hd
  | some d =>
    rw [feedChunk, hd] at h
    obtain rfl := Host.Outcome.next.inj h
    exact (RxState.stepsTo_countDrop hd _).trans (chunkEnd_stepsTo _)

/-! ## Every instruction of the RX path -/

theorem onRx_stepsTo {op : RxState → Res RxState} (hop : ∀ r r', op r = .next r' → r.StepsTo r') {s t : State}
    (h : onRx op s = .next t) : s.rx.StepsTo t.rx := by
  obtain ⟨r, hr, rfl⟩ := onRx_eq_next.1 h
  exact hop _ _ hr

theorem onCrc_rx_stepsTo {g : Byte → Byte} {s t : State} (h : onCrc .rx g s = .next t) : s.rx.StepsTo t.rx := by
  rw [execCrc_rx] at h
  exact onRx_stepsTo (fun r _ hr => Host.Outcome.next.inj hr ▸ r.stepsTo_setCrcacc _) h

/-- An instruction of the TX path leaves the RX half alone (R33). -/
theorem exec_onTx_rx {i : Instr} (hi : onTxPath i = true) {s t : State} (h : exec i s = .next t) : t.rx = s.rx := by
  obtain ⟨op, ho⟩ := exec_onTx hi
  rw [ho, onTx_eq_next] at h
  obtain ⟨u, -, rfl⟩ := h
  rfl

/-- An instruction of the RX path leaves the TX half alone (R33). -/
theorem exec_onRx_tx {i : Instr} (hi : onRxPath i = true) {s t : State} (h : exec i s = .next t) : t.tx = s.tx := by
  obtain ⟨op, ho⟩ := exec_onRx hi
  rw [ho, onRx_eq_next] at h
  obtain ⟨u, -, rfl⟩ := h
  rfl

/-- Each instruction is on one path, or it is RESET (R20). -/
theorem path_cases (i : Instr) : i = .reset ∨ onRxPath i = true ∨ onTxPath i = true := by
  cases hi : onTxPath i with
  | true => exact .inr (.inr rfl)
  | false =>
    by_cases hr : i = .reset
    · exact .inl hr
    · refine .inr (.inl ?_)
      rw [onRxPath, hi]
      · rfl
      · exact hr

/-- Whatever instruction completes, RESET apart: events are only appended and the RX path's invariant is kept. -/
theorem exec_rx_stepsTo {i : Instr} (hi : i ≠ .reset) {s t : State} (h : exec i s = .next t) : s.rx.StepsTo t.rx := by
  by_cases htx : onTxPath i = true
  · exact exec_onTx_rx htx h ▸ .refl _
  cases i with
  | decGps frame => exact decRow_type_stepsTo (emitsOne_guarded (by decide) emitsOne_gps) h
  | decVario frame => exact decRow_type_stepsTo (emitsOne_guarded (by decide) emitsOne_vario) h
  | decBatterySensor frame => exact decRow_type_stepsTo (emitsOne_guarded (by decide) emitsOne_batterySensor) h
  | decBaroAlt frame => exact decRow_type_stepsTo (emitsOne_guarded (by decide) emitsOne_baroAlt) h
  | decLinkStatistics frame => exact decRow_type_stepsTo (emitsOne_guarded (by decide) emitsOne_linkStatistics) h
  | decAttitude frame => exact decRow_type_stepsTo (emitsOne_guarded (by decide) emitsOne_attitude) h
  | decFlightMode frame => exact decRow_type_stepsTo (emitsOne_guarded (by decide) emitsOne_flightMode) h
  | decHeartbeat frame => exact decRow_type_stepsTo (emitsOne_unrecognized (by decide)) h
  | decVideoTransmitter frame => exact decRow_type_stepsTo (emitsOne_unrecognized (by decide)) h
  | decConfigRead frame => exact decRow_type_stepsTo (emitsOne_unrecognized (by decide)) h
  | decConfigWrite frame => exact decRow_type_stepsTo (emitsOne_unrecognized (by decide)) h
  | decRadioId frame => exact decRow_type_stepsTo (emitsOne_unrecognized (by decide)) h
  | decDeviceInfo frame => exact decRow_type_stepsTo emitsOne_deviceInfo h
  | decRcChannelsPacked frame => exact decRow_type_stepsTo emitsOne_rcChannelsPacked h
  | decUnknown frame => exact execDecUnknown_stepsTo h
  | decTruncated frame => exact execDecTruncated_stepsTo h
  | lenTooShort b =>
    refine onRx_stepsTo (fun r r' => lenRow_discard_stepsTo fun hok hb => ?_) h
    have hmin := hb.1
    simp only [expected_toNat, minTotal, decide_eq_true_eq] at hok
    omega
  | lenTooLong b =>
    refine onRx_stepsTo (fun r r' => lenRow_discard_stepsTo fun hok hb => ?_) h
    have hmax := hb.2
    simp only [expected_toNat, maxTotal, decide_eq_true_eq] at hok
    omega
  | lenLegal b => exact onRx_stepsTo (fun _ _ => lenRow_legal_stepsTo) h
  | feed operand =>
    cases operand with
    | chunk bytes => exact onRx_stepsTo (fun _ _ => feedChunk_stepsTo) h
    | beat data last => exact onRx_stepsTo (fun _ _ => rxBeat_stepsTo) h
  | scanDiscard =>
    refine onRx_stepsTo (fun r r' hr => ?_) h
    obtain ⟨hsel, hop⟩ := whenSelected_eq_next.1 hr
    obtain ⟨h3, hb⟩ := selectArm_eq_discard.1 hsel
    exact Host.Outcome.next.inj hop ▸ scanDiscard_stepsTo h3 hb
  | scanEmit =>
    refine onRx_stepsTo (fun r r' hr => ?_) h
    obtain ⟨hsel, hop⟩ := whenSelected_eq_next.1 hr
    exact scanEmit_stepsTo hsel hop
  | scanWait =>
    refine onRx_stepsTo (fun r r' hr => ?_) h
    obtain ⟨-, hop⟩ := whenSelected_eq_next.1 hr
    exact Host.Outcome.next.inj hop ▸ .refl r
  | crc8Bit u => cases u with
    | rx => exact onCrc_rx_stepsTo h
    | tx => exact absurd rfl htx
  | crc8Byte u b => cases u with
    | rx => exact onCrc_rx_stepsTo (g := fun c => Machine.crc8Byte c b) h
    | tx => exact absurd rfl htx
  | crc8 u bytes => cases u with
    | rx => exact onCrc_rx_stepsTo (g := fun _ => Machine.crc8 bytes) h
    | tx => exact absurd rfl htx
  | validate frame => exact onRx_stepsTo (fun _ _ => withFrame_stepsTo (validateFrame_stepsOnFrame _)) h
  | decode frame => exact onRx_stepsTo (fun _ _ => withFrame_stepsTo (decodeFrame_emitsOne _).stepsOnFrame) h
  | chLoad v => exact absurd rfl htx
  | pack => exact absurd rfl htx
  | encode operand => exact absurd rfl htx
  | reset => exact absurd rfl hi

/-! ## What an operation may do to the TX half -/

/-- `t'` comes from `t` by what an operation of the TX path may do: beats are only appended (R62), and the invariant is kept. -/
structure TxState.StepsTo (t t' : TxState) : Prop where
  out : ∃ xs, t'.out = t.out ++ xs
  inv : t.Inv → t'.Inv

theorem TxState.StepsTo.refl (t : TxState) : t.StepsTo t := ⟨⟨[], by simp⟩, id⟩

theorem TxState.StepsTo.trans {a b c : TxState} (hab : a.StepsTo b) (hbc : b.StepsTo c) : a.StepsTo c := by
  obtain ⟨xs, hx⟩ := hab.out
  obtain ⟨ys, hy⟩ := hbc.out
  exact ⟨⟨xs ++ ys, by rw [hy, hx, List.append_assoc]⟩, hbc.inv ∘ hab.inv⟩

theorem TxState.stepsTo_setCrcacc (t : TxState) (c : Byte) : t.StepsTo (t.setCrcacc c) := ⟨⟨[], by simp⟩, id⟩

/-- CH_LOADs keep the count at most 17 (R29, R181). -/
theorem foldl_loadChannel_stepsTo (vs : List Chan) (t : TxState) : t.StepsTo (vs.foldl loadChannel t) := by
  obtain ⟨ch, n, hfold⟩ := foldl_loadChannel_frame vs t
  refine ⟨⟨[], by simp [hfold]⟩, fun ⟨hcount, hrest⟩ => ⟨?_, by rw [hfold]; exact hrest⟩⟩
  rw [foldl_loadChannel_chcnt vs t hcount]
  exact Nat.min_le_right _ _

/-- PACK leaves nothing pending (R30, R184). -/
theorem packChannels_stepsTo (t : TxState) : t.StepsTo (packChannels t) := by
  obtain ⟨pk, hpack, -⟩ := packChannels_spec t
  rw [hpack]
  exact ⟨⟨[], by simp⟩, fun ⟨hcount, _, _, hrest⟩ => ⟨hcount, rfl, rfl, hrest⟩⟩

/-- The sending of a frame writes only the 26 addresses of `TXF` (R31, R188). -/
theorem sendFrame_stepsTo {start : EncCrcStart} {t t' : TxState} (h : sendFrame start t = .next t') : t.StepsTo t' := by
  obtain ⟨pk, txf, hrun, -, hwf, hlow, hhigh⟩ := sendFrame_spec start t
  obtain rfl := Host.Outcome.next.inj (hrun.symm.trans h)
  refine ⟨⟨_, rfl⟩, fun ⟨hcount, _, _, hold, hread, herr⟩ => ⟨hcount, rfl, rfl, hwf hold, fun a => ?_, herr⟩⟩
  simp only [TxState.setOut_txf, TxState.setCrcacc_txf, TxState.setTxf_txf]
  by_cases ha : a < 26
  · simp [hlow a ha, encodedFrame_length]
  · rw [hhigh a (by omega), hread]

/-- Everything a COMMIT can do to the outputs (R182, R203): a frame of 16 values goes out with no pulse, or the pulse reports
the count and nothing goes out. -/
theorem commit_err_out {start : EncCrcStart} {t t' : TxState} (h : commit start t = .next t') :
    t'.err = none ∨ t'.out = t.out := by
  by_cases hc : t.chcnt = 16
  · obtain ⟨pk, txf, hrun, -⟩ := sendFrame_spec start ((t.setChcnt 0).setErr none)
    obtain rfl := Host.Outcome.next.inj (((commit_right start t hc).trans hrun).symm.trans h)
    exact .inl rfl
  · obtain rfl := Host.Outcome.next.inj ((commit_wrong start t hc).symm.trans h)
    exact .inr rfl

theorem commit_stepsTo {start : EncCrcStart} {t t' : TxState} (h : commit start t = .next t') : t.StepsTo t' := by
  by_cases hc : t.chcnt = 16
  · have hclear : t.StepsTo ((t.setChcnt 0).setErr none) :=
      ⟨⟨[], by simp⟩, fun ⟨_, hacc, hn, hwf, hread, _⟩ => ⟨Nat.zero_le _, hacc, hn, hwf, hread, nofun⟩⟩
    rw [commit_right start t hc] at h
    exact hclear.trans (sendFrame_stepsTo h)
  · obtain rfl := Host.Outcome.next.inj ((commit_wrong start t hc).symm.trans h)
    refine ⟨⟨[], by simp⟩, fun ⟨hcount, hacc, hn, hwf, hread, _⟩ => ⟨Nat.zero_le _, hacc, hn, hwf, hread, ?_⟩⟩
    rintro _ ⟨⟩
    exact ⟨hc, hcount⟩

/-- An update of the TX half that always completes. -/
theorem onTx_update {g : TxState → TxState} {s t : State} (h : onTx (fun u => .next (g u)) s = .next t) :
    t.tx = g s.tx := by
  obtain rfl := Host.Outcome.next.inj h
  rfl

theorem onCrc_tx_cases {g : Byte → Byte} {s t : State} (h : onCrc .tx g s = .next t) :
    s.tx.StepsTo t.tx ∧ t.tx.err = s.tx.err := by
  have ht : t.tx = s.tx.setCrcacc (g s.tx.crcacc) := onTx_update ((execCrc_tx g s).symm.trans h)
  exact ht ▸ ⟨s.tx.stepsTo_setCrcacc _, rfl⟩

/-- Everything an instruction of the TX path can do: ENCODE commits what it has loaded; every other neither sends nor raises
(R182). -/
theorem exec_tx_cases {i : Instr} (hi : onTxPath i = true) {s t : State} (h : exec i s = .next t) :
    (∃ operand vs, i = .encode operand ∧ commit s.encCrcStart (List.foldl loadChannel s.tx vs) = .next t.tx) ∨
    (s.tx.StepsTo t.tx ∧ t.tx.err = s.tx.err) := by
  cases i with
  | encode operand =>
    cases operand with
    | values vs =>
      obtain ⟨u, hu, rfl⟩ := (onTx_eq_next (op := fun u => commit s.encCrcStart (List.foldl loadChannel u vs))).1 h
      exact .inl ⟨_, vs, rfl, hu⟩
    | lastBeat v =>
      obtain ⟨u, hu, rfl⟩ := (onTx_eq_next (op := fun u => commit s.encCrcStart (loadChannel u v))).1 h
      exact .inl ⟨_, [v], rfl, hu⟩
  | chLoad v =>
    have ht : t.tx = loadChannel s.tx v := onTx_update (g := fun u => loadChannel u v) h
    obtain ⟨ch, n, hload⟩ := loadChannel_frame s.tx v
    exact .inr ⟨ht ▸ foldl_loadChannel_stepsTo [v] s.tx, by rw [ht, hload]; rfl⟩
  | pack =>
    have ht : t.tx = packChannels s.tx := onTx_update h
    exact .inr ⟨ht ▸ packChannels_stepsTo s.tx, by rw [ht]; rfl⟩
  | crc8Bit u => cases u with
    | rx => cases hi
    | tx => exact .inr (onCrc_tx_cases h)
  | crc8Byte u b => cases u with
    | rx => cases hi
    | tx => exact .inr (onCrc_tx_cases (g := fun c => Machine.crc8Byte c b) h)
  | crc8 u bytes => cases u with
    | rx => cases hi
    | tx => exact .inr (onCrc_tx_cases (g := fun _ => Machine.crc8 bytes) h)
  | _ => cases hi

/-- Whatever instruction completes, RESET apart: beats are only appended and the TX path's invariant is kept. -/
theorem exec_tx_stepsTo {i : Instr} (hi : i ≠ .reset) {s t : State} (h : exec i s = .next t) : s.tx.StepsTo t.tx := by
  rcases path_cases i with hr | hrx | htx
  · exact absurd hr hi
  · exact exec_onRx_tx hrx h ▸ .refl _
  · rcases exec_tx_cases htx h with ⟨_, vs, -, hcommit⟩ | ⟨hsteps, -⟩
    · exact (foldl_loadChannel_stepsTo vs s.tx).trans (commit_stepsTo hcommit)
    · exact hsteps

/-! ## Reset -/

theorem RxState.reset_inv : RxState.reset.Inv := ⟨residue_nil, nofun, ⟨[], Nat.zero_le _, rfl⟩, nofun⟩

theorem RxState.afterReset_inv (free : Nat) : (RxState.afterReset free).Inv :=
  ⟨residue_nil, nofun, ⟨[], Nat.zero_le _, rfl⟩, nofun⟩

/-- A TX half with nothing begun and 26 bytes in `TXF` meets its invariant, whatever these bytes are. -/
theorem TxState.inv_of_cleared {t : TxState} {bs : List Byte} (hcount : t.chcnt = 0) (hacc : t.packacc = 0) (hn : t.packn = 0)
    (herr : t.err = none) (htxf : t.txf = Memory.ofBytes bs) (hlen : bs.length = 26) : t.Inv := by
  refine ⟨by simp [hcount], hacc, hn, htxf ▸ Memory.ofBytes_wf bs, fun a => ?_, fun n h => by simp [herr] at h⟩
  rw [htxf, Memory.read_ofBytes_isSome, hlen]

theorem TxState.reset_inv : TxState.reset.Inv := inv_of_cleared rfl rfl rfl rfl TxState.reset_txf rfl

theorem TxState.afterReset_inv (free : Nat) : (TxState.afterReset free).Inv :=
  inv_of_cleared rfl rfl rfl rfl rfl (by simp)

/-! ## The invariant along a step -/

/-- Every instruction that completes keeps the invariant. -/
theorem exec_inv {i : Instr} {s t : State} (hs : s.Inv) (h : exec i s = .next t) : t.Inv := by
  by_cases hi : i = .reset
  · subst hi
    obtain rfl := Host.Outcome.next.inj ((execReset_eq s).symm.trans h)
    exact ⟨RxState.afterReset_inv _, TxState.afterReset_inv _⟩
  · exact ⟨(exec_rx_stepsTo hi h).inv hs.1, (exec_tx_stepsTo hi h).inv hs.2⟩

/-- The end of the pulse keeps the invariant: no count is reported any more (R182). -/
theorem State.endPulse_inv {s : State} (hs : s.Inv) : s.endPulse.Inv := by
  obtain ⟨hrx, hcount, hacc, hn, hwf, hread, -⟩ := hs
  exact ⟨hrx, hcount, hacc, hn, hwf, hread, nofun⟩

/-- A consumer's take keeps it too: the events left were there before. -/
theorem takeEvent_inv {s : State} (hs : s.Inv) : (takeEvent s).Inv := by
  obtain ⟨⟨hbuf, hdrop, hframe, hevents⟩, htx⟩ := hs
  exact ⟨⟨hbuf, hdrop, hframe, fun e he => hevents e (List.mem_of_mem_tail he)⟩, htx⟩

theorem runInput_inv {i : Input} {s t : State} (hs : s.Inv) (h : runInput i s = .next t) : t.Inv := by
  cases i with
  | word w =>
    cases hd : decode w with
    | ok instr => rw [runInput, hd] at h; exact exec_inv hs h
    | error e => rw [runInput, hd] at h; cases h
  | takeEvent => exact Host.Outcome.next.inj h ▸ takeEvent_inv hs
  | takeTx => exact Host.Outcome.next.inj h ▸ hs

/-- Settles O56: what a step runs, it runs on a state that meets the invariant, and every input keeps it. -/
theorem stepKeepsTheInvariant : Obligations.StepKeepsTheInvariant := by
  intro s t hs h
  have hpulse := State.endPulse_inv hs
  rcases step_spec s with ⟨hidle, -⟩ | ⟨pre, i, post, -, -, -, hrun⟩
  · exact Host.Outcome.next.inj (hidle.symm.trans h) ▸ hpulse
  · exact runInput_inv (s := s.endPulse.setInputs (pre ++ post)) hpulse (hrun.symm.trans h)

/-! ## What a step takes and what the pins show -/

theorem evPins_of_events_cons {s : State} {e : Event} {es : List Event} (h : s.rx.events = e :: es) :
    s.evValid = true ∧ s.evPins = some e.pins := by
  simp [State.evValid, State.evPins, h]

theorem txBeat_of_out_cons {s : State} {x : TxBeat} {xs : List TxBeat} (h : s.tx.out = x :: xs) :
    s.txValid = true ∧ s.txBeat = some (x.data, x.last) := by
  simp [State.txValid, State.txBeat, h]

/-- The first input that can move, where it is a word. -/
theorem step_word {s : State} {pre post : List Input} {w : PortWord} (h : s.inputs = pre ++ .word w :: post)
    (hpre : NoneMoves s [] pre) (hw : canMove s pre (.word w) = true) :
    (∀ i, decode w = .ok i → step s = exec i (s.endPulse.setInputs (pre ++ post))) ∧
    (∀ e, decode w = .error e → step s = .refused (.undecodable e)) := by
  rw [step_first h hpre hw]
  exact ⟨fun i hi => by rw [runInput, hi], fun e he => by rw [runInput, he]⟩

/-- The consumer takes the oldest event behind anything that cannot move (R38, R39). -/
theorem step_takeEvent {s : State} {e : Event} {es : List Event} {pre post : List Input} (he : s.rx.events = e :: es)
    (h : s.inputs = pre ++ .takeEvent :: post) (hpre : NoneMoves s [] pre) :
    step s = .next ((s.endPulse.setInputs (pre ++ post)).setRx (s.rx.setEvents es)) := by
  have hmove : canMove s pre .takeEvent = true := (canMove_iff ..).2 ⟨(evPins_of_events_cons he).1, fun _ _ _ _ => nofun⟩
  rw [step_first h hpre hmove, runInput, takeEvent, State.setInputs_rx, State.endPulse_rx, he, List.tail_cons]

/-- The same for the oldest beat of the TX byte stream (R38, R62). -/
theorem step_takeTx {s : State} {x : TxBeat} {xs : List TxBeat} {pre post : List Input} (hx : s.tx.out = x :: xs)
    (h : s.inputs = pre ++ .takeTx :: post) (hpre : NoneMoves s [] pre) :
    step s = .next ((s.endPulse.setInputs (pre ++ post)).setTx ((s.tx.setErr none).setOut xs)) := by
  have hmove : canMove s pre .takeTx = true := (canMove_iff ..).2 ⟨(txBeat_of_out_cons hx).1, fun _ _ _ _ => nofun⟩
  rw [step_first h hpre hmove, runInput, takeTx, State.setInputs_tx, State.endPulse_tx, TxState.setErr_out, hx, List.tail_cons]

/-- An instruction that leaves the pulse high where it was low is an ENCODE that sent nothing (R182). -/
theorem exec_raises {i : Instr} {s t : State} (hlow : s.tx.err = none) (h : exec i s = .next t) (herr : t.tx.err ≠ none) :
    ∃ operand, i = .encode operand ∧ t.tx.out = s.tx.out := by
  rcases path_cases i with rfl | hrx | htx
  · obtain rfl := Host.Outcome.next.inj ((execReset_eq s).symm.trans h)
    exact absurd rfl herr
  · rw [exec_onRx_tx hrx h] at herr
    exact absurd hlow herr
  · rcases exec_tx_cases htx h with ⟨operand, vs, rfl, hcommit⟩ | ⟨-, hsame⟩
    · refine ⟨operand, rfl, ?_⟩
      obtain ⟨ch, n, hfold⟩ := foldl_loadChannel_frame vs s.tx
      rcases commit_err_out hcommit with hnone | hout
      · exact absurd hnone herr
      · rw [hout, hfold]; rfl
    · rw [hsame] at herr
      exact absurd hlow herr

/-- A step that leaves the pulse high ran an ENCODE that sent nothing. -/
theorem step_raises {s t : State} (h : step s = .next t) (herr : t.txErr = true) :
    ∃ pre w post operand, s.inputs = pre ++ .word w :: post ∧ NoneMoves s [] pre ∧ canMove s pre (.word w) = true ∧
      decode w = .ok (.encode operand) ∧ exec (.encode operand) (s.endPulse.setInputs (pre ++ post)) = .next t ∧
      t.inputs = pre ++ post ∧ t.tx.out = s.tx.out := by
  have hne : t.tx.err ≠ none := by simpa [State.txErr, Option.isSome_iff_ne_none] using herr
  rcases step_spec s with ⟨hidle, -⟩ | ⟨pre, i, post, hin, hmove, hpre, hrun⟩
  · obtain rfl := Host.Outcome.next.inj (hidle.symm.trans h)
    exact absurd rfl hne
  · rw [h] at hrun
    cases i with
    | word w =>
      cases hd : decode w with
      | ok instr =>
        have hexec := ((step_word hin hpre hmove).1 instr hd).symm.trans h
        obtain ⟨operand, rfl, hout⟩ := exec_raises rfl hexec hne
        exact ⟨pre, w, post, operand, hin, hpre, hmove, hd, hexec, (exec_keeps hexec).2, hout⟩
      | error e => cases ((step_word hin hpre hmove).2 e hd).symm.trans h
    | takeEvent =>
      obtain rfl := Host.Outcome.next.inj hrun
      exact absurd rfl hne
    | takeTx =>
      obtain rfl := Host.Outcome.next.inj hrun
      exact absurd rfl hne

/-- Settles O6, clause by clause from what a step can be and what the consumers take. -/
theorem stepTakesOutputsOrIdles : Obligations.StepTakesOutputsOrIdles := by
  refine ⟨fun s hs => ?_, fun s pre w post e h hpre hw => (step_word h hpre hw).2 e, fun w e => decode_eq_error,
    fun s e es he => ⟨(evPins_of_events_cons he).1, (evPins_of_events_cons he).2, fun pre post => step_takeEvent he⟩,
    fun s x xs hx => ⟨(txBeat_of_out_cons hx).1, (txBeat_of_out_cons hx).2, fun pre post => step_takeTx hx⟩,
    fun s => ⟨?_, ?_, ?_⟩, fun s t => step_raises⟩
  · rw [step, pick, pickAfter_none hs]
  · intro he
    simp [State.evValid, State.evPins, he]
  · intro hx
    simp [State.txValid, State.txBeat, hx]
  · exact Option.isSome_iff_exists

/-! ## A beat that waits -/

/-- While an event waits a beat cannot move (R39). -/
theorem canMove_rxBeat_false {s : State} (he : s.rx.events ≠ []) (before : List Input) (data : Byte) (last : Bool) :
    canMove s before (.word (.rxBeat data last)) = false := by
  simp [canMove, ready, State.rxReady, he]

/-- Of two entries of one list, one stands before the other or they are the same. -/
theorem entry_cases {α : Type} {pre post p q : List α} {x y : α} (h : pre ++ x :: post = p ++ y :: q) :
    (∃ a, pre = p ++ y :: a ∧ q = a ++ x :: post) ∨ x = y ∨ ∃ a, p = pre ++ x :: a ∧ post = a ++ y :: q := by
  rcases List.append_eq_append_iff.1 h with ⟨a, hp, hx⟩ | ⟨a, hpre, hy⟩
  · rcases List.cons_eq_append_iff.1 hx with ⟨-, hyx⟩ | ⟨a', rfl, hpost⟩
    · exact .inr (.inl (List.cons.inj hyx).1.symm)
    · exact .inr (.inr ⟨a', hp, hpost⟩)
  · rcases List.cons_eq_append_iff.1 hy with ⟨-, hxy⟩ | ⟨a', rfl, hq⟩
    · exact .inr (.inl (List.cons.inj hxy).1)
    · exact .inl ⟨a', hpre, hq⟩

/-- Settles O7: the input taken stands before the beat, or behind it and on another path. -/
theorem rxBeatWaitsForTheEvent : Obligations.RxBeatWaitsForTheEvent := by
  refine ⟨fun s e es he => ⟨by simp [State.rxReady, he], evPins_of_events_cons he⟩, ?_,
    fun s e es data last pre mid post he h hpre => step_takeEvent he h hpre⟩
  intro s t data last pre post he hin h
  rcases step_spec s with ⟨hidle, -⟩ | ⟨p, j, q, hin', hmove, -, hrun⟩
  · obtain rfl := Host.Outcome.next.inj (hidle.symm.trans h)
    exact ⟨pre, post, hin, .inl ⟨.refl _, rfl⟩⟩
  · have ht : t.inputs = p ++ q := runInput_inputs (hrun.symm.trans h)
    rcases entry_cases (hin.symm.trans hin') with ⟨a, rfl, rfl⟩ | rfl | ⟨a, rfl, rfl⟩
    · exact ⟨p ++ a, post, by rw [ht, List.append_assoc],
        .inl ⟨(List.sublist_cons_self j a).append_left p, rfl⟩⟩
    · rw [canMove_rxBeat_false he] at hmove
      cases hmove
    · have hpath : inputPath j ≠ some .rx := ((canMove_iff ..).1 hmove).2 (.word (.rxBeat data last)) (by simp) _ rfl
      exact ⟨pre, a ++ q, by rw [ht, List.append_assoc, List.cons_append],
        .inr ⟨rfl, (List.sublist_cons_self j q).append_left a, by simp [hpath]⟩⟩

/-! ## The two paths -/

/-- Settles O59: an operation of a path is an operation on that path's half alone. -/
theorem rxAndTxPathsCommute : Obligations.RxAndTxPathsCommute := by
  intro i j s t u hi hj ht hu
  obtain ⟨rop, hrx⟩ := exec_onRx hi
  obtain ⟨top, htx⟩ := exec_onTx hj
  obtain ⟨r, hr, rfl⟩ := onRx_eq_next.1 ((hrx s).symm.trans ht)
  obtain ⟨x, hx, rfl⟩ := onTx_eq_next.1 ((htx s).symm.trans hu)
  refine ⟨rfl, rfl, ⟨(s.setRx r).setTx x, ?_, ?_⟩, fun s' hs' => ⟨s'.setRx r, ?_, rfl⟩,
    fun s' hs' hp => ⟨s'.setTx x, ?_, rfl⟩⟩
  · rw [htx]; exact onTx_of_next hx
  · rw [hrx, State.setRx_setTx]; exact onRx_of_next hr
  · rw [hrx]; exact onRx_of_next (hs' ▸ hr)
  · rw [htx, hp]; exact onTx_of_next (hs' ▸ hx)

/-- Settles O60: neither half's operations do more than append to its outputs. -/
theorem outputsOnlyGrow : Obligations.OutputsOnlyGrow := by
  intro i s t h
  obtain ⟨hparam, hinputs⟩ := exec_keeps h
  exact ⟨hparam, hinputs, fun hi => ⟨(exec_rx_stepsTo hi h).events, (exec_tx_stepsTo hi h).out⟩⟩

/-! ## Tier 1 -/

/-- Settles O5: the first input that can move is the one the step runs. -/
theorem stepRunsTheDecodedWord : Obligations.StepRunsTheDecodedWord :=
  fun _ _ _ _ i h hpre hw => (step_word h hpre hw).1 i

/-- Settles O9, field by field. -/
theorem resetStateHoldsTheSpecValues : Obligations.ResetStateHoldsTheSpecValues :=
  ⟨rfl, rfl, rfl, rfl, rfl, rfl, rfl, rfl, rfl, rfl, rfl, rfl, rfl, rfl⟩

/-- Settles O55. -/
theorem resetSatisfiesTheInvariant : Obligations.ResetSatisfiesTheInvariant :=
  ⟨RxState.reset_inv, TxState.reset_inv⟩

end Sys2Proof.Machine

/-! PROOFS of the family 20_memory. `NoFault` says of one answer that it is not a fault. Every operation that reads a frame reads
it inside its length (the laws of Laws/Ops.lean and Laws/Unpack.lean), so no answer of any instruction is a fault (R58). -/

namespace Sys2Proof.Machine

/-! ## Answers without a fault -/

/-- The answer is a result or a refusal: no address outside a buffer was read (R58). -/
def NoFault {α : Type} (r : Res α) : Prop := ∀ e, r ≠ .fault e

theorem noFault_next {α : Type} (a : α) : NoFault (.next a : Res α) := nofun

theorem noFault_refused {α : Type} (e : Refusal) : NoFault (.refused e : Res α) := nofun

theorem noFault_of_next {α : Type} {r : Res α} (h : ∃ a, r = .next a) : NoFault r := by
  obtain ⟨a, rfl⟩ := h
  exact noFault_next a

theorem NoFault.mapRes {α β : Type} {r : Res α} (h : NoFault r) (g : α → β) : NoFault (mapRes r g) := by
  cases r with
  | next a => exact noFault_next (g a)
  | fault e => exact absurd rfl (h e)
  | refused e => exact noFault_refused e

/-- An instruction of the RX path faults only where its operation on the RX half does. -/
theorem onRx_noFault {op : RxState → Res RxState} {s : State} (h : NoFault (op s.rx)) : NoFault (onRx op s) := h.mapRes _

/-- A step of a CRC unit is an update of its running CRC (R25, R128). -/
theorem onCrc_eq (u : CrcUnit) (g : Byte → Byte) (s : State) : onCrc u g s = .next (s.withCrc u (g (s.crcOf u))) := by
  cases u with
  | rx => rfl
  | tx => rfl

theorem onCrc_noFault (u : CrcUnit) (g : Byte → Byte) (s : State) : NoFault (onCrc u g s) :=
  noFault_of_next ⟨_, onCrc_eq u g s⟩

/-! ## The operations on a candidate frame -/

/-- On a legal candidate frame of type `t` the operation does not fault. -/
def NoFaultOnFrame (t : Byte) (op : RxState → Res RxState) : Prop :=
  ∀ (bs : List Byte) (r : RxState), LegalFrame bs → bs.getD 2 0 = t → r.frame = Memory.ofBytes bs → NoFault (op r)

theorem EmitsOne.noFaultOnFrame {t : Byte} {op : RxState → Res RxState} (h : EmitsOne 4 t op) : NoFaultOnFrame t op := by
  intro bs r hl ht hf
  obtain ⟨regs, event, hrun, -⟩ := h bs hl ht hl.1
  exact noFault_of_next ⟨_, hrun r hf⟩

theorem validateFrame_noFaultOnFrame (t : Byte) : NoFaultOnFrame t validateFrame :=
  fun bs r hl _ hf => noFault_of_next ⟨_, validateFrame_ofBytes r bs hf hl.1⟩

theorem acceptFrame_noFaultOnFrame (t : Byte) : NoFaultOnFrame t acceptFrame := by
  intro bs r hl _ hf
  obtain ⟨v, regs, event, hrun, -⟩ := acceptFrame_ofBytes bs hl
  exact noFault_of_next ⟨_, hrun r hf⟩

/-- A frame operand outside 4 to 64 bytes is refused before anything is read (U5, U6). -/
theorem withFrame_noFault {frame : List Byte} {op : RxState → Res RxState} (hop : NoFaultOnFrame (frame.getD 2 0) op)
    (r : RxState) : NoFault (withFrame frame op r) := by
  by_cases hl : LegalFrame frame
  · rw [withFrame_legal hl]
    exact hop frame _ hl rfl rfl
  · rw [withFrame_illegal hl]
    exact noFault_refused _

/-- A DEC_* row runs its operation on a legal frame of a type it takes, or it refuses. -/
theorem decRow_noFault {ok : Byte → Bool} {op : RxState → Res RxState} (hop : ∀ t, ok t = true → NoFaultOnFrame t op)
    (frame : List Byte) (s : State) : NoFault (decRow ok op frame s) := by
  by_cases hl : LegalFrame frame
  · cases hok : ok (frame.getD 2 0) with
    | false => rw [decRow_otherType hl hok]; exact noFault_refused _
    | true => rw [decRow_legal hl hok]; exact onRx_noFault (hop _ hok frame _ hl rfl rfl)
  · rw [decRow_illegal hl]
    exact noFault_refused _

/-- The row of a single type byte runs what DECODE selects by that byte (R75, R140). -/
theorem decRow_decodeOp_noFault (t : Byte) (frame : List Byte) (s : State) :
    NoFault (decRow (· == t) (decodeOp t) frame s) :=
  decRow_noFault (fun _ ht => eq_of_beq ht ▸ (decodeOp_emitsOne t).noFaultOnFrame) frame s

theorem execDecUnknown_noFault (frame : List Byte) (s : State) : NoFault (execDecUnknown frame s) :=
  decRow_noFault (fun _ ht => (emitsOne_unrecognized
    (by simpa using not_mem_packetTypes_of_unknown ht)).noFaultOnFrame) frame s

/-- DEC_TRUNCATED reads the type byte of a legal frame, then acts on a short frame and refuses a long one (R143). -/
theorem execDecTruncated_noFault (frame : List Byte) (s : State) : NoFault (execDecTruncated frame s) := by
  refine decRow_noFault (fun ty hty bs r hl h2 hf => ?_) frame s
  have hread : memRead1 r.frame 2 = .next (bs.getD 2 0) := by
    rw [hf, memRead1_ofBytes _ _ (Nat.lt_of_lt_of_le (by decide) hl.1)]
  rw [hread, andThen_next]
  split
  · exact (emitsOne_truncated (mem_packetTypes_of_lMinOf hty)).noFaultOnFrame bs r hl h2 hf
  · exact noFault_refused _

/-! ## The deframer -/

/-- SCAN_EMIT where the buffer selects it: the whole frame is in the buffer (R104). -/
theorem scanEmit_noFault {r : RxState} (hsel : selectArm r.rxbuf = .emit) : NoFault (scanEmit r) := by
  obtain ⟨-, hb, hl⟩ := selectArm_eq_emit.1 hsel
  obtain ⟨c, v, f, e, hrun, -⟩ := scanEmit_spec r hb hl
  exact noFault_of_next ⟨_, hrun⟩

theorem whenSelected_noFault {arm : ScanArm} {op : RxState → Res RxState} {r : RxState}
    (hop : selectArm r.rxbuf = arm → NoFault (op r)) : NoFault (whenSelected arm op r) := by
  rw [whenSelected]
  split
  next hsel => exact hop hsel
  next => exact noFault_refused _

/-- A LEN_* class runs its operation only where its byte is the one at the head, and of the class (R72, R102). -/
theorem lenRow_noFault {ok : Bool} {b : Byte} {op : RxState → Res RxState} {r : RxState}
    (hop : ok = true → headLen r.rxbuf = some b → NoFault (op r)) : NoFault (lenRow ok b op r) := by
  rw [lenRow]
  cases hok : ok with
  | false => exact noFault_refused _
  | true =>
    cases hhead : headLen r.rxbuf with
    | none => exact noFault_next r
    | some c =>
      by_cases hc : c = b
      · simpa [hc] using hop hok (hhead.trans (congrArg some hc))
      · simpa [hc] using noFault_refused _

/-- LEN_LEGAL emits only a frame that is complete (R72). -/
theorem execLenLegal_noFault (b : Byte) (s : State) : NoFault (execLenLegal b s) := by
  refine onRx_noFault (lenRow_noFault fun hclass hhead => ?_)
  split
  next hlen =>
    obtain ⟨h3, hb⟩ := headLen_eq_some hhead
    rw [expected_toNat] at hlen
    exact scanEmit_noFault (selectArm_emit h3 (hb ▸ (legalLen_iff b).1 hclass) (hb ▸ hlen))
  next => exact noFault_next _

/-- A chunk is one pass of the scan loop, or the bytes counted while DROP = 1 (R101, R108). -/
theorem feedChunk_noFault (chunk : List Byte) (r : RxState) : NoFault (feedChunk chunk r) := by
  cases hd : r.drop with
  | none =>
    obtain ⟨r', hrun, -⟩ := feedChunk_spec hd chunk
    exact noFault_of_next ⟨r', hrun⟩
  | some d => rw [feedChunk, hd]; exact noFault_next _

theorem rxBeat_noFault (b : Byte) (last : Bool) (r : RxState) : NoFault (rxBeat b last r) :=
  (noFault_of_next (rxByte_completes r b)).mapRes _

/-! ## Every instruction -/

/-- The commit that ends an ENCODE reads `TXF` only where it has been written (R31, R188). -/
theorem commit_noFault (start : EncCrcStart) (t : TxState) (s : State) : NoFault (mapRes (commit start t) s.setTx) :=
  (noFault_of_next (commit_completes start t)).mapRes _

/-- Whatever the instruction and the state, no address outside a frame or outside `TXF` is read (R58). -/
theorem exec_noFault (i : Instr) (s : State) : NoFault (exec i s) := by
  cases i with
  | decGps frame => exact decRow_decodeOp_noFault 0x02 frame s
  | decVario frame => exact decRow_decodeOp_noFault 0x07 frame s
  | decBatterySensor frame => exact decRow_decodeOp_noFault 0x08 frame s
  | decBaroAlt frame => exact decRow_decodeOp_noFault 0x09 frame s
  | decHeartbeat frame => exact decRow_decodeOp_noFault 0x0B frame s
  | decVideoTransmitter frame => exact decRow_decodeOp_noFault 0x0F frame s
  | decLinkStatistics frame => exact decRow_decodeOp_noFault 0x14 frame s
  | decRcChannelsPacked frame => exact decRow_decodeOp_noFault 0x16 frame s
  | decAttitude frame => exact decRow_decodeOp_noFault 0x1E frame s
  | decFlightMode frame => exact decRow_decodeOp_noFault 0x21 frame s
  | decDeviceInfo frame => exact decRow_decodeOp_noFault 0x29 frame s
  | decConfigRead frame => exact decRow_decodeOp_noFault 0x2C frame s
  | decConfigWrite frame => exact decRow_decodeOp_noFault 0x2D frame s
  | decRadioId frame => exact decRow_decodeOp_noFault 0x3A frame s
  | decUnknown frame => exact execDecUnknown_noFault frame s
  | decTruncated frame => exact execDecTruncated_noFault frame s
  | lenTooShort b => exact onRx_noFault (lenRow_noFault fun _ _ => noFault_next _)
  | lenLegal b => exact execLenLegal_noFault b s
  | lenTooLong b => exact onRx_noFault (lenRow_noFault fun _ _ => noFault_next _)
  | feed operand =>
    cases operand with
    | chunk bytes => exact onRx_noFault (feedChunk_noFault bytes _)
    | beat data last => exact onRx_noFault (rxBeat_noFault data last _)
  | scanDiscard => exact onRx_noFault (whenSelected_noFault fun _ => noFault_next _)
  | scanEmit => exact onRx_noFault (whenSelected_noFault scanEmit_noFault)
  | scanWait => exact onRx_noFault (whenSelected_noFault fun _ => noFault_next _)
  | crc8Bit u => exact onCrc_noFault u _ s
  | crc8Byte u b => exact onCrc_noFault u (fun c => Machine.crc8Byte c b) s
  | crc8 u bytes => exact onCrc_noFault u (fun _ => Machine.crc8 bytes) s
  | validate frame => exact onRx_noFault (withFrame_noFault (validateFrame_noFaultOnFrame _) _)
  | decode frame => exact onRx_noFault (withFrame_noFault (decodeFrame_emitsOne _).noFaultOnFrame _)
  | chLoad v => exact noFault_next (s.setTx (loadChannel s.tx v))
  | pack => exact noFault_next (s.setTx (packChannels s.tx))
  | encode operand =>
    cases operand with
    | values vs => exact commit_noFault s.encCrcStart (vs.foldl loadChannel s.tx) s
    | lastBeat v => exact commit_noFault s.encCrcStart (loadChannel s.tx v) s
  | reset => exact noFault_next _

theorem runInput_noFault (i : Input) (s : State) : NoFault (runInput i s) := by
  cases i with
  | word w =>
    rw [runInput]
    cases decode w with
    | ok instr => exact exec_noFault instr s
    | error e => exact noFault_refused _
  | takeEvent => exact noFault_next _
  | takeTx => exact noFault_next _

/-- Settles O57: a step is idle or runs one input, and no input's run is a fault. -/
theorem noStepFaults : Obligations.NoStepFaults := by
  intro s
  change NoFault (step s)
  rcases step_spec s with ⟨hidle, -⟩ | ⟨pre, i, post, -, -, -, hrun⟩
  · exact hidle ▸ noFault_next _
  · exact hrun ▸ runInput_noFault i _

/-! ## The input a step takes -/

/-- Settles O8: the step runs the first input that can move, and its run leaves the ports alone. -/
theorem stepTakesExactlyOneInput : Obligations.StepTakesExactlyOneInput := by
  intro s t hmoves h
  rcases step_spec s with ⟨-, hnone⟩ | ⟨pre, i, post, hin, hmove, -, hrun⟩
  · exact absurd hnone hmoves
  · obtain ⟨hready, horder⟩ := (canMove_iff ..).1 hmove
    exact ⟨pre, i, post, hin, hready, horder, runInput_inputs (hrun.symm.trans h)⟩

/-! ## MemRead -/

/-- Settles O31: inside the frame the bytes are appended most significant first; beyond it the read faults. -/
theorem memReadIsBigEndian : Obligations.MemReadIsBigEndian := by
  intro frame a
  refine ⟨fun h => ⟨_, memRead1_ofBytes frame a h, rfl⟩, fun h => ⟨_, memRead2_ofBytes frame a h, toNat_append2 _ _⟩,
    fun h => ⟨_, memRead4_ofBytes frame a h, ?_⟩, fun h => memRead1_beyond frame a (Nat.le_of_lt_succ h),
    memRead2_beyond frame a, memRead4_beyond frame a⟩
  rw [toNat_append4]
  simp only [u8At]
  omega

/-! ## The packed payload as bits -/

theorem chanNumber_succ (i : Nat) (vs : List Chan) : chanNumber (i + 1) vs = 2 ^ 11 * chanNumber i vs := by
  induction vs generalizing i with
  | nil => rfl
  | cons v vs ih =>
    rw [chanNumber, chanNumber, ih, Nat.mul_add (2 ^ 11), Nat.mul_left_comm, ← Nat.pow_add, Nat.mul_succ, Nat.add_comm 11]

/-- Value `m` has bits `11*m` to `11*m + 10` of the values laid end to end. -/
theorem testBit_chanNumber (vs : List Chan) (m j : Nat) (hj : j < 11) :
    (chanNumber 0 vs).testBit (11 * m + j) = (vs.getD m 0).getLsbD j := by
  induction vs generalizing m with
  | nil => simp [chanNumber]
  | cons v vs ih =>
    have hsplit : chanNumber 0 (v :: vs) = 2 ^ 11 * chanNumber 0 vs + v.toNat := by
      rw [chanNumber, chanNumber_succ]
      omega
    rw [hsplit, Nat.testBit_two_pow_mul_add _ v.isLt]
    cases m with
    | zero => simp [hj, BitVec.testBit_toNat]
    | succ m =>
      rw [if_neg (by omega), show 11 * (m + 1) + j - 11 = 11 * m + j by omega, ih m]
      simp

/-- Bit `b` of byte `k` of the payload is bit `8*k + b` of the packed number (R83, R183). -/
theorem getLsbD_packedBytes (ch : Vector Chan 16) (k b : Nat) (hk : k < 22) (hb : b < 8) :
    ((packedBytes ch).getD k 0).getLsbD b = (packedNumber ch).testBit (8 * k + b) := by
  have hbyte : (packedBytes ch).getD k 0 = BitVec.ofNat 8 (packedNumber ch / 2 ^ (8 * k)) := by
    simp [packedBytes, List.getD_eq_getElem?_getD, hk]
  rw [hbyte, BitVec.getLsbD_ofNat, Nat.testBit_div_two_pow]
  simp [hb, Nat.add_comm b]

/-- PACK completes from every state, with the packed bytes in `PK` and nothing pending (R183, R184). -/
theorem exec_pack_spec (s : State) :
    ∃ pk : Vector Byte 22, exec .pack s = .next (s.setTx (s.tx.setPacker 0 0 pk)) ∧ pk.toList = packedBytes s.tx.ch := by
  obtain ⟨pk, hpack, hbytes⟩ := packChannels_spec s.tx
  refine ⟨pk, ?_, hbytes⟩
  rw [← hpack]
  rfl

/-- Settles O47: bit `j` of channel `i` is bit `11*i + j` of the packed number, which the packed bytes hold eight to a byte. -/
theorem packedBitPositions : Obligations.PackedBitPositions := by
  intro s
  obtain ⟨pk, hrun, hbytes⟩ := exec_pack_spec s
  refine ⟨_, hrun, fun i j k hk => ?_⟩
  have hbit : 8 * k.val + (11 * i.val + j.val) % 8 = 11 * i.val + j.val := by omega
  calc pk[k].getLsbD ((11 * i.val + j.val) % 8)
      = ((packedBytes s.tx.ch).getD k 0).getLsbD ((11 * i.val + j.val) % 8) := by
        rw [← hbytes]; simp [List.getD_eq_getElem?_getD]
    _ = (chanNumber 0 s.tx.ch.toList).testBit (11 * i.val + j.val) := by
        rw [getLsbD_packedBytes _ _ _ k.isLt (Nat.mod_lt _ (by decide)), packedNumber_eq, hbit]
    _ = (s.tx.ch.toList.getD i 0).getLsbD j := testBit_chanNumber _ _ _ j.isLt
    _ = s.tx.ch[i].getLsbD j := by simp [List.getD_eq_getElem?_getD]

end Sys2Proof.Machine

/-! PROOFS of the family 30_encoding. Which row a frame selects is said by `rowOf_matches` and `rowOf_cases`; the DEC_* rows are
one family, `exec_typedInstr`; a length class acts by `lenRow_atHead` or stops by the two lemmas after it. -/

namespace Sys2Proof.Machine

/-! ## Decoding an encoded instruction -/

/-- Settles O1: one round-trip law per constructor. -/
theorem encodedInstrDecodesToItself : Obligations.EncodedInstrDecodesToItself := by
  intro i
  cases i with
  | decGps frame => exact Laws.RoundTrip.decGps frame
  | decVario frame => exact Laws.RoundTrip.decVario frame
  | decBatterySensor frame => exact Laws.RoundTrip.decBatterySensor frame
  | decBaroAlt frame => exact Laws.RoundTrip.decBaroAlt frame
  | decHeartbeat frame => exact Laws.RoundTrip.decHeartbeat frame
  | decVideoTransmitter frame => exact Laws.RoundTrip.decVideoTransmitter frame
  | decLinkStatistics frame => exact Laws.RoundTrip.decLinkStatistics frame
  | decRcChannelsPacked frame => exact Laws.RoundTrip.decRcChannelsPacked frame
  | decAttitude frame => exact Laws.RoundTrip.decAttitude frame
  | decFlightMode frame => exact Laws.RoundTrip.decFlightMode frame
  | decDeviceInfo frame => exact Laws.RoundTrip.decDeviceInfo frame
  | decConfigRead frame => exact Laws.RoundTrip.decConfigRead frame
  | decConfigWrite frame => exact Laws.RoundTrip.decConfigWrite frame
  | decRadioId frame => exact Laws.RoundTrip.decRadioId frame
  | decUnknown frame => exact Laws.RoundTrip.decUnknown frame
  | decTruncated frame => exact Laws.RoundTrip.decTruncated frame
  | lenTooShort len => exact Laws.RoundTrip.lenTooShort len
  | lenLegal len => exact Laws.RoundTrip.lenLegal len
  | lenTooLong len => exact Laws.RoundTrip.lenTooLong len
  | feed operand => exact Laws.RoundTrip.feed operand
  | scanDiscard => exact Laws.RoundTrip.scanDiscard
  | scanEmit => exact Laws.RoundTrip.scanEmit
  | scanWait => exact Laws.RoundTrip.scanWait
  | crc8Bit unit => exact Laws.RoundTrip.crc8Bit unit
  | crc8Byte unit b => exact Laws.RoundTrip.crc8Byte unit b
  | crc8 unit bytes => exact Laws.RoundTrip.crc8 unit bytes
  | validate frame => exact Laws.RoundTrip.validate frame
  | decode frame => exact Laws.RoundTrip.decode frame
  | chLoad v => exact Laws.RoundTrip.chLoad v
  | pack => exact Laws.RoundTrip.pack
  | encode operand => exact Laws.RoundTrip.encode operand
  | reset => exact Laws.RoundTrip.reset

/-! ## The row of a decode word -/

/-- The patterns of the fourteen rows are pairwise different, so one pattern names one row. -/
theorem typeRows_inj_pattern {r r' : TypeRow} (hr : r ∈ typeRows) (hr' : r' ∈ typeRows) (h : r.pattern = r'.pattern) :
    r = r' := by
  have hnodup : (typeRows.map TypeRow.pattern).Nodup := by decide
  obtain ⟨i, hi, rfl⟩ := List.getElem_of_mem hr
  obtain ⟨j, hj, rfl⟩ := List.getElem_of_mem hr'
  have hmap : (typeRows.map TypeRow.pattern)[i]'(by rwa [List.length_map]) =
      (typeRows.map TypeRow.pattern)[j]'(by rwa [List.length_map]) := by
    rwa [List.getElem_map, List.getElem_map]
  obtain rfl := (List.getElem_inj hnodup).1 hmap
  rfl

/-- The row a decode word selects: one of the fourteen, which matches, or the catch-all where none does (R75). -/
theorem rowOf_cases (w : BitVec 24) :
    (rowOf w ∈ typeRows ∧ w &&& (rowOf w).mask = (rowOf w).pattern) ∨
      (rowOf w = unknownRow ∧ ∀ r ∈ typeRows, w &&& r.mask ≠ r.pattern) := by
  rw [rowOf]
  cases hfind : typeRows.find? fun r => w &&& r.mask == r.pattern with
  | some r => exact .inl ⟨List.mem_of_find?_eq_some hfind, by simpa using List.find?_some hfind⟩
  | none => exact .inr ⟨rfl, by simpa using hfind⟩

/-- A row of the fourteen that matches is the one selected: no two of them match one word. -/
theorem rowOf_matches {w : BitVec 24} {r : TypeRow} (hr : r ∈ typeRows) (hw : w &&& r.mask = r.pattern) : rowOf w = r := by
  rcases rowOf_cases w with ⟨hmem, hsel⟩ | ⟨-, hnone⟩
  · refine typeRows_inj_pattern hmem hr ?_
    rw [← hsel, ← hw, Laws.RoundTrip.typeRows_mask _ hmem, Laws.RoundTrip.typeRows_mask _ hr]
  · exact absurd hw (hnone r hr)

/-- The decode word as a number (R75). -/
theorem decodeWord_toNat (frame : List Byte) :
    (decodeWord frame).toNat = u8At frame 0 * 65536 + u8At frame 1 * 256 + u8At frame 2 := by
  rw [decodeWord, BitVec.toNat_append, ← Nat.shiftLeft_add_eq_or_of_lt (frame.getD 2 0).isLt, Nat.shiftLeft_eq, toNat_append2,
    u8At, u8At, u8At]
  omega

/-- Settles O4: the row is found by its pattern, and the masked decode word is the type byte. -/
theorem typeByteSelectsTheRow : Obligations.TypeByteSelectsTheRow := by
  refine ⟨decodeWord_toNat, fun r hr => ⟨Laws.RoundTrip.typeRows_mask r hr, fun w => rowOf_matches hr⟩, rfl, fun w hw => ?_,
    fun frame frame' h => ?_⟩
  · rcases rowOf_cases w with ⟨hmem, hsel⟩ | ⟨hrow, -⟩
    · exact absurd hsel (hw _ hmem)
    · exact hrow
  · rw [Laws.RoundTrip.rowOf_decodeWord, Laws.RoundTrip.rowOf_decodeWord, h]

/-! ## What decodes is well formed -/

theorem frameOk_iff (frame : List Byte) : frameOk frame = true ↔ LegalFrame frame := by
  simp only [frameOk, LegalFrame, Bool.and_eq_true, decide_eq_true_eq]

theorem withLegalLength_eq_ok {frame : List Byte} {i j : Instr} (h : withLegalLength frame i = .ok j) :
    frameOk frame = true ∧ i = j := by
  rw [withLegalLength] at h
  split at h
  · cases h
  · split at h
    · cases h
    · simp only [minTotal, maxTotal] at *
      exact ⟨(frameOk_iff frame).2 ⟨by omega, by omega⟩, Except.ok.inj h⟩

/-- The frame of a row's type: the type byte is the pattern's low byte. -/
theorem typeByte_of_matches {frame : List Byte} {r : TypeRow} (hr : r ∈ typeRows)
    (h : decodeWord frame &&& r.mask = r.pattern) : typeByte frame = r.pattern.setWidth 8 := by
  rw [← h, Laws.RoundTrip.typeRows_mask r hr, Laws.RoundTrip.decodeWord_type]
  simp

/-- The instruction of a row is well formed on a frame of the row's type byte and minimum length (R76, R80). -/
theorem wellFormed_typeRow (frame : List Byte) :
    ∀ r ∈ typeRows, WellFormed (r.instr frame) = typedFrame (r.pattern.setWidth 8) r.lMin frame := by
  simp only [typeRows, List.forall_mem_cons, List.not_mem_nil, false_implies, implies_true, and_true]
  exact ⟨rfl, rfl, rfl, rfl, rfl, rfl, rfl, rfl, rfl, rfl, rfl, rfl, rfl, rfl⟩

/-- A row whose minimum is more than the frame minimum is a structured type's (R80). -/
theorem typeRow_structured : ∀ r ∈ typeRows, 4 < r.lMin → (r.pattern.setWidth 8, r.lMin) ∈ structuredTypes := by decide

/-- Each of the fourteen types has a row (R76). -/
theorem exists_typeRow_of_mem_packetTypes : ∀ t ∈ packetTypes, ∃ r ∈ typeRows, r.pattern = t.setWidth 24 := by decide

/-- A frame that no row matches is of none of the fourteen types (R75). -/
theorem not_mem_packetTypes_of_noRow {frame : List Byte} (h : ∀ r ∈ typeRows, decodeWord frame &&& r.mask ≠ r.pattern) :
    typeByte frame ∉ packetTypes := by
  intro hmem
  obtain ⟨r, hr, hpattern⟩ := exists_typeRow_of_mem_packetTypes _ hmem
  refine h r hr ?_
  rw [Laws.RoundTrip.typeRows_mask r hr, Laws.RoundTrip.decodeWord_type, hpattern]

/-- Every row's instruction stands at the ports as its frame (R70). -/
theorem encode_typeRow (frame : List Byte) : ∀ r ∈ typeRows, encode (r.instr frame) = .frame frame := by
  simp only [typeRows, List.forall_mem_cons, List.not_mem_nil, false_implies, implies_true, and_true]
  exact ⟨rfl, rfl, rfl, rfl, rfl, rfl, rfl, rfl, rfl, rfl, rfl, rfl, rfl, rfl⟩

/-- A frame of legal length decodes to a well-formed instruction, which stands at the ports as that frame: its row's where the
frame is long enough for it, DEC_TRUNCATED where not, DEC_UNKNOWN where no row matches (R75, R143). -/
theorem frameInstr_wellFormed_encode {frame : List Byte} (hok : frameOk frame = true) :
    WellFormed (frameInstr frame) = true ∧ encode (frameInstr frame) = .frame frame := by
  have h4 := ((frameOk_iff frame).1 hok).1
  rw [frameInstr]
  rcases rowOf_cases (decodeWord frame) with ⟨hmem, hsel⟩ | ⟨hrow, hnone⟩
  · have htype := typeByte_of_matches hmem hsel
    by_cases hshort : frame.length < (rowOf (decodeWord frame)).lMin
    · rw [if_pos hshort]
      have hstruct := typeRow_structured _ hmem (by omega)
      refine ⟨?_, rfl⟩
      simp only [WellFormed, truncatedFrame, hok, Bool.true_and, List.any_eq_true]
      exact ⟨_, hstruct, by simp [htype, hshort]⟩
    · rw [if_neg hshort]
      refine ⟨?_, encode_typeRow frame _ hmem⟩
      rw [wellFormed_typeRow frame _ hmem, typedFrame, hok, htype]
      simpa using hshort
  · have hunknown := not_mem_packetTypes_of_noRow hnone
    rw [hrow, if_neg (by simp only [unknownRow]; omega)]
    exact ⟨by simp [unknownRow, WellFormed, hok, hunknown], rfl⟩

/-- The class of a length byte is well formed, and stands at the ports as that byte (R72). -/
theorem lenInstr_wellFormed_encode (b : Byte) : WellFormed (lenInstr b) = true ∧ encode (lenInstr b) = .lenByte b := by
  rw [lenInstr]
  split
  next hshort =>
    simp only [minTotal] at hshort
    exact ⟨by simp [WellFormed]; omega, rfl⟩
  next hshort =>
    split
    next hlong =>
      simp only [minTotal, maxTotal] at *
      exact ⟨by simp [WellFormed]; omega, rfl⟩
    next hlong =>
      simp only [maxTotal] at hlong
      exact ⟨by simp [WellFormed]; omega, rfl⟩

/-- Settles O2, one kind of port word at a time; only frames and length bytes have a condition to meet. -/
theorem decodedWordIsItsEncoding : Obligations.DecodedWordIsItsEncoding := by
  intro w i h
  cases w with
  | frame bytes =>
    obtain ⟨hok, rfl⟩ := withLegalLength_eq_ok h
    exact frameInstr_wellFormed_encode hok
  | validate bytes =>
    obtain ⟨hok, rfl⟩ := withLegalLength_eq_ok h
    exact ⟨hok, rfl⟩
  | decode bytes =>
    obtain ⟨hok, rfl⟩ := withLegalLength_eq_ok h
    exact ⟨hok, rfl⟩
  | lenByte b =>
    obtain rfl := Except.ok.inj h
    exact lenInstr_wellFormed_encode b
  | chBeat v last => cases last <;> (obtain rfl := Except.ok.inj h; exact ⟨rfl, rfl⟩)
  | scan arm => cases arm <;> (obtain rfl := Except.ok.inj h; exact ⟨rfl, rfl⟩)
  | _ => obtain rfl := Except.ok.inj h; exact ⟨rfl, rfl⟩

/-! ## The length classes -/

/-- A length class acts where its byte is of the class and the one at the buffer's head (R72). -/
theorem lenRow_atHead {ok : Bool} {b : Byte} {r : RxState} (op : RxState → Res RxState) (hok : ok = true)
    (h3 : 3 ≤ r.rxbuf.length) (hb : r.rxbuf.getD 1 0 = b) : lenRow ok b op r = op r := by
  rw [lenRow, if_pos hok, headLen_of_long h3]
  exact if_pos hb

/-- A byte of another class (log entry 15). -/
theorem lenRow_otherClass {ok : Bool} (hok : ok = false) (b : Byte) (op : RxState → Res RxState) (r : RxState) :
    lenRow ok b op r = .refused (.lengthClass b) := by
  rw [lenRow, if_neg (by simp [hok])]

/-- A byte that is not the one at the head (log entry 15). -/
theorem lenRow_notAtHead {ok : Bool} {b : Byte} {r : RxState} (op : RxState → Res RxState) (hok : ok = true)
    (h3 : 3 ≤ r.rxbuf.length) (hb : r.rxbuf.getD 1 0 ≠ b) : lenRow ok b op r = .refused (.lengthByteNotAtHead b) := by
  rw [lenRow, if_pos hok, headLen_of_long h3]
  exact if_neg hb

theorem onRx_of_refused {op : RxState → Res RxState} {s : State} {e : Refusal} (h : op s.rx = .refused e) :
    onRx op s = .refused e := by
  rw [onRx, h, mapRes_refused]

/-! The two illegal classes, by the length byte itself (R72). -/

theorem expected_lt_minTotal (b : Byte) : (expected b).toNat < minTotal ↔ b.toNat ≤ 1 := by
  simp only [expected_toNat, minTotal]
  omega

theorem maxTotal_lt_expected (b : Byte) : maxTotal < (expected b).toNat ↔ 63 ≤ b.toNat := by
  simp only [expected_toNat, maxTotal]
  omega

/-- Discarding, with the length byte named: the event reports the whole buffer (R103). -/
theorem setRx_scanDiscard {s : State} {b : Byte} (hb : s.rx.rxbuf.getD 1 0 = b) :
    s.setRx (scanDiscard s.rx) = (s.buffering []).emitting (.framingError s.rx.rxbuf.length b) := by
  rw [← hb]
  rfl

/-- LEN_LEGAL at the head of a complete frame is SCAN_EMIT, which completes (R72, R104). -/
theorem exec_lenLegal_complete {s : State} {b : Byte} (h3 : 3 ≤ s.rx.rxbuf.length) (hb : s.rx.rxbuf.getD 1 0 = b)
    (hlegal : LegalLenByte b) (hlen : b.toNat + 2 ≤ s.rx.rxbuf.length) :
    ∃ t, exec (.lenLegal b) s = .next t ∧ exec .scanEmit s = .next t := by
  subst hb
  obtain ⟨r, hrun⟩ : ∃ r, scanEmit s.rx = .next r := by
    obtain ⟨c, v, f, e, hrun, -⟩ := scanEmit_spec s.rx hlegal hlen
    exact ⟨_, hrun⟩
  refine ⟨s.setRx r, onRx_of_next ?_, onRx_of_next ?_⟩
  · rw [lenRow_atHead _ ((legalLen_iff _).2 hlegal) h3 rfl, if_pos (by rwa [expected_toNat]), hrun]
  · rw [whenSelected, if_pos (selectArm_emit h3 hlegal hlen), hrun]

/-- LEN_LEGAL at the head of an incomplete frame waits: nothing changes (R72, R105). -/
theorem exec_lenLegal_incomplete {s : State} {b : Byte} (h3 : 3 ≤ s.rx.rxbuf.length) (hb : s.rx.rxbuf.getD 1 0 = b)
    (hlegal : LegalLenByte b) (hlen : s.rx.rxbuf.length < b.toNat + 2) : exec (.lenLegal b) s = .next s := by
  refine onRx_of_next (r := s.rx) ?_
  rw [lenRow_atHead _ ((legalLen_iff b).2 hlegal) h3 hb, if_neg (by rw [expected_toNat]; omega), scanWait]

/-- Settles O17: at the head of the buffer each class runs the arm of the scan loop that R72 gives it. -/
theorem lengthByteClassesAndEffects : Obligations.LengthByteClassesAndEffects := by
  intro s b h3 hb
  refine ⟨fun h1 => ⟨Laws.RoundTrip.lenTooShort b (by simpa [WellFormed] using h1), ?_⟩,
    fun h2 h62 => ⟨Laws.RoundTrip.lenLegal b (by simp [WellFormed, h2, h62]), exec_lenLegal_complete h3 hb ⟨h2, h62⟩,
      exec_lenLegal_incomplete h3 hb ⟨h2, h62⟩⟩,
    fun h63 => ⟨Laws.RoundTrip.lenTooLong b (by simpa [WellFormed] using h63), ?_⟩⟩
  · rw [← setRx_scanDiscard hb]
    exact onRx_of_next (lenRow_atHead _ (decide_eq_true ((expected_lt_minTotal b).2 h1)) h3 hb)
  · rw [← setRx_scanDiscard hb]
    exact onRx_of_next (lenRow_atHead _ (decide_eq_true ((maxTotal_lt_expected b).2 h63)) h3 hb)

/-! ## Operands outside the domain -/

/-- A DEC_* row of one type byte runs, on a frame of that type, what DECODE selects by the byte (R75, R140). -/
theorem exec_typedInstr (frame : List Byte) (s : State) :
    ∀ p ∈ typedInstrs, exec (p.2 frame) s = decRow (· == p.1) (decodeOp p.1) frame s := by
  simp only [typedInstrs, List.forall_mem_cons, List.not_mem_nil, false_implies, implies_true, and_true]
  exact ⟨rfl, rfl, rfl, rfl, rfl, rfl, rfl, rfl, rfl, rfl, rfl, rfl, rfl, rfl⟩

/-- What DECODE selects for a structured type stands behind the guard of its minimum length (R80, R143). -/
theorem decodeOp_structured : ∀ p ∈ structuredTypes, ∃ op, decodeOp p.1 = guarded p.2 op := by
  simp only [structuredTypes, List.forall_mem_cons, List.not_mem_nil, false_implies, implies_true, and_true]
  exact ⟨⟨_, rfl⟩, ⟨_, rfl⟩, ⟨_, rfl⟩, ⟨_, rfl⟩, ⟨_, rfl⟩, ⟨_, rfl⟩, ⟨_, rfl⟩⟩

theorem lMinOf_structured : ∀ p ∈ structuredTypes, lMinOf p.1 = some p.2 := by decide

theorem lMinOf_eq_none {t : Byte} (h : ∀ p ∈ structuredTypes, t ≠ p.1) : lMinOf t = none := by
  simp only [structuredTypes, List.forall_mem_cons, List.not_mem_nil, false_implies, implies_true, and_true] at h
  simp only [lMinOf, h, if_false]

/-- DEC_TRUNCATED on a legal frame of a structured type: the effect of R143 on a short one, a refusal on a long one. -/
theorem exec_decTruncated_structured {frame : List Byte} (hl : LegalFrame frame) {p : Byte × Nat} (hp : p ∈ structuredTypes)
    (ht : typeByte frame = p.1) (s : State) :
    exec (.decTruncated frame) s = if frame.length < p.2 then onRx (fun r => decTruncated (r.setFrame (Memory.ofBytes frame))) s
      else .refused (.notTruncated frame.length) := by
  have hmin : lMinOf (frame.getD 2 0) = some p.2 := (congrArg lMinOf ht).trans (lMinOf_structured p hp)
  have hread (r : RxState) : memRead1 (r.setFrame (Memory.ofBytes frame)).frame 2 = .next (frame.getD 2 0) :=
    memRead1_ofBytes frame 2 (Nat.lt_of_lt_of_le (by decide) hl.1)
  have hlen (r : RxState) : (r.setFrame (Memory.ofBytes frame)).frame.length = frame.length := Memory.length_ofBytes frame
  change execDecTruncated frame s = _
  rw [execDecTruncated, decRow_legal hl (by rw [hmin]; rfl)]
  simp only [hread, andThen_next, hmin, Option.getD_some, hlen]
  by_cases hshort : frame.length < p.2
  · simp only [if_pos hshort]
  · simp only [if_neg hshort]
    rfl

/-- Every operation that takes a frame refuses one of illegal length (U5, U6). -/
theorem exec_illegalFrame {frame : List Byte} (h : ¬ LegalFrame frame) (s : State) :
    ∀ mk ∈ frameInstrs, exec (mk frame) s = .refused (.frameLength frame.length) := by
  intro mk hmk
  rcases List.mem_append.1 hmk with hmk | hmk
  · obtain ⟨p, hp, rfl⟩ := List.mem_map.1 hmk
    rw [exec_typedInstr frame s p hp, decRow_illegal h]
  · simp only [List.mem_cons, List.not_mem_nil, or_false] at hmk
    rcases hmk with rfl | rfl | rfl | rfl
    · exact decRow_illegal h s
    · exact decRow_illegal h s
    · exact onRx_of_refused (withFrame_illegal h _ _)
    · exact onRx_of_refused (withFrame_illegal h _ _)

/-- A structured row on a frame too short for it does what DEC_TRUNCATED does (R143, log entry 14). -/
theorem exec_typedInstr_short {frame : List Byte} (hl : LegalFrame frame) {p : Byte × Nat} (hp : p ∈ structuredTypes)
    (ht : typeByte frame = p.1) (hshort : frame.length < p.2) {q : Byte × (List Byte → Instr)} (hq : q ∈ typedInstrs)
    (hqp : q.1 = p.1) (s : State) : exec (q.2 frame) s = exec (.decTruncated frame) s := by
  obtain ⟨op, hop⟩ := decodeOp_structured p hp
  have hguard (r : RxState) : guarded p.2 op (r.setFrame (Memory.ofBytes frame)) = decTruncated (r.setFrame (Memory.ofBytes frame)) :=
    guarded_short (by rw [RxState.setFrame_frame, Memory.length_ofBytes]; exact hshort)
  rw [exec_typedInstr frame s q hq, hqp, decRow_legal (ok := (· == p.1)) hl (beq_iff_eq.2 ht), exec_decTruncated_structured hl hp ht, if_pos hshort,
    hop]
  simp only [hguard]

/-- DEC_UNKNOWN takes none of the fourteen types (R75). -/
theorem unknown_class_of_mem_packetTypes : ∀ t ∈ packetTypes, ((lMinOf t).isNone && !fieldless t) = false := by decide

/-- What a length byte decodes to is refused where the byte is not the one at the buffer's head (log entry 15). -/
theorem exec_lenInstr_notAtHead {s : State} {b : Byte} (h3 : 3 ≤ s.rx.rxbuf.length) (hb : s.rx.rxbuf.getD 1 0 ≠ b) :
    exec (lenInstr b) s = .refused (.lengthByteNotAtHead b) := by
  rw [lenInstr]
  split
  next hshort => exact onRx_of_refused (lenRow_notAtHead _ (by simpa using hshort) h3 hb)
  next hshort =>
    split
    next hlong => exact onRx_of_refused (lenRow_notAtHead _ (by simp [legalLen, hlong]; omega) h3 hb)
    next hlong => exact onRx_of_refused (lenRow_notAtHead _ (by simpa using hlong) h3 hb)

/-- Settles O44, one reason to stop at a time. -/
theorem stopsOutsideTheOperandDomain : Obligations.StopsOutsideTheOperandDomain := by
  refine ⟨fun s frame h => exec_illegalFrame h s, fun s frame hl => ⟨fun p hp ht => ?_, fun ht => ?_, fun ht => ?_,
    fun p hp ht hlen => ?_, fun p hp ht hshort q hq hqp => exec_typedInstr_short hl hp ht hshort hq hqp s⟩,
    fun s b => ⟨fun h => ?_, fun h => ?_, fun h => ?_, fun h3 hb i hi => ?_⟩⟩
  · rw [exec_typedInstr frame s p hp]
    exact decRow_otherType (ok := (· == p.1)) hl (beq_eq_false_iff_ne.2 ht) s
  · exact decRow_otherType hl (unknown_class_of_mem_packetTypes _ ht) s
  · exact decRow_otherType hl (congrArg Option.isSome (lMinOf_eq_none ht)) s
  · rw [exec_decTruncated_structured hl hp ht, if_neg (by omega)]
  · exact onRx_of_refused (lenRow_otherClass (decide_eq_false (by rw [expected_lt_minTotal]; omega)) b _ _)
  · exact onRx_of_refused (lenRow_otherClass (by rwa [← Bool.not_eq_true, legalLen_iff]) b _ _)
  · exact onRx_of_refused (lenRow_otherClass (decide_eq_false (by rw [maxTotal_lt_expected]; omega)) b _ _)
  · obtain rfl := Except.ok.inj hi
    exact exec_lenInstr_notAtHead h3 hb

/-! ## One ENCODE and its values -/

/-- CH_LOADs one after the other are the fold of the loads (R181). -/
theorem execAll_chLoads (vs : List Chan) (is : List Instr) (s : State) :
    execAll (vs.map .chLoad ++ is) s = execAll is (s.setTx (vs.foldl loadChannel s.tx)) := by
  induction vs generalizing s with
  | nil => rfl
  | cons v vs ih => exact ih (s.setTx (loadChannel s.tx v))

theorem exec_encode_values (vs : List Chan) (s : State) :
    exec (.encode (.values vs)) s = onTx (fun t => commit s.encCrcStart (vs.foldl loadChannel t)) s := rfl

/-- The beat with `ch_last` after the loads of `vs`: the commit of `vs` and its value, on the state before the loads (R39). -/
theorem exec_lastBeat_after_loads (vs : List Chan) (v : Chan) (s : State) :
    exec (.encode (.lastBeat v)) (s.setTx (vs.foldl loadChannel s.tx)) = exec (.encode (.values (vs ++ [v]))) s := by
  rw [exec_encode_values, onTx, List.foldl_append]
  rfl

/-- Settles O52: the loads are a fold, the last beat is one load more, and the commit completes. -/
theorem encodeIsLoadsThenCommit : Obligations.EncodeIsLoadsThenCommit := by
  intro s vs v
  obtain ⟨t, ht⟩ := commit_completes s.encCrcStart ((vs ++ [v]).foldl loadChannel s.tx)
  have hrun : exec (.encode (.values (vs ++ [v]))) s = .next (s.setTx t) := by
    rw [exec_encode_values]
    exact onTx_of_next ht
  refine ⟨s.setTx t, ?_, hrun⟩
  rw [execAll_chLoads, execAll, exec_lastBeat_after_loads, hrun, andThen_next, execAll]

/-! ## Tier 1 -/

/-- Settles O3: the decoder runs on each word. -/
theorem knownWordsDecode : Obligations.KnownWordsDecode :=
  ⟨rfl, rfl, rfl, rfl, rfl, rfl, rfl, rfl, rfl, rfl, rfl⟩

end Sys2Proof.Machine

/-! PROOFS of the family 40_deframer. A FEED with DROP = 0 is one pass over the buffer and the chunk (`exec_chunk`), a pass goes by
the arm its buffer selects (`scanPass_wait`, `scanPass_discard`, `scanPass_emit`), and the streaming form is one function of the RX
half (`feedBeats_eq`). That the chunking does not matter follows from the streaming form, which reads the bytes one by one. -/

namespace Sys2Proof.Machine

/-! ## The arms as instructions -/

/-- The third condition beside `selectArm_eq_discard` and `selectArm_eq_emit` (R102, R105). -/
theorem selectArm_eq_wait {buf : List Byte} :
    selectArm buf = .wait ↔
      buf.length < 3 ∨ (LegalLenByte (buf.getD 1 0) ∧ buf.length < (buf.getD 1 0).toNat + 2) := by
  constructor
  · intro h
    rcases Nat.lt_or_ge buf.length 3 with h3 | h3
    · exact .inl h3
    · exact .inr ((residue_of_wait h).2 h3)
  · rintro (h3 | ⟨hb, hl⟩)
    · exact selectArm_short h3
    · rcases Nat.lt_or_ge buf.length 3 with h3 | h3
      · exact selectArm_short h3
      · exact selectArm_wait h3 hb hl

/-- A legal length byte with its whole frame buffered: at least 4 bytes are there (R71, R104). -/
theorem selectArm_complete {buf : List Byte} (hb : LegalLenByte (buf.getD 1 0)) (hl : (buf.getD 1 0).toNat + 2 ≤ buf.length) :
    selectArm buf = .emit :=
  selectArm_emit (by have := hb.1; omega) hb hl

theorem exec_scanDiscard_selected {s : State} (h : selectArm s.rx.rxbuf = .discard) :
    exec .scanDiscard s = .next (s.setRx (scanDiscard s.rx)) :=
  onRx_of_next (if_pos h)

theorem exec_scanEmit_selected {s : State} (h : selectArm s.rx.rxbuf = .emit) : exec .scanEmit s = onRx scanEmit s :=
  congrArg (mapRes · s.setRx) (if_pos h)

theorem exec_scanWait_selected {s : State} (h : selectArm s.rx.rxbuf = .wait) : exec .scanWait s = .next s :=
  onRx_of_next (r := s.rx) (if_pos h)

/-- An arm the buffer does not select stops by name (log entry 15). -/
theorem exec_scanInstr_notSelected {s : State} {arm : ScanArm} (h : selectArm s.rx.rxbuf ≠ arm) :
    exec (scanInstr arm) s = .refused (.armNotSelected arm) := by
  cases arm with
  | discard => exact onRx_of_refused (if_neg h)
  | emit => exact onRx_of_refused (if_neg h)
  | wait => exact onRx_of_refused (if_neg h)

/-- SCAN_EMIT where the buffer selects it: it completes, leaves DROP as it is and adds nothing to the buffer (R104). -/
theorem scanEmit_selected {r : RxState} (h : selectArm r.rxbuf = .emit) :
    ∃ r', scanEmit r = .next r' ∧ r'.drop = r.drop ∧ r'.rxbuf.length ≤ r.rxbuf.length := by
  obtain ⟨-, hb, hl⟩ := selectArm_eq_emit.1 h
  obtain ⟨c, v, f, e, hrun, -⟩ := scanEmit_spec r hb hl
  exact ⟨_, hrun, rfl, by simp⟩

/-- The arm the buffer selects completes (R112). -/
theorem exec_scanInstr_completes (s : State) : ∃ t, exec (scanInstr (selectArm s.rx.rxbuf)) s = .next t := by
  cases h : selectArm s.rx.rxbuf with
  | discard => exact ⟨_, exec_scanDiscard_selected h⟩
  | wait => exact ⟨_, exec_scanWait_selected h⟩
  | emit =>
    obtain ⟨r, hrun, -⟩ := scanEmit_selected h
    exact ⟨_, (exec_scanEmit_selected h).trans (onRx_of_next hrun)⟩

/-- Settles O16: the arm is the one the buffer selects. -/
theorem exactlyOneScanArmRuns : Obligations.ExactlyOneScanArmRuns :=
  fun s => ⟨selectArm s.rx.rxbuf, exec_scanInstr_completes s, fun _ hne => exec_scanInstr_notSelected hne.symm,
    selectArm_eq_discard, selectArm_eq_emit, selectArm_eq_wait⟩

theorem lenRow_class_short {ok : Bool} {b : Byte} {op : RxState → Res RxState} {r : RxState} (hok : ok = true)
    (h : r.rxbuf.length < 3) : lenRow ok b op r = .next r :=
  hok ▸ lenRow_short h

/-- With fewer than 3 bytes buffered, what a length byte decodes to does nothing (R102, log entry 15). -/
theorem exec_lenInstr_short {s : State} (h : s.rx.rxbuf.length < 3) (b : Byte) : exec (lenInstr b) s = .next s := by
  rw [lenInstr]
  split
  next hshort => exact onRx_of_next (r := s.rx) (lenRow_class_short (by simpa using hshort) h)
  next hshort =>
    split
    next hlong => exact onRx_of_next (r := s.rx) (lenRow_class_short (by simp [legalLen, hlong]; omega) h)
    next hlong => exact onRx_of_next (r := s.rx) (lenRow_class_short (by simpa using hlong) h)

/-- Settles O15: a residue selects WAIT, and no class examines a byte before the third is there. -/
theorem scanWaitChangesNothing : Obligations.ScanWaitChangesNothing := by
  refine ⟨fun s h => exec_scanWait_selected (selectArm_residue h), fun s b i h hi => ?_⟩
  obtain rfl := Except.ok.inj hi
  exact exec_lenInstr_short h b

/-! ## One pass of the scan loop -/

/-- One pass over the buffer: the loop with as much fuel as there are bytes, which is enough (R101, R106). -/
def scanPass (r : RxState) : Res RxState :=
  scanLoop r.rxbuf.length r

/-- More fuel than bytes gives the same pass. -/
theorem scanPass_eq (r : RxState) : scanPass r = scanLoop (r.rxbuf.length + 1) r :=
  scanLoop_fuel _ _ r (Nat.le_refl _) (Nat.le_succ _)

theorem scanPass_wait {r : RxState} (h : selectArm r.rxbuf = .wait) : scanPass r = .next r := by
  rw [scanPass_eq, scanLoop, h, scanWait]

theorem scanPass_discard {r : RxState} (h : selectArm r.rxbuf = .discard) : scanPass r = .next (scanDiscard r) := by
  rw [scanPass_eq, scanLoop, h]

/-- After an EMIT the rest is scanned as a buffer of its own (R101). -/
theorem scanPass_emit {r : RxState} (h : selectArm r.rxbuf = .emit) : scanPass r = andThen (scanEmit r) scanPass := by
  obtain ⟨r', hrun, -, hlen⟩ := scanEmit_selected h
  rw [scanPass_eq, scanLoop, h, hrun]
  exact scanLoop_fuel _ _ r' hlen (Nat.le_refl _)

/-- A FEED with DROP = 0 appends and passes (R101). -/
theorem exec_chunk {s : State} (hd : s.rx.drop = none) (chunk : List Byte) :
    exec (.feed (.chunk chunk)) s = onRx scanPass (s.buffering (s.rx.rxbuf ++ chunk)) :=
  congrArg (mapRes · s.setRx) (feedChunk_none hd chunk)

theorem exec_chunk_wait {s : State} (hd : s.rx.drop = none) {chunk : List Byte}
    (h : selectArm (s.rx.rxbuf ++ chunk) = .wait) :
    exec (.feed (.chunk chunk)) s = .next (s.buffering (s.rx.rxbuf ++ chunk)) :=
  (exec_chunk hd chunk).trans (onRx_of_next (scanPass_wait h))

/-- A FEED that discards at once loses what was buffered and the whole chunk (R103). -/
theorem exec_chunk_discard {s : State} (hd : s.rx.drop = none) {chunk : List Byte} {b : Byte}
    (h3 : 3 ≤ (s.rx.rxbuf ++ chunk).length) (hb : (s.rx.rxbuf ++ chunk).getD 1 0 = b) (hillegal : ¬ LegalLenByte b) :
    exec (.feed (.chunk chunk)) s =
      .next ((s.buffering []).emitting (.framingError (s.rx.rxbuf ++ chunk).length b)) := by
  rw [exec_chunk hd, onRx_of_next (scanPass_discard (selectArm_illegal h3 (hb ▸ hillegal))),
    setRx_scanDiscard (s := s.buffering _) hb]
  rfl

/-- A FEED that emits goes on as a FEED of no more bytes (R101). -/
theorem exec_chunk_emit {s : State} (hd : s.rx.drop = none) {chunk : List Byte}
    (h : selectArm (s.rx.rxbuf ++ chunk) = .emit) :
    exec (.feed (.chunk chunk)) s =
      andThen (exec .scanEmit (s.buffering (s.rx.rxbuf ++ chunk))) (exec (.feed (.chunk []))) := by
  obtain ⟨r, hrun, hdrop, -⟩ := scanEmit_selected (r := s.rx.setRxbuf (s.rx.rxbuf ++ chunk)) h
  have hemit : exec .scanEmit (s.buffering (s.rx.rxbuf ++ chunk)) = .next (s.setRx r) :=
    (exec_scanEmit_selected h).trans (onRx_of_next hrun)
  have hpass : scanPass (s.rx.setRxbuf (s.rx.rxbuf ++ chunk)) = scanPass r := by
    rw [scanPass_emit h, hrun, andThen_next]
  rw [hemit, andThen_next, exec_chunk (s := s.setRx r) (hdrop.trans hd), State.setRx_rx, List.append_nil, exec_chunk hd]
  exact congrArg (mapRes · s.setRx) hpass

/-- Settles O18, arm by arm. -/
theorem feedRunsTheScanLoop : Obligations.FeedRunsTheScanLoop := by
  intro s chunk hd buf
  refine ⟨fun h => ?_, fun h3 hb => ?_, fun h3 hb hl => ?_, fun h3 hb hl => ?_⟩
  · exact exec_chunk_wait hd (selectArm_short (Nat.lt_succ_of_le h))
  · have hsel := selectArm_illegal h3 hb
    rw [exec_chunk hd, exec_scanDiscard_selected hsel]
    exact onRx_of_next (scanPass_discard hsel)
  · exact exec_chunk_emit hd (selectArm_emit h3 hb hl)
  · have hsel := selectArm_wait h3 hb hl
    rw [exec_chunk_wait hd hsel, exec_scanWait_selected hsel]

/-- Settles O12: a short buffer waits, and the third byte makes an illegal length byte discard all. -/
theorem twoBytesAreNotExamined : Obligations.TwoBytesAreNotExamined := by
  intro s chunk hd
  refine ⟨fun h => exec_chunk_wait hd (selectArm_short (Nat.lt_succ_of_le h)), fun a b hbuf hb hne => ?_⟩
  have hlen : (s.rx.rxbuf ++ chunk).length = 2 + chunk.length := by rw [hbuf, List.length_append]; rfl
  have hpos := List.length_pos_iff.2 hne
  rw [exec_chunk_discard hd (b := b) (by omega) (by rw [hbuf]; rfl) hb, hlen]

/-- Settles O19: what one pass can do, read on the state. -/
theorem feedCompletesWithinBounds : Obligations.FeedCompletesWithinBounds := by
  intro s chunk hd
  obtain ⟨r, hrun, hpass⟩ := feedChunk_spec hd chunk
  obtain ⟨es, last, hevents, hlegal, hframes, hbound, hlast⟩ := hpass.events
  have hshort := hpass.residue.1
  refine ⟨r, es, last, onRx_of_next hrun, hpass.residue, hpass.drop.trans hd, hevents, ?_, fun k hk => ?_, hframes, hlegal, ?_, ?_⟩
  · rw [RxState.rxcnt, BitVec.toNat_ofNat]
    exact Nat.mod_eq_of_lt (by omega)
  · simp [State.fb, hk]
  · simpa using hbound
  · rcases hlast with hnone | ⟨n, b, hone, hempty, -⟩
    · exact .inl hnone
    · exact .inr ⟨n, b, hone, hempty⟩

/-! ## One frame -/

/-- A candidate frame whose CRC is right is decoded (R104, R126). -/
theorem acceptFrame_valid {r : RxState} {bs : List Byte} (hl : LegalFrame bs) (hf : r.frame = Memory.ofBytes bs)
    (hc : crc8 (coveredBytes bs) = crcByteOf bs) :
    acceptFrame r = decodeFrame ((r.setCrcacc (crc8 (coveredBytes bs))).setValid true) := by
  rw [acceptFrame, validateFrame_ofBytes r bs hf hl.1, andThen_next, beq_iff_eq.2 hc]
  rfl

/-- One whose CRC is wrong is reported with the computed CRC (R201). -/
theorem acceptFrame_invalid {r : RxState} {bs : List Byte} (hl : LegalFrame bs) (hf : r.frame = Memory.ofBytes bs)
    (hc : crc8 (coveredBytes bs) ≠ crcByteOf bs) :
    acceptFrame r = .next (((r.setCrcacc (crc8 (coveredBytes bs))).setValid false).emit
      (.crcError bs (crc8 (coveredBytes bs)))) := by
  have hbytes : frameBytes ((r.setCrcacc (crc8 (coveredBytes bs))).setValid false) = .next bs := frameBytes_ofBytes bs _ hf
  rw [acceptFrame, validateFrame_ofBytes r bs hf hl.1, andThen_next, beq_eq_false_iff_ne.2 hc, if_neg (by simp),
    hbytes]
  rfl

/-- DECODE of a legal frame where `r` is the RX half. -/
theorem exec_decode_setRx {frame : List Byte} (hl : LegalFrame frame) (s : State) (r : RxState) :
    exec (.decode frame) (s.setRx r) = mapRes (decodeFrame (r.setFrame (Memory.ofBytes frame))) s.setRx := by
  change onRx (withFrame frame decodeFrame) (s.setRx r) = _
  rw [onRx, State.setRx_rx, withFrame_legal hl]
  rfl

/-- The frame a legal length byte announces, where all its bytes are there (R71). -/
theorem take_announced {buf : List Byte} (hb : LegalLenByte (buf.getD 1 0)) (hl : (buf.getD 1 0).toNat + 2 ≤ buf.length) :
    LegalFrame (buf.take ((buf.getD 1 0).toNat + 2)) ∧
      (buf.take ((buf.getD 1 0).toNat + 2)).length = u8At (buf.take ((buf.getD 1 0).toNat + 2)) 1 + 2 := by
  obtain ⟨hmin, hmax⟩ := id hb
  have hlen := List.length_take_of_le hl
  refine ⟨⟨by omega, by omega⟩, ?_⟩
  rw [hlen, u8At]
  congr 2
  simp [List.getD_eq_getElem?_getD]

/-- Settles O14: the frame is cut off, and what happens to it depends on its CRC. -/
theorem scanEmitValidatesThenDecodes : Obligations.ScanEmitValidatesThenDecodes := by
  intro s hb hl n frame c cut
  obtain ⟨hframe, hlen⟩ := take_announced hb hl
  have hrun : exec .scanEmit s = mapRes (acceptFrame ((s.rx.setFrame (Memory.ofBytes frame)).setRxbuf (s.rx.rxbuf.drop n))) s.setRx := by
    rw [exec_scanEmit_selected (selectArm_complete hb hl), onRx, scanEmit, expected_toNat]
  refine ⟨hframe, hlen, fun hc => ?_, fun hc => ?_, ?_⟩
  · rw [hrun, acceptFrame_valid hframe rfl hc, exec_decode_setRx hframe]
    rfl
  · rw [hrun, acceptFrame_invalid hframe rfl hc]
    rfl
  · obtain ⟨v, regs, event, haccept, hevent⟩ := acceptFrame_ofBytes frame hframe
    exact ⟨v, regs s.rx.f, event s.rx.f, (hevent _).1, (hevent _).2, by rw [hrun, haccept _ rfl]; rfl⟩

/-! ## The streaming form -/

section
variable {r : RxState} {b : Byte}

theorem rxByte_dropping {d : Discard} (hd : r.drop = some d) :
    rxByte r b = .next (r.setDrop (some { d with ndisc := d.ndisc + 1 })) := by
  rw [rxByte, hd]

variable (hd : r.drop = none)
include hd

theorem rxByte_short (h : (r.rxbuf ++ [b]).length ≤ 2) : rxByte r b = .next (r.setRxbuf (r.rxbuf ++ [b])) := by
  rw [rxByte, hd]
  simp only [headLen_of_short (Nat.lt_succ_of_le h)]

theorem rxByte_illegal (h3 : 3 ≤ (r.rxbuf ++ [b]).length) (hb : ¬ LegalLenByte ((r.rxbuf ++ [b]).getD 1 0)) :
    rxByte r b = .next ((r.setRxbuf []).setDrop (some ⟨(r.rxbuf ++ [b]).length, (r.rxbuf ++ [b]).getD 1 0⟩)) := by
  rw [rxByte, hd]
  simp only [headLen_of_long h3]
  rw [if_neg (by rwa [legalLen_iff])]

/-- The last byte of a frame runs SCAN_EMIT on the frame just completed (R108). -/
theorem rxByte_complete (hb : LegalLenByte ((r.rxbuf ++ [b]).getD 1 0))
    (hl : (r.rxbuf ++ [b]).length = ((r.rxbuf ++ [b]).getD 1 0).toNat + 2) :
    rxByte r b = scanEmit (r.setRxbuf (r.rxbuf ++ [b])) := by
  rw [rxByte, hd, scanEmit]
  simp only [headLen_of_long (show 3 ≤ (r.rxbuf ++ [b]).length by have := hb.1; omega), RxState.setRxbuf_rxbuf, expected_toNat]
  rw [if_pos ((legalLen_iff _).2 hb), if_pos hl, ← hl, List.take_length, List.drop_length]
  rfl

theorem rxByte_incomplete (h3 : 3 ≤ (r.rxbuf ++ [b]).length) (hb : LegalLenByte ((r.rxbuf ++ [b]).getD 1 0))
    (hl : (r.rxbuf ++ [b]).length ≠ ((r.rxbuf ++ [b]).getD 1 0).toNat + 2) :
    rxByte r b = .next (r.setRxbuf (r.rxbuf ++ [b])) := by
  rw [rxByte, hd]
  simp only [headLen_of_long h3]
  rw [if_pos ((legalLen_iff _).2 hb), expected_toNat, if_neg hl]

end

theorem chunkEnd_none {r : RxState} (hd : r.drop = none) : chunkEnd r = r := by
  rw [chunkEnd, hd]

theorem chunkEnd_some {r : RxState} {d : Discard} (hd : r.drop = some d) :
    chunkEnd r = (r.setDrop none).emit (.framingError d.ndisc d.lenb) := by
  rw [chunkEnd, hd]
  rfl

/-- A beat with `rx_last` = 0 is one byte. -/
theorem exec_beat (b : Byte) (s : State) : exec (.feed (.beat b false)) s = onRx (rxByte · b) s :=
  congrArg (mapRes · s.setRx) (rxBeat_eq b false s.rx)

/-- A beat with `rx_last` = 1 is one byte and the end of the chunk. -/
theorem exec_lastRxBeat (b : Byte) (s : State) :
    exec (.feed (.beat b true)) s = onRx (fun r => mapRes (rxByte r b) chunkEnd) s :=
  congrArg (mapRes · s.setRx) (rxBeat_eq b true s.rx)

/-- Settles O20, case by case of one byte, then the end of the chunk. -/
theorem streamingFormByteByByte : Obligations.StreamingFormByteByByte := by
  refine ⟨fun s b => ⟨fun d hd => ?_, fun hd => ?_, ?_⟩, fun s chunk d hd => ?_⟩
  · rw [exec_beat]
    exact onRx_of_next (rxByte_dropping hd)
  · refine ⟨fun h => ?_, fun h3 hb => ?_, fun h3 hb hl => ?_, fun h3 hb hl => ?_⟩
    · exact (exec_beat b s).trans (onRx_of_next (rxByte_short hd h))
    · exact (exec_beat b s).trans (onRx_of_next (rxByte_illegal hd h3 hb))
    · rw [exec_beat, exec_scanEmit_selected (selectArm_emit h3 hb (Nat.le_of_eq hl.symm)), onRx, rxByte_complete hd hb hl]
      rfl
    · exact (exec_beat b s).trans (onRx_of_next (rxByte_incomplete hd h3 hb (Nat.ne_of_lt hl)))
  · obtain ⟨r, hr⟩ := rxByte_completes s.rx b
    have hbeat : exec (.feed (.beat b false)) s = .next (s.setRx r) := (exec_beat b s).trans (onRx_of_next hr)
    rw [hbeat, exec_lastRxBeat, onRx, hr, andThen_next, State.setRx_rx, mapRes_next, mapRes_next]
    cases hd : r.drop with
    | none => rw [chunkEnd_none hd]
    | some d => rw [chunkEnd_some hd]; rfl
  · refine onRx_of_next ?_
    rw [feedChunk, hd]
    rfl

/-- The beats of a chunk are its bytes one by one and the end of the chunk, on the RX half alone (R39, R108). -/
theorem feedBeats_eq {chunk : List Byte} (hne : chunk ≠ []) (s : State) :
    feedBeats chunk s = onRx (fun r => mapRes (streamBytes chunk r) chunkEnd) s := by
  induction chunk generalizing s with
  | nil => exact absurd rfl hne
  | cons b bs ih =>
    cases bs with
    | nil =>
      rw [feedBeats, exec_lastRxBeat, onRx, onRx, streamBytes]
      cases rxByte s.rx b <;> rfl
    | cons c bs =>
      have hrest : feedBeats (c :: bs) = onRx fun r => mapRes (streamBytes (c :: bs) r) chunkEnd :=
        funext (ih (List.cons_ne_nil c bs))
      change andThen (exec (.feed (.beat b false)) s) (feedBeats (c :: bs)) = _
      rw [exec_beat, hrest, andThen_onRx]
      simp only [onRx, streamBytes, mapRes_andThen]

/-- The streaming form of a chunk is the FEED of it (R108). -/
theorem feedChunk_eq_streamBytes {r : RxState} (hd : r.drop = none) (hr : Residue r.rxbuf) (chunk : List Byte) :
    feedChunk chunk r = mapRes (streamBytes chunk r) chunkEnd := by
  rw [feedChunk_none hd, streamBytes_eq_scanLoop chunk r hd hr]

/-- Settles O21. -/
theorem streamingFormEqualsFeed : Obligations.StreamingFormEqualsFeed := by
  intro s chunk hd hr hne
  obtain ⟨r, hrun, -⟩ := feedChunk_spec hd chunk
  refine ⟨s.setRx r, ?_, onRx_of_next hrun⟩
  rw [feedBeats_eq hne]
  exact onRx_of_next ((feedChunk_eq_streamBytes hd hr chunk).symm.trans hrun)

/-! ## Chunking -/

/-- Of the events `r'` has beyond those of `r`, one is a framing error: something was discarded on the way. -/
def DiscardSince (r r' : RxState) : Prop :=
  ∃ e ∈ r'.events.drop r.events.length, e.error = some .framingError

/-- What follows a discard does not take its event back. -/
theorem DiscardSince.trans_stepsTo {a b c : RxState} (h : DiscardSince a b) (hbc : b.StepsTo c) : DiscardSince a c := by
  obtain ⟨e, he, herr⟩ := h
  obtain ⟨es, hes⟩ := hbc.events
  exact ⟨e, by rw [hes, List.drop_append]; exact List.mem_append_left _ he, herr⟩

theorem RxState.StepsTo.trans_discardSince {a b c : RxState} (hab : a.StepsTo b) (h : DiscardSince b c) : DiscardSince a c := by
  obtain ⟨e, he, herr⟩ := h
  obtain ⟨es, hes⟩ := hab.events
  exact ⟨e, List.drop_subset_drop_left _ (by simp [hes]) he, herr⟩

/-- The end of a chunk reports a discard in progress (R108). -/
theorem discardSince_chunkEnd {r : RxState} {d : Discard} (hd : r.drop = some d) : DiscardSince r (chunkEnd r) := by
  rw [chunkEnd_some hd]
  exact ⟨.framingError d.ndisc d.lenb, by simp, rfl⟩

theorem streamBytes_append (bs cs : List Byte) (r : RxState) :
    streamBytes (bs ++ cs) r = andThen (streamBytes bs r) (streamBytes cs) := by
  induction bs generalizing r with
  | nil => rfl
  | cons b bs ih =>
    rw [List.cons_append, streamBytes, streamBytes, andThen_assoc]
    exact congrArg (andThen (rxByte r b)) (funext ih)

theorem streamBytes_completes (bs : List Byte) (r : RxState) : ∃ r', streamBytes bs r = .next r' ∧ r.StepsTo r' := by
  induction bs generalizing r with
  | nil => exact ⟨r, rfl, .refl r⟩
  | cons b bs ih =>
    obtain ⟨m, hm⟩ := rxByte_completes r b
    obtain ⟨r', hr', hsteps⟩ := ih m
    exact ⟨r', by rw [streamBytes, hm, andThen_next, hr'], (rxByte_stepsTo hm).trans hsteps⟩

/-- Two chunks and the two as one (R109): the FEED of the second goes on where the FEED of the first stopped, unless the first
discards; then both ways report a discard. The streaming form shows it: DROP alone tells the two ways apart. -/
theorem feedChunk_append {r : RxState} (hd : r.drop = none) (hr : Residue r.rxbuf) (bs cs : List Byte) :
    ∃ r', feedChunk bs r = .next r' ∧ r'.drop = none ∧ Residue r'.rxbuf ∧
      (feedChunk (bs ++ cs) r = feedChunk cs r' ∨
        DiscardSince r r' ∧ ∃ u, feedChunk (bs ++ cs) r = .next u ∧ DiscardSince r u) := by
  obtain ⟨r', hrun, hpass⟩ := feedChunk_spec hd bs
  obtain ⟨m, hm, hsteps⟩ := streamBytes_completes bs r
  have hend : r' = chunkEnd m := by
    rw [feedChunk_eq_streamBytes hd hr, hm, mapRes_next] at hrun
    exact (Host.Outcome.next.inj hrun).symm
  have hboth : feedChunk (bs ++ cs) r = mapRes (streamBytes cs m) chunkEnd := by
    rw [feedChunk_eq_streamBytes hd hr, streamBytes_append, hm, andThen_next]
  refine ⟨r', hrun, hpass.drop.trans hd, hpass.residue, ?_⟩
  cases hdrop : m.drop with
  | none =>
    obtain rfl : r' = m := hend.trans (chunkEnd_none hdrop)
    exact .inl (hboth.trans (feedChunk_eq_streamBytes hdrop hpass.residue cs).symm)
  | some d =>
    have hcount := hsteps.trans (RxState.stepsTo_countDrop hdrop cs.length)
    refine .inr ⟨hend ▸ hsteps.trans_discardSince (discardSince_chunkEnd hdrop), _, ?_,
      hcount.trans_discardSince (discardSince_chunkEnd rfl)⟩
    rw [hboth, streamBytes_drop cs m d hdrop, mapRes_next]

/-- Two answers from `s` that are the same, or both complete and both report a discard. -/
def SameOrDiscard (s : State) (x y : Res State) : Prop :=
  x = y ∨ ∃ t u, x = .next t ∧ y = .next u ∧ DiscardSince s.rx t.rx ∧ DiscardSince s.rx u.rx

theorem SameOrDiscard.of_stepsTo {s s' : State} {x y : Res State} (h : SameOrDiscard s' x y) (hs : s.rx.StepsTo s'.rx) :
    SameOrDiscard s x y := by
  rcases h with heq | ⟨t, u, hx, hy, ht, hu⟩
  · exact .inl heq
  · exact .inr ⟨t, u, hx, hy, hs.trans_discardSince ht, hs.trans_discardSince hu⟩

theorem feedChunks_cons {c : List Byte} {s t : State} (h : exec (.feed (.chunk c)) s = .next t) (cs : List (List Byte)) :
    feedChunks (c :: cs) s = feedChunks cs t := by
  rw [feedChunks, h, andThen_next]

theorem feedChunks_completes (chunks : List (List Byte)) {s : State} (hd : s.rx.drop = none) :
    ∃ t, feedChunks chunks s = .next t ∧ s.rx.StepsTo t.rx := by
  induction chunks generalizing s with
  | nil => exact ⟨s, rfl, .refl _⟩
  | cons c cs ih =>
    obtain ⟨r, hrun, hpass⟩ := feedChunk_spec hd c
    obtain ⟨t, ht, hsteps⟩ := ih (s := s.setRx r) (hpass.drop.trans hd)
    exact ⟨t, (feedChunks_cons (onRx_of_next hrun) cs).trans ht, (feedChunk_stepsTo hrun).trans hsteps⟩

theorem feedChunks_sameOrDiscard (chunks : List (List Byte)) {s : State} (hd : s.rx.drop = none) (hr : Residue s.rx.rxbuf) :
    SameOrDiscard s (feedChunks chunks s) (exec (.feed (.chunk chunks.flatten)) s) := by
  induction chunks generalizing s with
  | nil =>
    refine .inl ((exec_chunk_wait hd (selectArm_residue ?_)).trans ?_).symm
    · exact (List.append_nil s.rx.rxbuf).symm ▸ hr
    · rw [List.flatten_nil, List.append_nil]
      rfl
  | cons c cs ih =>
    obtain ⟨r, hrun, hd', hr', happend⟩ := feedChunk_append hd hr c cs.flatten
    rw [feedChunks_cons (t := s.setRx r) (onRx_of_next hrun)]
    rcases happend with hsame | ⟨hdiscard, u, hu, hdiscard'⟩
    · have hone : exec (.feed (.chunk (c :: cs).flatten)) s = exec (.feed (.chunk cs.flatten)) (s.setRx r) :=
        congrArg (mapRes · s.setRx) hsame
      rw [hone]
      exact (ih hd' hr').of_stepsTo (feedChunk_stepsTo hrun)
    · obtain ⟨t, ht, hsteps⟩ := feedChunks_completes cs (s := s.setRx r) hd'
      exact .inr ⟨t, s.setRx u, ht, onRx_of_next hu, hdiscard.trans_stepsTo hsteps, hdiscard'⟩

/-- Settles O22: a state without a discard is answered by both ways or by neither. -/
theorem chunkingIsIrrelevantWithoutDiscard : Obligations.ChunkingIsIrrelevantWithoutDiscard := by
  intro s chunks hd hr t ht
  have hnone : ¬ DiscardSince s.rx t.rx := fun ⟨e, he, herr⟩ => ht e he herr
  rcases feedChunks_sameOrDiscard chunks hd hr with hsame | ⟨u, v, hu, hv, hdu, hdv⟩
  · rw [hsame]
  · rw [hu, hv]
    exact ⟨fun h => absurd (Host.Outcome.next.inj h ▸ hdu) hnone, fun h => absurd (Host.Outcome.next.inj h ▸ hdv) hnone⟩

/-! ## One frame fed whole or byte by byte -/

/-- From an empty buffer, the FEED of exactly one frame is what happens to that frame (R104). -/
theorem feedChunk_frame {r : RxState} (hd : r.drop = none) (hempty : r.rxbuf = []) {frame : List Byte} (hl : LegalFrame frame)
    (hlen : frame.length = u8At frame 1 + 2) :
    feedChunk frame r = acceptFrame (r.setFrame (Memory.ofBytes frame)) := by
  obtain ⟨hmin, hmax⟩ := hl
  have hself : r.setRxbuf [] = r := by rw [← hempty]; rfl
  have hb : LegalLenByte (frame.getD 1 0) := by rw [u8At] at hlen; exact ⟨by omega, by omega⟩
  have hemit : scanEmit (r.setRxbuf frame) = acceptFrame (r.setFrame (Memory.ofBytes frame)) := by
    rw [scanEmit, expected_toNat, RxState.setRxbuf_rxbuf, ← u8At, ← hlen, List.take_length, List.drop_length]
    exact congrArg (fun q => acceptFrame (q.setFrame (Memory.ofBytes frame))) hself
  obtain ⟨v, regs, event, haccept, -⟩ := acceptFrame_ofBytes frame ⟨hmin, hmax⟩
  have hpass : scanPass (r.setRxbuf frame) = andThen (acceptFrame (r.setFrame (Memory.ofBytes frame))) scanPass := by
    rw [scanPass_emit (r := r.setRxbuf frame) (selectArm_complete hb (Nat.le_of_eq hlen.symm)), hemit]
  rw [feedChunk_none hd, hempty, List.nil_append]
  refine hpass.trans ?_
  rw [haccept _ rfl, andThen_next]
  exact scanPass_wait (selectArm_residue (hempty ▸ residue_nil))

/-- A part of a frame, without its last byte, waits (R105). -/
theorem selectArm_take_frame {frame : List Byte} (hl : LegalFrame frame) (hlen : frame.length = u8At frame 1 + 2) {k : Nat}
    (hk : k < frame.length) : selectArm (frame.take k) = .wait := by
  obtain ⟨hmin, hmax⟩ := hl
  have htake := List.length_take_of_le (Nat.le_of_lt hk)
  refine selectArm_eq_wait.2 ((Nat.lt_or_ge k 3).imp (fun h3 => by omega) fun h3 => ?_)
  have hget : (frame.take k).getD 1 0 = frame.getD 1 0 := by
    simp [List.getD_eq_getElem?_getD, List.getElem?_take_of_lt (show 1 < k by omega)]
  rw [u8At] at hlen
  rw [hget, htake]
  exact ⟨⟨by omega, by omega⟩, by omega⟩

/-- Bytes fed one per call, where feeding them as one chunk discards nothing (R109, R110). -/
theorem feedChunks_singletons {s t : State} {bs : List Byte} (hd : s.rx.drop = none) (hempty : s.rx.rxbuf = [])
    (hrun : exec (.feed (.chunk bs)) s = .next t) (ht : ∀ e ∈ t.rx.events.drop s.rx.events.length, e.error ≠ some .framingError) :
    feedChunks (bs.map fun b => [b]) s = .next t := by
  refine (chunkingIsIrrelevantWithoutDiscard s _ hd (hempty ▸ residue_nil) t ht).2 ?_
  rw [← List.flatMap_def, List.flatMap_singleton', hrun]

/-- Settles O23: as one chunk the frame gives one event and a part of it none; byte by byte it is the same. -/
theorem byteByByteGivesOneFrame : Obligations.ByteByByteGivesOneFrame := by
  intro s frame hd hempty hl hlen
  refine ⟨fun k hk => ?_, ?_⟩
  · refine feedChunks_singletons hd hempty ?_ (by simp [State.buffering])
    have hwait := selectArm_take_frame hl hlen hk
    rw [← List.nil_append (frame.take k), ← hempty] at hwait
    rw [exec_chunk_wait hd hwait, hempty, List.nil_append]
  · obtain ⟨v, regs, event, haccept, hevent⟩ := acceptFrame_ofBytes frame hl
    have hrun := (feedChunk_frame hd hempty hl hlen).trans (haccept _ rfl)
    refine ⟨_, event s.rx.f, feedChunks_singletons hd hempty (onRx_of_next hrun) ?_, onRx_of_next hrun, rfl, hempty⟩
    simpa using (hevent s.rx.f).2

/-- Settles O24: the discard leaves the buffer empty, so the next frame is the whole of it. -/
theorem discardThenNextFrameDecodes : Obligations.DiscardThenNextFrameDecodes := by
  intro s chunk frame hd hempty h3 hb hl hlen hc
  have hself : s.buffering [] = s := by rw [← hempty]; rfl
  have hlost : exec (.feed (.chunk chunk)) s = .next (s.emitting (.framingError chunk.length 200)) := by
    have h := exec_chunk_discard hd (chunk := chunk) (b := 200) (by rwa [hempty]) (by rwa [hempty]) (by simp [LegalLenByte])
    rwa [hself, hempty, List.nil_append] at h
  have hempty' : (s.rx.emit (.framingError chunk.length 200)).rxbuf = [] := hempty
  have hfeed := feedChunk_frame (r := s.rx.emit (.framingError chunk.length 200)) hd hempty' hl hlen
  have hdecode : exec (.decode frame)
        (s.setRx (((s.rx.emit (.framingError chunk.length 200)).setCrcacc (crcByteOf frame)).setValid true)) =
      exec (.feed (.chunk frame)) (s.emitting (.framingError chunk.length 200)) := by
    rw [exec_decode_setRx hl, ← hc]
    exact congrArg (mapRes · s.setRx) (hfeed.trans (acceptFrame_valid hl rfl hc)).symm
  obtain ⟨v, regs, event, haccept, -⟩ := acceptFrame_ofBytes frame hl
  have hrun : exec (.feed (.chunk frame)) (s.emitting (.framingError chunk.length 200)) = .next _ :=
    onRx_of_next (hfeed.trans (haccept _ rfl))
  exact ⟨hlost, _, (feedChunks_cons hlost [frame]).trans (feedChunks_cons hrun []), hempty, hdecode.trans hrun⟩

/-! ## Every well-formed instruction -/

/-- A row of a single type byte on a frame of that type runs what DECODE selects by the byte, which completes (R75, R140). -/
theorem decRow_typedFrame_completes {t : Byte} {lMin : Nat} {frame : List Byte} (h : typedFrame t lMin frame = true) (s : State) :
    ∃ u, decRow (· == t) (decodeOp t) frame s = .next u := by
  simp only [typedFrame, Bool.and_eq_true, beq_iff_eq, frameOk_iff] at h
  obtain ⟨⟨hl, ht⟩, -⟩ := h
  obtain ⟨regs, event, hrun, -⟩ := decodeOp_emitsOne t frame hl ht hl.1
  exact ⟨_, (decRow_legal (ok := (· == t)) hl (beq_iff_eq.2 ht) s).trans (onRx_of_next (hrun _ rfl))⟩

/-- DEC_UNKNOWN takes every type that is none of the fourteen (R75, R160). -/
theorem unknown_class_of_not_mem_packetTypes {t : Byte} (h : t ∉ packetTypes) : ((lMinOf t).isNone && !fieldless t) = true := by
  simp only [packetTypes, structuredTypes, fieldlessTypes, List.map_cons, List.map_nil, List.mem_append, List.mem_cons,
    List.not_mem_nil, not_or] at h
  simp only [lMinOf, fieldless, h, if_false, Option.isNone_none, Bool.true_and, Bool.not_eq_true', Bool.or_eq_false_iff,
    beq_eq_false_iff_ne, ne_eq, not_false_eq_true, and_self]

theorem execDecUnknown_completes {frame : List Byte} (h : WellFormed (.decUnknown frame) = true) (s : State) :
    ∃ u, execDecUnknown frame s = .next u := by
  simp only [WellFormed, Bool.and_eq_true, frameOk_iff, Bool.not_eq_true', List.contains_eq_mem, decide_eq_false_iff_not] at h
  obtain ⟨hl, ht⟩ := h
  have hmin := hl.1
  exact ⟨_, (decRow_legal hl (unknown_class_of_not_mem_packetTypes ht) s).trans
    (onRx_of_next (unrecognized_ofBytes rfl false (by omega)))⟩

theorem execDecTruncated_completes {frame : List Byte} (h : WellFormed (.decTruncated frame) = true) (s : State) :
    ∃ u, exec (.decTruncated frame) s = .next u := by
  simp only [WellFormed, truncatedFrame, Bool.and_eq_true, frameOk_iff, List.any_eq_true, beq_iff_eq, decide_eq_true_eq] at h
  obtain ⟨hl, p, hp, ht, hshort⟩ := h
  have hmin := hl.1
  rw [exec_decTruncated_structured hl hp ht, if_pos hshort]
  exact ⟨_, onRx_of_next (decTruncated_ofBytes rfl (by omega))⟩

theorem exec_validate_completes {frame : List Byte} (hl : LegalFrame frame) (s : State) :
    ∃ u, exec (.validate frame) s = .next u :=
  ⟨_, onRx_of_next ((withFrame_legal hl _ _).trans (validateFrame_ofBytes _ frame rfl hl.1))⟩

theorem exec_decode_completes {frame : List Byte} (hl : LegalFrame frame) (s : State) :
    ∃ u, exec (.decode frame) s = .next u := by
  obtain ⟨regs, event, hrun, -⟩ := decodeFrame_emitsOne _ frame hl rfl hl.1
  exact ⟨_, onRx_of_next ((withFrame_legal hl _ _).trans (hrun _ rfl))⟩

/-- FEED completes in every state, also with a discard in progress (R101, R108; log entry 12). -/
theorem exec_feed_completes (operand : RxOperand) (s : State) : ∃ u, exec (.feed operand) s = .next u := by
  cases operand with
  | beat b last =>
    obtain ⟨r, hr⟩ := rxByte_completes s.rx b
    exact ⟨_, onRx_of_next (mapRes_eq_next.2 ⟨r, hr, rfl⟩)⟩
  | chunk bytes =>
    cases hd : s.rx.drop with
    | none =>
      obtain ⟨r, hr, -⟩ := feedChunk_spec hd bytes
      exact ⟨_, onRx_of_next hr⟩
    | some d => exact ⟨_, onRx_of_next (by rw [feedChunk, hd])⟩

theorem exec_encode_completes (operand : ChOperand) (s : State) : ∃ u, exec (.encode operand) s = .next u := by
  cases operand with
  | values vs =>
    obtain ⟨t, ht⟩ := commit_completes s.encCrcStart (vs.foldl loadChannel s.tx)
    exact ⟨_, (exec_encode_values vs s).trans (onTx_of_next ht)⟩
  | lastBeat v =>
    obtain ⟨t, ht⟩ := commit_completes s.encCrcStart (loadChannel s.tx v)
    exact ⟨_, onTx_of_next (op := fun u => commit s.encCrcStart (loadChannel u v)) ht⟩

/-- Settles O58, one instruction at a time. -/
theorem wellFormedInstrCompletes : Obligations.WellFormedInstrCompletes := by
  intro i s hwf hhead
  cases i with
  | decGps frame => exact decRow_typedFrame_completes hwf s
  | decVario frame => exact decRow_typedFrame_completes hwf s
  | decBatterySensor frame => exact decRow_typedFrame_completes hwf s
  | decBaroAlt frame => exact decRow_typedFrame_completes hwf s
  | decHeartbeat frame => exact decRow_typedFrame_completes hwf s
  | decVideoTransmitter frame => exact decRow_typedFrame_completes hwf s
  | decLinkStatistics frame => exact decRow_typedFrame_completes hwf s
  | decRcChannelsPacked frame => exact decRow_typedFrame_completes hwf s
  | decAttitude frame => exact decRow_typedFrame_completes hwf s
  | decFlightMode frame => exact decRow_typedFrame_completes hwf s
  | decDeviceInfo frame => exact decRow_typedFrame_completes hwf s
  | decConfigRead frame => exact decRow_typedFrame_completes hwf s
  | decConfigWrite frame => exact decRow_typedFrame_completes hwf s
  | decRadioId frame => exact decRow_typedFrame_completes hwf s
  | decUnknown frame => exact execDecUnknown_completes hwf s
  | decTruncated frame => exact execDecTruncated_completes hwf s
  | feed operand => exact exec_feed_completes operand s
  | crc8Bit u => exact ⟨_, onCrc_eq u Machine.crc8Bit s⟩
  | crc8Byte u b => exact ⟨_, onCrc_eq u (Machine.crc8Byte · b) s⟩
  | crc8 u bytes => exact ⟨_, onCrc_eq u (fun _ => Machine.crc8 bytes) s⟩
  | validate frame => exact exec_validate_completes ((frameOk_iff frame).1 hwf) s
  | decode frame => exact exec_decode_completes ((frameOk_iff frame).1 hwf) s
  | chLoad v => exact ⟨s.setTx (loadChannel s.tx v), rfl⟩
  | pack => exact ⟨s.setTx (packChannels s.tx), rfl⟩
  | encode operand => exact exec_encode_completes operand s
  | reset => exact ⟨_, execReset_eq s⟩
  | lenTooShort b => cases hhead
  | lenLegal b => cases hhead
  | lenTooLong b => cases hhead
  | scanDiscard => cases hhead
  | scanEmit => cases hhead
  | scanWait => cases hhead

end Sys2Proof.Machine

/-! PROOFS of the family 41_crc. A CRC instruction is an update of its unit's running CRC (`onCrc_eq`), so a run of them is a fold
over that one byte (`execAll_onCrc`); the laws of CRC8 are those of `crc8From`; and VALIDATE of a legal frame is one update of the
RX half, whose result bit depends on the covered bytes and the CRC byte alone. -/

namespace Sys2Proof.Machine

/-! ## The running CRC of a unit -/

@[simp] theorem State.crcOf_withCrc (s : State) (u : CrcUnit) (v : Byte) : (s.withCrc u v).crcOf u = v := by
  cases u with
  | rx => rfl
  | tx => rfl

@[simp] theorem State.withCrc_withCrc (s : State) (u : CrcUnit) (v w : Byte) :
    (s.withCrc u v).withCrc u w = s.withCrc u w := by
  cases u with
  | rx => rfl
  | tx => rfl

@[simp] theorem State.withCrc_crcOf (s : State) (u : CrcUnit) : s.withCrc u (s.crcOf u) = s := by
  cases u with
  | rx => rfl
  | tx => rfl

theorem exec_crc8Bit (u : CrcUnit) (s : State) :
    exec (.crc8Bit u) s = .next (s.withCrc u (crc8Bit (s.crcOf u))) :=
  onCrc_eq u crc8Bit s

theorem exec_crc8Byte (u : CrcUnit) (b : Byte) (s : State) :
    exec (.crc8Byte u b) s = .next (s.withCrc u (crc8Byte (s.crcOf u) b)) :=
  onCrc_eq u (crc8Byte · b) s

theorem exec_crc8 (u : CrcUnit) (bytes : List Byte) (s : State) :
    exec (.crc8 u bytes) s = .next (s.withCrc u (crc8 bytes)) :=
  onCrc_eq u (fun _ => crc8 bytes) s

/-- Instructions that each update one unit's running CRC fold their operands into it, in order. -/
theorem execAll_onCrc {α : Type} {u : CrcUnit} {instr : α → Instr} {g : Byte → α → Byte}
    (hstep : ∀ a s, exec (instr a) s = .next (s.withCrc u (g (s.crcOf u) a))) (as : List α) (s : State) :
    execAll (as.map instr) s = .next (s.withCrc u (as.foldl g (s.crcOf u))) := by
  induction as generalizing s with
  | nil => simp [execAll]
  | cons a as ih => simp [execAll, hstep, andThen_next, ih]

theorem execAll_crc8Bytes (u : CrcUnit) (bytes : List Byte) (s : State) :
    execAll (bytes.map (.crc8Byte u)) s = .next (s.withCrc u (crc8From (s.crcOf u) bytes)) :=
  execAll_onCrc (exec_crc8Byte u) bytes s

/-- A fold that ignores its operands repeats its step. -/
theorem foldl_units_eq_repeat (f : Byte → Byte) (n : Nat) (c : Byte) :
    (List.replicate n ()).foldl (fun c _ => f c) c = Nat.repeat f n c := by
  induction n with
  | zero => rfl
  | succ n ih => rw [List.replicate_succ', List.foldl_append, ih]; rfl

theorem execAll_crc8Bits (u : CrcUnit) (n : Nat) (s : State) :
    execAll (List.replicate n (.crc8Bit u)) s = .next (s.withCrc u (Nat.repeat crc8Bit n (s.crcOf u))) := by
  have hrun := execAll_onCrc (g := fun c _ => crc8Bit c) (fun _ => exec_crc8Bit u) (List.replicate n ()) s
  rwa [List.map_replicate, foldl_units_eq_repeat] at hrun

/-- Settles O28: both sides leave the fold of the bytes from the seed. -/
theorem crcOfASequenceFoldsItsBytes : Obligations.CrcOfASequenceFoldsItsBytes := by
  intro u bytes s
  refine ⟨_, exec_crc8 u bytes s, ?_, by rw [State.crcOf_withCrc]⟩
  rw [execAll_crc8Bytes, State.crcOf_withCrc, State.withCrc_withCrc]
  rfl

/-! ## The laws of CRC8 -/

theorem crc8_xor {s t : List Byte} (h : s.length = t.length) :
    crc8 (List.zipWith (· ^^^ ·) s t) = crc8 s ^^^ crc8 t :=
  crc8From_xor seed seed s t h

theorem crc8_cons_zero (s : List Byte) : crc8 (0x00 :: s) = crc8 s :=
  congrArg (crc8From · s) (crc8Byte_self 0x00)

theorem crc8_replicate_zero (n : Nat) : crc8 (List.replicate n 0x00) = 0x00 := by
  induction n with
  | zero => rfl
  | succ n ih => rw [List.replicate_succ, crc8_cons_zero, ih]

theorem crc8_append_self (s : List Byte) : crc8 (s ++ [crc8 s]) = 0x00 :=
  (crc8From_append seed s [crc8 s]).trans (crc8Byte_self (crc8 s))

/-- The 256 entries of the table, each against the eight shift steps (R124 d). -/
theorem crc8_singleton : ∀ b : Byte, crc8 [b] = crcTable.getD b.toNat 0 := by decide +kernel

/-- Settles O29: the four laws of R124. -/
theorem crcLinearZeroAppendTable : Obligations.CrcLinearZeroAppendTable :=
  ⟨fun _ _ => crc8_xor, fun n s => ⟨crc8_cons_zero s, crc8_replicate_zero n⟩, crc8_append_self,
    fun b c => ⟨crc8_singleton b, crc8Byte_zero c b⟩⟩

/-! ## VALIDATE -/

/-- The sync byte and the length byte are not covered (R125). -/
theorem coveredBytes_set {i : Nat} (hi : i < 2) (frame : List Byte) (v : Byte) :
    coveredBytes (frame.set i v) = coveredBytes frame := by
  rw [coveredBytes, List.drop_set_of_lt hi, List.length_set, coveredBytes]

/-- Neither of them is the CRC byte (R51). -/
theorem crcByteOf_set {frame : List Byte} (hl : LegalFrame frame) {i : Nat} (hi : i < 2) (v : Byte) :
    crcByteOf (frame.set i v) = crcByteOf frame := by
  have hne : i ≠ frame.length - 1 := by have := hl.1; omega
  rw [crcByteOf, List.length_set, List.getD_eq_getElem?_getD, List.getElem?_set_ne hne, ← List.getD_eq_getElem?_getD, crcByteOf]

theorem LegalFrame.set {frame : List Byte} (hl : LegalFrame frame) (i : Nat) (v : Byte) : LegalFrame (frame.set i v) := by
  rwa [LegalFrame, List.length_set]

/-- VALIDATE of a legal frame (R125). -/
theorem exec_validate_legal {frame : List Byte} (hl : LegalFrame frame) (s : State) :
    exec (.validate frame) s =
      .next (s.setRx (((s.rx.setFrame (Memory.ofBytes frame)).setCrcacc (crc8 (coveredBytes frame))).setValid
        (decide (crc8 (coveredBytes frame) = crcByteOf frame)))) :=
  onRx_of_next ((withFrame_legal hl _ _).trans (validateFrame_ofBytes _ frame rfl hl.1))

/-- The result bit VALIDATE of a legal frame leaves. -/
theorem exec_validate_valid {frame : List Byte} (hl : LegalFrame frame) {s t : State}
    (ht : exec (.validate frame) s = .next t) :
    t.rx.valid = decide (crc8 (coveredBytes frame) = crcByteOf frame) := by
  rw [← Host.Outcome.next.inj ((exec_validate_legal hl s).symm.trans ht)]
  rfl

/-- Settles O30: the comparison on a legal frame, blind to its first two bytes; any other length is refused. -/
theorem validateComparesTheCrc : Obligations.ValidateComparesTheCrc := by
  intro s frame
  refine ⟨fun hl => ⟨exec_validate_legal hl s, fun sync len t u ht hu => ?_⟩, fun hl => ?_⟩
  · have hsync := hl.set 0 sync
    rw [exec_validate_valid (hsync.set 1 len) hu, exec_validate_valid hl ht,
      coveredBytes_set Nat.one_lt_two, coveredBytes_set Nat.zero_lt_two,
      crcByteOf_set hsync Nat.one_lt_two, crcByteOf_set hl Nat.zero_lt_two]
  · exact onRx_of_refused (withFrame_illegal hl _ _)

/-! ## Tier 1 -/

/-- One shift step as arithmetic on the byte's value (R121). -/
theorem toNat_crc8Bit (c : Byte) :
    (crc8Bit c).toNat = if 128 ≤ c.toNat then (2 * c.toNat ^^^ 0xD5) % 256 else 2 * c.toNat := by
  have hbit : c.getLsbD 7 = decide (128 ≤ c.toNat) := c.msb_eq_decide
  have hshift : (c <<< 1).toNat = 2 * c.toNat % 256 := by
    rw [BitVec.toNat_shiftLeft, Nat.shiftLeft_eq, Nat.pow_one, Nat.mul_comm]
  rw [crc8Bit, hbit]
  by_cases h : 128 ≤ c.toNat
  · rw [if_pos (decide_eq_true h), if_pos h, BitVec.toNat_xor, hshift]
    exact (Nat.xor_mod_two_pow (n := 8)).symm
  · rw [if_neg (by simpa using h), if_neg h, hshift]
    omega

/-- Settles O26: the shift step on the unit's running CRC. -/
theorem crcBitShiftsAndReduces : Obligations.CrcBitShiftsAndReduces :=
  fun u s => ⟨_, exec_crc8Bit u s, toNat_crc8Bit _⟩

/-- Settles O27: the byte's eight shift steps, one instruction each. -/
theorem crcByteIsEightBitSteps : Obligations.CrcByteIsEightBitSteps := by
  intro u b s
  refine ⟨_, exec_crc8Byte u b s, ?_, by rw [State.crcOf_withCrc]⟩
  rw [execAll_crc8Bits, State.crcOf_withCrc, State.withCrc_withCrc]
  rfl

end Sys2Proof.Machine

/-! PROOFS of the family 42_unpack. What DECODE does is written as a function of the frame alone: the fields it stores
(`decodeLayout`) and the event it emits (`decodeEvent`), a structured row of R80 where one reaches the frame's length and the plain
event of R143 and R158 to R165 elsewhere; `exec_decode_eq` ties both to `exec`. A DEC_* row does what DECODE does on a frame of its
type (`exec_typedInstr_eq_decode`), and a structured row's registers are read one by one (`exec_structuredRow`). -/

namespace Sys2Proof.Machine

/-! ## The sync byte -/

@[simp] theorem length_withSync (sync : Byte) (frame : List Byte) : (withSync sync frame).length = frame.length :=
  List.length_set

theorem getD_withSync (sync : Byte) (frame : List Byte) {k : Nat} (hk : 0 < k) :
    (withSync sync frame).getD k 0 = frame.getD k 0 := by
  rw [List.getD_eq_getElem?_getD, withSync, List.getElem?_set_ne (Nat.ne_of_lt hk), ← List.getD_eq_getElem?_getD]

@[simp] theorem typeByte_withSync (sync : Byte) (frame : List Byte) : typeByte (withSync sync frame) = typeByte frame :=
  getD_withSync sync frame Nat.two_pos

theorem LegalFrame.withSync {frame : List Byte} (hl : LegalFrame frame) (sync : Byte) : LegalFrame (withSync sync frame) :=
  hl.set 0 sync

/-- A field behind the sync byte is read alike from the frame with another one (R73). -/
theorem rawOf_withSync (sync : Byte) (frame : List Byte) {off : Nat} (hoff : 0 < off) (kind : FieldKind) :
    rawOf (withSync sync frame) off kind = rawOf frame off kind := by
  cases kind <;> simp only [rawOf, getD_withSync sync frame hoff, getD_withSync sync frame (Nat.succ_pos _)]

theorem storeFields_withSync (sync : Byte) (frame : List Byte) {fds : List Field} (h : ∀ fd ∈ fds, 0 < fd.off)
    (f : Vector Word32 10) : storeFields (withSync sync frame) fds f = storeFields frame fds f := by
  induction fds generalizing f with
  | nil => rfl
  | cons fd fds ih =>
    obtain ⟨hfd, hfds⟩ := List.forall_mem_cons.1 h
    rw [storeFields, List.foldl_cons, rawOf_withSync sync frame hfd]
    exact ih hfds _

/-! ## The seven structured types -/

/-- A structured type (R80): its type byte and minimum length, its operation and instruction, the layout of its fields and the
record made of the frame and the field registers. -/
structure StructuredRow where
  type : Byte
  lMin : Nat
  op : RxState → Res RxState
  instr : List Byte → Instr
  layout : List Field
  record : List Byte → Vector Word32 10 → Record

def linkStatisticsRow : StructuredRow :=
  ⟨0x14, 14, decLinkStatistics, .decLinkStatistics, linkStatisticsLayout, fun _ => linkStatisticsRecord⟩

def attitudeRow : StructuredRow := ⟨0x1E, 10, decAttitude, .decAttitude, attitudeLayout, fun _ => attitudeRecord⟩

/-- DEC_FLIGHT_MODE has no layout: its record is a slice of the frame (R152). -/
def flightModeRow : StructuredRow :=
  ⟨0x21, 5, decFlightMode, .decFlightMode, [], fun frame _ => .flightMode ((frame.drop 3).take (frame.length - 5))⟩

def batterySensorRow : StructuredRow :=
  ⟨0x08, 12, decBatterySensor, .decBatterySensor, batterySensorLayout, fun _ => batterySensorRecord⟩

def baroAltRow : StructuredRow := ⟨0x09, 8, decBaroAlt, .decBaroAlt, baroAltLayout, fun _ => baroAltRecord⟩

def gpsRow : StructuredRow := ⟨0x02, 19, decGps, .decGps, gpsLayout, fun _ => gpsRecord⟩

def varioRow : StructuredRow := ⟨0x07, 6, decVario, .decVario, varioLayout, fun _ => varioRecord⟩

/-- The seven rows, in the order of R140. -/
def structuredRows : List StructuredRow :=
  [linkStatisticsRow, attitudeRow, flightModeRow, batterySensorRow, baroAltRow, gpsRow, varioRow]

theorem forall_structuredRows {P : StructuredRow → Prop} :
    (∀ row ∈ structuredRows, P row) ↔ P linkStatisticsRow ∧ P attitudeRow ∧ P flightModeRow ∧ P batterySensorRow ∧
      P baroAltRow ∧ P gpsRow ∧ P varioRow := by
  simp only [structuredRows, List.forall_mem_cons, List.not_mem_nil, false_implies, implies_true, and_true]

/-- The rows are those of R80. -/
theorem structuredRows_types : structuredRows.map (fun row => (row.type, row.lMin)) = structuredTypes := rfl

theorem StructuredRow.mem_structuredTypes {row : StructuredRow} (h : row ∈ structuredRows) :
    (row.type, row.lMin) ∈ structuredTypes :=
  structuredRows_types ▸ List.mem_map_of_mem h

/-- DECODE selects a row's operation behind the guard of its minimum length (R140, R143). -/
theorem decodeOp_structuredRow : ∀ row ∈ structuredRows, decodeOp row.type = guarded row.lMin row.op :=
  forall_structuredRows.2 ⟨rfl, rfl, rfl, rfl, rfl, rfl, rfl⟩

theorem StructuredRow.mem_typedInstrs : ∀ row ∈ structuredRows, (row.type, row.instr) ∈ typedInstrs := by
  rw [forall_structuredRows]
  simp [typedInstrs, linkStatisticsRow, attitudeRow, flightModeRow, batterySensorRow, baroAltRow, gpsRow, varioRow]

/-- A row's operation on a long enough frame (R26): the layout's registers are written and the record made of them emitted. -/
theorem StructuredRow.op_ofBytes {frame : List Byte} {r : RxState} (hf : r.frame = Memory.ofBytes frame) :
    ∀ row ∈ structuredRows, row.lMin ≤ frame.length →
      row.op r = .next ((r.setF (storeFields frame row.layout r.f)).emit
        (.record (row.record frame (storeFields frame row.layout r.f)) true frame)) :=
  forall_structuredRows.2 ⟨decLinkStatistics_ofBytes hf, decAttitude_ofBytes hf, decFlightMode_ofBytes hf,
    decBatterySensor_ofBytes hf, decBaroAlt_ofBytes hf, decGps_ofBytes hf, decVario_ofBytes hf⟩

/-- A structured record carries the update bit (R144). -/
theorem StructuredRow.record_update (frame : List Byte) (f : Vector Word32 10) :
    ∀ row ∈ structuredRows, (row.record frame f).update = true :=
  forall_structuredRows.2 ⟨rfl, rfl, rfl, rfl, rfl, rfl, rfl⟩

/-- The kind of a row's record is the row's (R204). -/
theorem StructuredRow.record_kind (frame frame' : List Byte) (f f' : Vector Word32 10) :
    ∀ row ∈ structuredRows, (row.record frame f).kind = (row.record frame' f').kind :=
  forall_structuredRows.2 ⟨rfl, rfl, rfl, rfl, rfl, rfl, rfl⟩

/-- No field lies on the sync byte (R73). -/
theorem StructuredRow.off_pos : ∀ row ∈ structuredRows, ∀ fd ∈ row.layout, 0 < fd.off := by
  rw [forall_structuredRows]
  decide

/-- The fields of a layout go to the registers from 0 up, in order (R79). -/
theorem StructuredRow.slots : ∀ row ∈ structuredRows, row.layout.map (fun fd => fd.slot.val) = List.range row.layout.length :=
  forall_structuredRows.2 ⟨rfl, rfl, rfl, rfl, rfl, rfl, rfl⟩

theorem StructuredRow.slots_nodup : ∀ row ∈ structuredRows, (row.layout.map Field.slot).Nodup := by
  rw [forall_structuredRows]
  decide

/-- Two contents of the field registers that agree in those below the `k`-th. -/
def AgreeBelow (k : Nat) (f g : Vector Word32 10) : Prop :=
  ∀ i (hi : i < 10), i < k → f[i] = g[i]

/-- A row's record reads only registers its layout goes to (R26). -/
theorem StructuredRow.record_congr (frame : List Byte) {f g : Vector Word32 10} :
    ∀ row ∈ structuredRows, AgreeBelow row.layout.length f g → row.record frame f = row.record frame g := by
  rw [forall_structuredRows]
  refine ⟨fun (h : AgreeBelow 10 f g) => ?_, fun (h : AgreeBelow 3 f g) => ?_, fun _ => rfl, fun (h : AgreeBelow 4 f g) => ?_,
    fun (h : AgreeBelow 1 f g) => ?_, fun (h : AgreeBelow 6 f g) => ?_, fun (h : AgreeBelow 1 f g) => ?_⟩ <;>
    rw [AgreeBelow] at h
  · simp only [linkStatisticsRow, linkStatisticsRecord, h, Nat.reduceLT]
  · simp only [attitudeRow, attitudeRecord, h, Nat.reduceLT]
  · simp only [batterySensorRow, batterySensorRecord, h, Nat.reduceLT]
  · simp only [baroAltRow, baroAltRecord, h, Nat.reduceLT]
  · simp only [gpsRow, gpsRecord, h, Nat.reduceLT]
  · simp only [varioRow, varioRecord, h, Nat.reduceLT]

/-- What a row's record reads its layout has written, so what the registers held before does not matter (R166). -/
theorem StructuredRow.record_storeFields (frame : List Byte) (f g : Vector Word32 10) {row : StructuredRow}
    (hrow : row ∈ structuredRows) :
    row.record frame (storeFields frame row.layout f) = row.record frame (storeFields frame row.layout g) := by
  refine row.record_congr frame hrow fun i hi hlen => ?_
  have hslot : row.layout[i].slot = ⟨i, hi⟩ := by
    have h := congrArg (·[i]?) (row.slots hrow)
    simp only [List.getElem?_map, List.getElem?_eq_getElem hlen, Option.map_some, List.getElem?_range hlen, Option.some.injEq] at h
    exact Fin.ext h
  have hwritten (f : Vector Word32 10) := getElem_storeFields_mem frame row.layout f _ (List.getElem_mem hlen) (row.slots_nodup hrow)
  simp only [hslot] at hwritten
  exact (hwritten f).trans (hwritten g).symm

theorem StructuredRow.record_withSync (sync : Byte) (frame : List Byte) (f : Vector Word32 10) :
    ∀ row ∈ structuredRows, row.record (withSync sync frame) f = row.record frame f := by
  rw [forall_structuredRows]
  refine ⟨rfl, rfl, ?_, rfl, rfl, rfl, rfl⟩
  simp [flightModeRow, withSync, List.drop_set]

/-! ## What DECODE emits -/

/-- The row of a structured type whose minimum the frame's length reaches (R140). -/
def rowFor (t : Byte) (len : Nat) : Option StructuredRow :=
  structuredRows.find? fun row => row.type == t && decide (row.lMin ≤ len)

theorem rowFor_eq_some {t : Byte} {len : Nat} {row : StructuredRow} (h : rowFor t len = some row) :
    row ∈ structuredRows ∧ row.type = t ∧ row.lMin ≤ len := by
  refine ⟨List.mem_of_find?_eq_some h, ?_⟩
  simpa using List.find?_some h

theorem rowFor_eq_none {t : Byte} {len : Nat} :
    rowFor t len = none ↔ ∀ p ∈ structuredTypes, t = p.1 → len < p.2 := by
  simp only [rowFor, List.find?_eq_none, ← structuredRows_types, List.forall_mem_map, Bool.and_eq_true, beq_iff_eq,
    decide_eq_true_eq, not_and, Nat.not_le, eq_comm (a := t)]

theorem rowFor_isSome {t : Byte} {len : Nat} :
    (rowFor t len).isSome = true ↔ ∃ p ∈ structuredTypes, t = p.1 ∧ p.2 ≤ len := by
  rw [← Option.ne_none_iff_isSome, ne_eq, rowFor_eq_none]
  simp

/-- Why a frame without a row for its length has no fields (R142): none for DEC_DEVICE_INFO, a structured type's frame is
too short, and every other type is not recognised. -/
def rawCause (t : Byte) : Cause :=
  if t = 0x29 then .none
  else if t ∈ structuredTypes.map Prod.fst then .truncatedPayload
  else .unrecognizedPacketType

/-- The event of a frame that gives no structured record: the no-op of R159, else a Raw record. -/
def plainEvent (frame : List Byte) : Event :=
  if typeByte frame = 0x16 then .noop frame
  else rawEvent (decide (typeByte frame ∈ packetTypes)) (rawCause (typeByte frame)) frame

/-- The fields DECODE reads from a frame of type `t` and length `len`. -/
def decodeLayout (t : Byte) (len : Nat) : List Field :=
  match rowFor t len with
  | some row => row.layout
  | none => []

/-- The event DECODE emits for a frame, a function of the frame alone (R166): a structured record's registers are all written, so
any may stand there before. -/
def decodeEvent (frame : List Byte) : Event :=
  match rowFor (typeByte frame) frame.length with
  | some row => .record (row.record frame (storeFields frame row.layout (Vector.replicate 10 0))) true frame
  | none => plainEvent frame

/-! ### Frames without a structured record -/

/-- The fieldless types that DECODE does not recognise (R161 to R165). -/
def unrecognizedTypes : List Byte := [0x0B, 0x0F, 0x2C, 0x2D, 0x3A]

theorem packetTypes_cases : ∀ t ∈ packetTypes,
    t ∈ structuredTypes.map Prod.fst ∨ t = 0x29 ∨ t = 0x16 ∨ t ∈ unrecognizedTypes := by decide

theorem plainEvent_structured {frame : List Byte} (ht : typeByte frame ∈ structuredTypes.map Prod.fst) :
    plainEvent frame = rawEvent true .truncatedPayload frame := by
  have h : ∀ t ∈ structuredTypes.map Prod.fst, t ≠ 0x16 ∧ t ∈ packetTypes ∧ rawCause t = .truncatedPayload := by decide
  obtain ⟨hnoop, hknown, hcause⟩ := h _ ht
  rw [plainEvent, if_neg hnoop, hcause, decide_eq_true hknown]

theorem plainEvent_deviceInfo {frame : List Byte} (ht : typeByte frame = 0x29) :
    plainEvent frame = rawEvent true .none frame := by
  rw [plainEvent, ht]
  rfl

theorem plainEvent_rcChannelsPacked {frame : List Byte} (ht : typeByte frame = 0x16) : plainEvent frame = .noop frame :=
  if_pos ht

theorem plainEvent_unrecognized {frame : List Byte} (ht : typeByte frame ∈ unrecognizedTypes) :
    plainEvent frame = rawEvent true .unrecognizedPacketType frame := by
  have h : ∀ t ∈ unrecognizedTypes, t ≠ 0x16 ∧ t ∈ packetTypes ∧ rawCause t = .unrecognizedPacketType := by decide
  obtain ⟨hnoop, hknown, hcause⟩ := h _ ht
  rw [plainEvent, if_neg hnoop, hcause, decide_eq_true hknown]

theorem plainEvent_unknown {frame : List Byte} (ht : typeByte frame ∉ packetTypes) :
    plainEvent frame = rawEvent false .unrecognizedPacketType frame := by
  have hnoop : typeByte frame ≠ 0x16 := fun h => ht (h ▸ by decide)
  have hinfo : typeByte frame ≠ 0x29 := fun h => ht (h ▸ by decide)
  have hstructured : typeByte frame ∉ structuredTypes.map Prod.fst := fun h => ht (List.mem_append_left _ h)
  rw [plainEvent, if_neg hnoop, rawCause, if_neg hinfo, if_neg hstructured, decide_eq_false ht]

theorem decodeOp_unrecognized : ∀ t ∈ unrecognizedTypes, decodeOp t = unrecognized true := by
  simp only [unrecognizedTypes, List.forall_mem_cons, List.not_mem_nil, false_implies, implies_true, and_true]
  exact ⟨rfl, rfl, rfl, rfl, rfl⟩

/-- DECODE selects the catch-all for a type that is none of the fourteen (R140, R160). -/
theorem decodeOp_unknown {t : Byte} (ht : t ∉ packetTypes) : decodeOp t = decUnknown := by
  simp only [packetTypes, structuredTypes, fieldlessTypes, List.map_cons, List.map_nil, List.mem_append, List.mem_cons,
    List.not_mem_nil, not_or] at ht
  simp only [decodeOp, ht, if_false]

/-- Where no row reaches the frame's length, DECODE emits the plain event and nothing else (R143, R158 to R165). -/
theorem decodeOp_plain {frame : List Byte} (hl : LegalFrame frame)
    (hshort : ∀ p ∈ structuredTypes, typeByte frame = p.1 → frame.length < p.2) {r : RxState}
    (hf : r.frame = Memory.ofBytes frame) : decodeOp (typeByte frame) r = .next (r.emit (plainEvent frame)) := by
  have h2 : 2 < frame.length := Nat.lt_of_lt_of_le (by decide) hl.1
  by_cases hmem : typeByte frame ∈ packetTypes
  · rcases packetTypes_cases _ hmem with ht | ht | ht | ht
    · rw [plainEvent_structured ht]
      obtain ⟨p, hp, hpt⟩ := List.mem_map.1 ht
      obtain ⟨op, hop⟩ := decodeOp_structured p hp
      rw [← hpt, hop, guarded_short (by rw [hf, Memory.length_ofBytes]; exact hshort p hp hpt.symm)]
      exact decTruncated_ofBytes hf h2
    · rw [plainEvent_deviceInfo ht, ht]
      exact decDeviceInfo_ofBytes hf h2
    · rw [plainEvent_rcChannelsPacked ht, ht]
      exact decRcChannelsPacked_ofBytes hf
    · rw [plainEvent_unrecognized ht, decodeOp_unrecognized _ ht]
      exact unrecognized_ofBytes hf true h2
  · rw [plainEvent_unknown hmem, decodeOp_unknown hmem]
    exact unrecognized_ofBytes hf false h2

/-! ### The answer of DECODE -/

/-- DECODE on a legal frame (R140): its fields are stored and its event is emitted, from every state. -/
theorem decodeOp_ofBytes {frame : List Byte} (hl : LegalFrame frame) {r : RxState} (hf : r.frame = Memory.ofBytes frame) :
    decodeOp (typeByte frame) r =
      .next ((r.setF (storeFields frame (decodeLayout (typeByte frame) frame.length) r.f)).emit (decodeEvent frame)) := by
  rw [decodeLayout, decodeEvent]
  cases hrow : rowFor (typeByte frame) frame.length with
  | none => exact decodeOp_plain hl (rowFor_eq_none.1 hrow) hf
  | some row =>
    obtain ⟨hmem, htype, hlong⟩ := rowFor_eq_some hrow
    rw [← htype, decodeOp_structuredRow row hmem, guarded_long (by rwa [hf, Memory.length_ofBytes]),
      row.op_ofBytes hf hmem hlong, row.record_storeFields frame r.f _ hmem]

theorem exec_decode_eq {frame : List Byte} (hl : LegalFrame frame) (s : State) :
    exec (.decode frame) s =
      .next (((s.framed frame).withFields (storeFields frame (decodeLayout (typeByte frame) frame.length) s.rx.f)).emitting
        (decodeEvent frame)) :=
  (execDecode_legal hl s).trans (onRx_of_next (decodeOp_ofBytes hl rfl))

/-- DECODE of a frame without a structured record. -/
theorem exec_decode_plain {frame : List Byte} (hl : LegalFrame frame)
    (hshort : ∀ p ∈ structuredTypes, typeByte frame = p.1 → frame.length < p.2) (s : State) :
    exec (.decode frame) s = .next ((s.framed frame).emitting (plainEvent frame)) :=
  (execDecode_legal hl s).trans (onRx_of_next (decodeOp_plain hl hshort rfl))

/-! ### The sync byte, the kind and the update bit of the event -/

/-- The kind of DECODE's event depends on the type byte and the length only (R166). -/
theorem kind_decodeEvent {frame frame' : List Byte} (hlen : frame'.length = frame.length)
    (htype : typeByte frame' = typeByte frame) : (decodeEvent frame').kind = (decodeEvent frame).kind := by
  rw [decodeEvent, decodeEvent, hlen, htype]
  cases hrow : rowFor (typeByte frame) frame.length with
  | some row => exact row.record_kind _ _ _ _ (rowFor_eq_some hrow).1
  | none =>
    simp only [plainEvent, htype]
    split <;> rfl

theorem resync_structured (sync : Byte) (u : Bool) (frame : List Byte) {rec : Record} (h : rec.update = true) :
    (Event.record rec u frame).resync sync = .record rec u (withSync sync frame) := by
  cases rec with
  | raw => cases h
  | _ => rfl

theorem plainEvent_withSync (sync : Byte) (frame : List Byte) :
    plainEvent (withSync sync frame) = (plainEvent frame).resync sync := by
  simp only [plainEvent, rawEvent, typeByte_withSync]
  split <;> rfl

/-- The sync byte takes no part in DECODE but for the event's copies of the frame (R73, R166). -/
theorem decodeEvent_withSync (sync : Byte) (frame : List Byte) :
    decodeEvent (withSync sync frame) = (decodeEvent frame).resync sync := by
  rw [decodeEvent, decodeEvent, typeByte_withSync, length_withSync]
  cases hrow : rowFor (typeByte frame) frame.length with
  | none => exact plainEvent_withSync sync frame
  | some row =>
    have hmem := (rowFor_eq_some hrow).1
    simp only [storeFields_withSync sync frame (row.off_pos hmem), row.record_withSync sync frame _ hmem,
      resync_structured sync true frame (row.record_update frame _ hmem)]

theorem decodeLayout_off_pos (t : Byte) (len : Nat) : ∀ fd ∈ decodeLayout t len, 0 < fd.off := by
  rw [decodeLayout]
  cases hrow : rowFor t len with
  | none => exact nofun
  | some row => exact row.off_pos (rowFor_eq_some hrow).1

theorem plainEvent_legal {frame : List Byte} (hl : LegalFrame frame) : (plainEvent frame).Legal := by
  rw [plainEvent]
  split
  next ht => exact ⟨hl, ht⟩
  next =>
    refine ⟨hl, rfl, ?_⟩
    rintro t known cause bytes ⟨⟩
    exact ⟨rfl, rfl, decide_eq_true_iff⟩

theorem decodeEvent_legal {frame : List Byte} (hl : LegalFrame frame) : (decodeEvent frame).Legal := by
  rw [decodeEvent]
  cases hrow : rowFor (typeByte frame) frame.length with
  | none => exact plainEvent_legal hl
  | some row =>
    have hupdate := row.record_update frame (storeFields frame row.layout (Vector.replicate 10 0)) (rowFor_eq_some hrow).1
    refine ⟨hl, hupdate.symm, fun t known cause bytes h => ?_⟩
    rw [h] at hupdate
    cases hupdate

/-- Settles O33: the event is `decodeEvent` of the frame, whatever the state. -/
theorem decodeIsTotalAndIgnoresSync : Obligations.DecodeIsTotalAndIgnoresSync := by
  intro frame hl
  refine ⟨decodeEvent frame, decodeEvent_legal hl, fun s => ⟨_, exec_decode_eq hl s, fun sync => ?_⟩,
    fun frame' hlen htype s t ht => ?_⟩
  · rw [exec_decode_eq (hl.withSync sync), decodeEvent_withSync, typeByte_withSync, length_withSync,
      storeFields_withSync sync frame (decodeLayout_off_pos _ _)]
  · have hl' : LegalFrame frame' := by rwa [LegalFrame, hlen]
    rw [← Host.Outcome.next.inj ((exec_decode_eq hl' s).symm.trans ht)]
    exact ⟨decodeEvent frame', rfl, kind_decodeEvent hlen htype⟩

/-- A structured record's kind is neither that of a Raw record nor that of the no-op (R204). -/
theorem kind_of_update {rec : Record} (h : rec.update = true) : ¬ (rec.kind = 0x8 ∨ rec.kind = 0x9) := by
  cases rec with
  | raw => cases h
  | _ => simp [Record.kind]

theorem plainEvent_update_kind (frame : List Byte) :
    (plainEvent frame).pins.update = false ∧ ((plainEvent frame).kind = 0x8 ∨ (plainEvent frame).kind = 0x9) := by
  rw [plainEvent]
  split
  · exact ⟨rfl, .inr rfl⟩
  · exact ⟨rfl, .inl rfl⟩

/-- Settles O34: the event is a structured record where a row reaches the frame's length, else a Raw record or the no-op. -/
theorem updateBitMarksStructured : Obligations.UpdateBitMarksStructured := by
  intro s frame hl
  refine ⟨_, decodeEvent frame, exec_decode_eq hl s, rfl, ?_⟩
  rw [← rowFor_isSome, decodeEvent]
  cases hrow : rowFor (typeByte frame) frame.length with
  | none =>
    obtain ⟨hupdate, hkind⟩ := plainEvent_update_kind frame
    exact ⟨iff_of_false (ne_true_of_eq_false hupdate) Bool.false_ne_true, iff_of_true hupdate hkind⟩
  | some row =>
    have hupdate := row.record_update frame (storeFields frame row.layout (Vector.replicate 10 0)) (rowFor_eq_some hrow).1
    exact ⟨iff_of_true rfl rfl, iff_of_false nofun (kind_of_update hupdate)⟩

/-! ## Dispatch -/

/-- A DEC_* row of one type byte does on a frame of that type what DECODE does (R140). -/
theorem exec_typedInstr_eq_decode {frame : List Byte} (hl : LegalFrame frame) (s : State) {p : Byte × (List Byte → Instr)}
    (hp : p ∈ typedInstrs) (ht : typeByte frame = p.1) : exec (p.2 frame) s = exec (.decode frame) s := by
  rw [exec_typedInstr frame s p hp, decRow_legal (ok := (· == p.1)) hl (beq_iff_eq.2 ht), ← ht]
  exact (execDecode_legal hl s).symm

theorem exec_decUnknown_eq_decode {frame : List Byte} (hl : LegalFrame frame) (s : State) (ht : typeByte frame ∉ packetTypes) :
    exec (.decUnknown frame) s = exec (.decode frame) s := by
  have hop : decodeOp (frame.getD 2 0) = decUnknown := decodeOp_unknown ht
  exact (decRow_legal hl (unknown_class_of_not_mem_packetTypes ht) s).trans (by rw [← hop]; exact (execDecode_legal hl s).symm)

/-- A structured type: the row where the frame reaches its minimum length, else DEC_TRUNCATED (R140, R143). -/
theorem exec_decode_structured {frame : List Byte} (hl : LegalFrame frame) (s : State) {row : StructuredRow}
    (hrow : row ∈ structuredRows) (ht : typeByte frame = row.type) :
    exec (.decode frame) s =
      if row.lMin ≤ frame.length then exec (row.instr frame) s else exec (.decTruncated frame) s := by
  have hinstr := row.mem_typedInstrs hrow
  rw [← exec_typedInstr_eq_decode hl s hinstr ht]
  split
  next => rfl
  next hshort =>
    exact exec_typedInstr_short hl (StructuredRow.mem_structuredTypes hrow) ht (Nat.lt_of_not_le hshort) hinstr rfl s

/-- The instruction of each row of the opcode table is that of its type byte (R75). -/
theorem typeRow_mem_typedInstrs : ∀ r ∈ typeRows, (r.pattern.setWidth 8, r.instr) ∈ typedInstrs := by
  simp [typeRows, typedInstrs]

/-- The instruction a frame word decodes to does what DECODE of the frame does (R75, R140). -/
theorem exec_frameInstr {frame : List Byte} (hl : LegalFrame frame) (s : State) :
    exec (frameInstr frame) s = exec (.decode frame) s := by
  rw [frameInstr]
  rcases rowOf_cases (decodeWord frame) with ⟨hmem, hsel⟩ | ⟨hrow, hnone⟩
  · have htype := typeByte_of_matches hmem hsel
    have hinstr := typeRow_mem_typedInstrs _ hmem
    rw [← exec_typedInstr_eq_decode hl s hinstr htype]
    split
    next hshort =>
      have hstruct := typeRow_structured _ hmem (Nat.lt_of_le_of_lt hl.1 hshort)
      exact (exec_typedInstr_short hl hstruct htype hshort hinstr rfl s).symm
    next => rfl
  · rw [hrow, if_neg (show ¬ frame.length < unknownRow.lMin from Nat.not_lt.2 hl.1)]
    exact exec_decUnknown_eq_decode hl s (not_mem_packetTypes_of_noRow hnone)

theorem decode_frame_legal {frame : List Byte} (hl : LegalFrame frame) : decode (.frame frame) = .ok (frameInstr frame) :=
  Laws.RoundTrip.withLegalLength_ok ((frameOk_iff frame).2 hl) _

theorem forall_typedInstrs {P : Byte → (List Byte → Instr) → Prop} (h : ∀ p ∈ typedInstrs, P p.1 p.2) :
    P 0x02 .decGps ∧ P 0x07 .decVario ∧ P 0x08 .decBatterySensor ∧ P 0x09 .decBaroAlt ∧ P 0x0B .decHeartbeat ∧
      P 0x0F .decVideoTransmitter ∧ P 0x14 .decLinkStatistics ∧ P 0x16 .decRcChannelsPacked ∧ P 0x1E .decAttitude ∧
      P 0x21 .decFlightMode ∧ P 0x29 .decDeviceInfo ∧ P 0x2C .decConfigRead ∧ P 0x2D .decConfigWrite ∧ P 0x3A .decRadioId := by
  simpa only [typedInstrs, List.forall_mem_cons, List.not_mem_nil, false_implies, implies_true, and_true] using h

/-- Settles O32: row by row, then the word of the frame. -/
theorem decodeDispatchesOnTheType : Obligations.DecodeDispatchesOnTheType := by
  intro s frame hl
  obtain ⟨hlink, hattitude, hmode, hbattery, hbaro, hgps, hvario⟩ :=
    forall_structuredRows.1 fun row hrow => exec_decode_structured hl s (row := row) hrow
  obtain ⟨-, -, -, -, hheartbeat, hvideo, -, hrc, -, -, hinfo, hread, hwrite, hradio⟩ :=
    forall_typedInstrs (P := fun t mk => typeByte frame = t → exec (.decode frame) s = exec (mk frame) s)
      fun p hp ht => (exec_typedInstr_eq_decode hl s hp ht).symm
  have hdecode := exec_decode_eq hl s
  exact ⟨hlink, hattitude, hmode, hbattery, hbaro, hgps, hvario, hinfo, hrc, hheartbeat, hvideo, hread, hwrite, hradio,
    fun ht => (exec_decUnknown_eq_decode hl s ht).symm,
    _, _, decode_frame_legal hl, (exec_frameInstr hl s).trans hdecode, hdecode, rfl, _, rfl⟩

/-! ## The types without fields, and frames too short -/

/-- Settles O42: each row does what DECODE does, which emits the type's plain event. -/
theorem fieldlessTypesGiveRawOrNoop : Obligations.FieldlessTypesGiveRawOrNoop := by
  intro s frame hl
  have hplain (ht : typeByte frame ∉ structuredTypes.map Prod.fst) :
      exec (.decode frame) s = .next ((s.framed frame).emitting (plainEvent frame)) :=
    exec_decode_plain hl (fun p hp h => absurd (List.mem_map.2 ⟨p, hp, h.symm⟩) ht) s
  obtain ⟨-, -, -, -, hheartbeat, hvideo, -, hrc, -, -, hinfo, hread, hwrite, hradio⟩ :=
    forall_typedInstrs (P := fun t mk => typeByte frame = t → t ∉ structuredTypes.map Prod.fst →
        exec (mk frame) s = .next ((s.framed frame).emitting (plainEvent frame)))
      fun p hp ht hfieldless => (exec_typedInstr_eq_decode hl s hp ht).trans (hplain (ht ▸ hfieldless))
  refine ⟨fun ht => ?_, fun ht => ?_, fun ht => ?_, fun ht => ?_, fun ht => ?_, fun ht => ?_, fun ht => ?_, fun ht => ?_⟩
  · rw [hinfo ht (by decide), plainEvent_deviceInfo ht]
  · rw [hrc ht (by decide), plainEvent_rcChannelsPacked ht]
  · rw [exec_decUnknown_eq_decode hl s ht, hplain fun h => ht (List.mem_append_left _ h), plainEvent_unknown ht]
  · rw [hheartbeat ht (by decide), plainEvent_unrecognized (by rw [ht]; decide)]
  · rw [hvideo ht (by decide), plainEvent_unrecognized (by rw [ht]; decide)]
  · rw [hread ht (by decide), plainEvent_unrecognized (by rw [ht]; decide)]
  · rw [hwrite ht (by decide), plainEvent_unrecognized (by rw [ht]; decide)]
  · rw [hradio ht (by decide), plainEvent_unrecognized (by rw [ht]; decide)]

/-- Settles O43: below its minimum length the type's guard raises TruncatedPayload. -/
theorem truncatedFrameGivesRaw : Obligations.TruncatedFrameGivesRaw := by
  intro s frame hl p hp ht hshort
  rw [exec_decTruncated_structured hl hp ht, if_pos hshort]
  exact onRx_of_next (decTruncated_ofBytes rfl (Nat.lt_of_lt_of_le (by decide) hl.1))

/-! ## The fields of the structured types -/

/-- A structured row on a legal frame of its type and minimum length: the layout's registers are written and the record made of
them is emitted, and nothing else changes (R26, R150 to R157). -/
theorem exec_structuredRow {row : StructuredRow} (hrow : row ∈ structuredRows) {frame : List Byte} (hl : LegalFrame frame)
    (ht : typeByte frame = row.type) (hlong : row.lMin ≤ frame.length) (s : State) :
    exec (row.instr frame) s =
      .next (((s.framed frame).withFields (storeFields frame row.layout s.rx.f)).emitting
        (.record (row.record frame (storeFields frame row.layout s.rx.f)) true frame)) := by
  have hlen (r : RxState) : row.lMin ≤ (r.setFrame (Memory.ofBytes frame)).frame.length := by
    rwa [RxState.setFrame_frame, Memory.length_ofBytes]
  rw [exec_typedInstr frame s _ (row.mem_typedInstrs hrow), decRow_legal (ok := (· == row.type)) hl (beq_iff_eq.2 ht),
    decodeOp_structuredRow row hrow]
  exact onRx_of_next ((guarded_long (hlen s.rx)).trans (row.op_ofBytes rfl hrow hlong))

/-- A scaled field is its numerator over its denominator (R13). -/
theorem scaled_value_eq {den : Nat} {x : Word32} {n : Int} (h : x.toInt = n) :
    (Scaled.mk x : Scaled den).value = (n : Rat) / (den : Rat) := by
  rw [Scaled.value, Rat.mkRat_eq_div, h]

/-- The registers from the `k`-th on keep their contents where the layout goes only to those below (log entry 28). -/
theorem storeFields_kept (frame : List Byte) {fds : List Field} {k : Nat} (h : ∀ fd ∈ fds, fd.slot.val < k) (f : Vector Word32 10)
    (i : Fin 10) (hi : k ≤ i.val) : (storeFields frame fds f)[i] = f[i] :=
  getElem_storeFields frame fds f i fun fd hfd he => Nat.not_lt.2 hi (he ▸ h fd hfd)

/-- The register of an unbiased field holds the field's raw value (R79), here as an integer. -/
theorem toInt_storeFields {frame : List Byte} {fds : List Field} (hn : (fds.map Field.slot).Nodup) (f : Vector Word32 10)
    {off : Nat} {kind : FieldKind} {n : Int} (i : Fin 10) (hraw : (rawOf frame off kind).toInt = n)
    (h : { slot := i, off := off, kind := kind : Field } ∈ fds) : (storeFields frame fds f)[i].toInt = n :=
  (congrArg BitVec.toInt (getElem_storeFields_raw frame fds f i i.isLt off kind h hn)).trans hraw

/-- Settles O35: each register holds its field of the layout. -/
theorem linkStatisticsFields : Obligations.LinkStatisticsFields := by
  intro s frame hl ht hlong
  have hn : (linkStatisticsLayout.map Field.slot).Nodup := by decide
  exact ⟨_, exec_structuredRow (row := linkStatisticsRow) (by simp [structuredRows]) hl ht hlong s,
    toInt_storeFields hn _ 0 (rawOf_s8 frame 3) (by decide),
    toInt_storeFields hn _ 1 (rawOf_s8 frame 4) (by decide),
    toInt_storeFields hn _ 2 (rawOf_u8 frame 5) (by decide),
    toInt_storeFields hn _ 3 (rawOf_s8 frame 6) (by decide),
    toInt_storeFields hn _ 4 (rawOf_u8 frame 7) (by decide),
    toInt_storeFields hn _ 5 (rawOf_u8 frame 8) (by decide),
    toInt_storeFields hn _ 6 (rawOf_u8 frame 9) (by decide),
    toInt_storeFields hn _ 7 (rawOf_s8 frame 10) (by decide),
    toInt_storeFields hn _ 8 (rawOf_u8 frame 11) (by decide),
    toInt_storeFields hn _ 9 (rawOf_s8 frame 12) (by decide)⟩

/-- Settles O36: three signed 16-bit fields. -/
theorem attitudeFields : Obligations.AttitudeFields := by
  intro s frame hl ht hlong
  have hn : (attitudeLayout.map Field.slot).Nodup := by decide
  have hpitch := toInt_storeFields hn s.rx.f 0 (rawOf_s16be frame 3) (by decide)
  have hroll := toInt_storeFields hn s.rx.f 1 (rawOf_s16be frame 5) (by decide)
  have hyaw := toInt_storeFields hn s.rx.f 2 (rawOf_s16be frame 7) (by decide)
  exact ⟨_, exec_structuredRow (row := attitudeRow) (by simp [structuredRows]) hl ht hlong s, hpitch, hroll, hyaw,
    scaled_value_eq hpitch, scaled_value_eq hroll, scaled_value_eq hyaw, storeFields_kept frame (by decide) _⟩

/-- Settles O37: the slice lies inside the frame, so its bytes are the frame's. -/
theorem flightModeName : Obligations.FlightModeName := by
  intro s frame hl ht hlong
  have hlen : ((frame.drop 3).take (frame.length - 5)).length = frame.length - 5 := by
    rw [List.length_take, List.length_drop]
    omega
  refine ⟨_, exec_structuredRow (row := flightModeRow) (by simp [structuredRows]) hl ht hlong s, hlen, fun i hi => ?_⟩
  rw [List.getElem?_take_of_lt (hlen ▸ hi), List.getElem?_drop]

/-- The expression of `mah` (R153): the middle and the low byte overlap and fill 15 bits, the high byte stands above bit 15. -/
theorem mah_bounds {a b c : Nat} (ha : a < 256) (hb : b < 256) (hc : c < 256) :
    a <<< 16 ||| b <<< 7 ||| c ≤ 0xFF7FFF ∧ (a <<< 16 ||| b <<< 7 ||| c).testBit 15 = false := by
  have hlow : b <<< 7 ||| c < 2 ^ 15 := Nat.or_lt_two_pow (by rw [Nat.shiftLeft_eq]; omega) (by omega)
  have hsum : a <<< 16 ||| b <<< 7 ||| c = a * 2 ^ 16 + (b <<< 7 ||| c) := by
    rw [Nat.or_assoc, ← Nat.shiftLeft_add_eq_or_of_lt (Nat.lt_trans hlow (by decide)), Nat.shiftLeft_eq]
  rw [hsum, Nat.testBit_eq_decide_div_mod_eq]
  exact ⟨by omega, decide_eq_false (by omega)⟩

/-- Settles O38: two signed 16-bit fields, the three bytes of `mah` and the percentage. -/
theorem batteryFields : Obligations.BatteryFields := by
  intro s frame hl ht hlong
  have hn : (batterySensorLayout.map Field.slot).Nodup := by decide
  have hvbat := toInt_storeFields hn s.rx.f 0 (rawOf_s16be frame 3) (by decide)
  have hcurr := toInt_storeFields hn s.rx.f 1 (rawOf_s16be frame 5) (by decide)
  have hmah : (storeFields frame batterySensorLayout s.rx.f)[2].toNat =
      u8At frame 7 <<< 16 ||| u8At frame 8 <<< 7 ||| u8At frame 9 :=
    (congrArg BitVec.toNat (getElem_storeFields_raw frame _ _ 2 (by decide) 7 .mah (by decide) hn)).trans (rawOf_mah frame 7)
  obtain ⟨hmax, hbit⟩ := mah_bounds (u8At_lt frame 7) (u8At_lt frame 8) (u8At_lt frame 9)
  exact ⟨_, exec_structuredRow (row := batterySensorRow) (by simp [structuredRows]) hl ht hlong s, hvbat, hcurr, hmah,
    toInt_storeFields hn _ 3 (rawOf_u8 frame 10) (by decide), hmah ▸ hmax, (congrArg (Nat.testBit · 15) hmah).trans hbit,
    scaled_value_eq hvbat, scaled_value_eq hcurr, storeFields_kept frame (by decide) _⟩

/-- Settles O39: one signed 32-bit field. -/
theorem baroAltField : Obligations.BaroAltField := by
  intro s frame hl ht hlong
  have haltitude := toInt_storeFields (fds := baroAltLayout) (by decide) s.rx.f 0 (rawOf_s32be frame 3) (by decide)
  exact ⟨_, exec_structuredRow (row := baroAltRow) (by simp [structuredRows]) hl ht hlong s, haltitude,
    scaled_value_eq haltitude, storeFields_kept frame (by decide) _⟩

/-- Settles O40: six fields, the altitude with its bias. -/
theorem gpsFields : Obligations.GpsFields := by
  intro s frame hl ht hlong
  have hn : (gpsLayout.map Field.slot).Nodup := by decide
  have hlat := toInt_storeFields hn s.rx.f 0 (rawOf_s32be frame 3) (by decide)
  have hlon := toInt_storeFields hn s.rx.f 1 (rawOf_s32be frame 7) (by decide)
  have hspeed := toInt_storeFields hn s.rx.f 2 (rawOf_s16be frame 11) (by decide)
  have hheading := toInt_storeFields hn s.rx.f 3 (rawOf_s16be frame 13) (by decide)
  have haltitude : (storeFields frame gpsLayout s.rx.f)[4].toInt = s16At frame 15 - 1000 :=
    (congrArg BitVec.toInt (getElem_storeFields_mem frame gpsLayout s.rx.f
      { slot := 4, off := 15, kind := .s16be, bias := -1000 } (by decide) hn)).trans (rawOf_altitude frame 15)
  have hbounds := s16At_bounds frame 15
  exact ⟨_, exec_structuredRow (row := gpsRow) (by simp [structuredRows]) hl ht hlong s, hlat, hlon, hspeed, hheading,
    haltitude, le_of_le_of_eq (by omega) haltitude.symm, le_of_eq_of_le haltitude (by omega),
    toInt_storeFields hn _ 5 (rawOf_u8 frame 17) (by decide), scaled_value_eq hlat, scaled_value_eq hlon,
    scaled_value_eq hspeed, scaled_value_eq hheading, storeFields_kept frame (by decide) _⟩

/-- Settles O41: one signed 16-bit field. -/
theorem varioField : Obligations.VarioField := by
  intro s frame hl ht hlong
  have hspeed := toInt_storeFields (fds := varioLayout) (by decide) s.rx.f 0 (rawOf_s16be frame 3) (by decide)
  exact ⟨_, exec_structuredRow (row := varioRow) (by simp [structuredRows]) hl ht hlong s, hspeed,
    scaled_value_eq hspeed, storeFields_kept frame (by decide) _⟩

end Sys2Proof.Machine

/-! PROOFS of the family 43_pack. The bytes of an encoded frame are read by address (`encodedFrame_head`, `encodedFrame_payload`,
`encodedFrame_crc`). What a commit leaves is said once for each outcome: `TxState.Sent` for a full set (`commit_full`), and
`commit_loads_wrong` for any other count. What the deframer makes of an encoded frame is said of any RC_CHANNELS_PACKED frame
(`exec_chunk_rcChannelsPacked`). -/

namespace Sys2Proof.Machine

/-! ## PACK -/

/-- Settles O46: the byte `PK[k]` is the byte `k` of the packed bytes. -/
theorem packComputesTheClosedForm : Obligations.PackComputesTheClosedForm := by
  intro s
  obtain ⟨pk, hrun, hbytes⟩ := exec_pack_spec s
  refine ⟨pk, hrun, fun k => ?_⟩
  have hbyte : pk[k] = (packedBytes s.tx.ch)[k]'(by simp [packedBytes]) := by simp [← hbytes]
  simp [hbyte, packedBytes]

/-- Bit `j` of channel `i`, read back from the packed bytes (R55, R83). -/
theorem getLsbD_channel (ch : Vector Chan 16) {i j : Nat} (hi : i < 16) (hj : j < 11) :
    (ch.toList.getD i 0).getLsbD j = ((packedBytes ch).getD ((11 * i + j) / 8) 0).getLsbD ((11 * i + j) % 8) := by
  rw [getLsbD_packedBytes _ _ _ (by omega) (Nat.mod_lt _ (by decide)), Nat.div_add_mod, packedNumber_eq,
    testBit_chanNumber _ _ _ hj]

/-- Every channel can be read back, so the packed bytes determine the channels (R189). -/
theorem packedBytes_injective : Function.Injective packedBytes := by
  refine fun ch ch' h => Vector.ext fun i hi => BitVec.eq_of_getLsbD_eq fun j hj => ?_
  have hbit : (ch.toList.getD i 0).getLsbD j = (ch'.toList.getD i 0).getLsbD j := by
    rw [getLsbD_channel ch hi hj, h, getLsbD_channel ch' hi hj]
  simpa [List.getD_eq_getElem?_getD, hi] using hbit

/-! ## The bytes of an encoded frame -/

theorem frameHead_length (ch : Vector Chan 16) : (frameHead ch).length = 25 := by
  simp [frameHead, packedBytes]

/-- Every byte but the last is the head's (R186). -/
theorem encodedFrame_head (start : EncCrcStart) (ch : Vector Chan 16) {a : Nat} (ha : a < 25) :
    (encodedFrame start ch)[a]? = (frameHead ch)[a]? :=
  List.getElem?_append_left (by rwa [frameHead_length])

/-- The last byte is the CRC (R187). -/
theorem encodedFrame_crc (start : EncCrcStart) (ch : Vector Chan 16) :
    (encodedFrame start ch)[25]? = some (crc8 ((frameHead ch).drop start.index)) := by
  rw [encodedFrame, List.getElem?_append_right (Nat.le_of_eq (frameHead_length ch)), frameHead_length]
  rfl

theorem crcByteOf_encodedFrame (start : EncCrcStart) (ch : Vector Chan 16) :
    crcByteOf (encodedFrame start ch) = crc8 ((frameHead ch).drop start.index) := by
  rw [crcByteOf, encodedFrame_length, List.getD_eq_getElem?_getD, encodedFrame_crc, Option.getD_some]

/-- The payload (R186). -/
theorem encodedFrame_payload (start : EncCrcStart) (ch : Vector Chan 16) {k : Nat} (hk : k < 22) :
    (encodedFrame start ch)[3 + k]? = some (BitVec.ofNat 8 (packedNumber ch / 2 ^ (8 * k))) := by
  rw [encodedFrame_head _ _ (by omega), frameHead, List.getElem?_append_right (by simp)]
  simp [packedBytes, hk]

/-- A frame determines its channels, whatever the parameter under which it was encoded (R189). -/
theorem encodedFrame_injective {start start' : EncCrcStart} {ch ch' : Vector Chan 16}
    (h : encodedFrame start ch = encodedFrame start' ch') : ch = ch' := by
  have hhead : frameHead ch = frameHead ch' := List.append_inj_left' h (by simp)
  exact packedBytes_injective (List.append_cancel_left hhead)

/-! ## The commit of a full set -/

/-- Everything the commit of the channels `ch` leaves of the TX half `t` (R186 to R188): the frame in `TXF` and on the TX byte
stream, nothing pending, no pulse. -/
structure TxState.Sent (start : EncCrcStart) (ch : Vector Chan 16) (t t' : TxState) : Prop where
  out : t'.out = t.out ++ txBeats (encodedFrame start ch)
  ch_eq : t'.ch = ch
  chcnt : t'.chcnt = 0
  packacc : t'.packacc = 0
  packn : t'.packn = 0
  pk : t'.pk.toList = packedBytes ch
  crcacc : t'.crcacc = crc8 ((frameHead ch).drop start.index)
  err : t'.err = none
  txf : ∀ a, a < 26 → t'.txf.read a = (encodedFrame start ch)[a]?
  txf_beyond : ∀ a, 26 ≤ a → t'.txf.read a = t.txf.read a

theorem commit_full (start : EncCrcStart) {t : TxState} (h : t.chcnt = 16) :
    ∃ t', commit start t = .next t' ∧ TxState.Sent start t.ch t t' := by
  obtain ⟨pk, txf, hsend, hpk, -, htxf, hbeyond⟩ := sendFrame_spec start ((t.setChcnt 0).setErr none)
  exact ⟨_, (commit_right start t h).trans hsend, rfl, rfl, rfl, rfl, rfl, hpk, rfl, rfl, htxf, hbeyond⟩

/-- What was sent does not depend on the channels and the count before the loads. -/
theorem TxState.Sent.of_loads {start : EncCrcStart} {ch ch' : Vector Chan 16} {n : BitVec 5} {t t' : TxState}
    (h : TxState.Sent start ch ((t.setCh ch').setChcnt n) t') : TxState.Sent start ch t t' :=
  { h with out := h.out, txf_beyond := h.txf_beyond }

/-- Sixteen values fill an empty set (R181). -/
theorem foldl_loadChannel_full {t : TxState} (h : t.chcnt = 0) (ch : Vector Chan 16) :
    ch.toList.foldl loadChannel t = (t.setCh ch).setChcnt 16 := by
  have h0 : t.chcnt.toNat = 0 := by rw [h]; rfl
  have hlen : ch.toList.length = 16 := ch.length_toList
  obtain ⟨ch', n, hfold⟩ := foldl_loadChannel_frame ch.toList t
  have hn : n.toNat = 16 := by
    have hcount := foldl_loadChannel_chcnt ch.toList t (by omega)
    rwa [hfold, h0, hlen] at hcount
  have hch : ch' = ch := by
    have hload := foldl_loadChannel_ch ch.toList t (by omega)
    rw [hfold, h0, hlen] at hload
    rw [List.take_zero, List.nil_append, List.drop_of_length_le (by simp), List.append_nil] at hload
    exact Vector.toList_inj.1 hload
  rw [hfold, hch, BitVec.eq_of_toNat_eq (y := 16) hn]

theorem exec_encode_sixteen {s : State} (h : s.tx.chcnt = 0) (ch : Vector Chan 16) :
    ∃ t, exec (.encode (.values ch.toList)) s = .next (s.setTx t) ∧ TxState.Sent s.encCrcStart ch s.tx t := by
  obtain ⟨t, hcommit, hsent⟩ := commit_full s.encCrcStart (t := (s.tx.setCh ch).setChcnt 16) rfl
  rw [← foldl_loadChannel_full h] at hcommit
  exact ⟨t, (exec_encode_values _ s).trans (onTx_of_next hcommit), hsent.of_loads⟩

/-! ## The commit of another count -/

/-- Everything it leaves: the channels loaded, the count cleared and the pulse with the saturated count (R181, R182). -/
theorem commit_loads_wrong (start : EncCrcStart) (vs : List Chan) {t : TxState} (ht : t.chcnt.toNat ≤ 17)
    (h : min (t.chcnt.toNat + vs.length) 17 ≠ 16) :
    ∃ ch, commit start (vs.foldl loadChannel t) =
      .next (((t.setCh ch).setChcnt 0).raise (BitVec.ofNat 5 (min (t.chcnt.toNat + vs.length) 17))) := by
  have hcount := foldl_loadChannel_chcnt vs t ht
  obtain ⟨ch, n, hfold⟩ := foldl_loadChannel_frame vs t
  rw [hfold, TxState.setChcnt_chcnt] at hcount
  have hwrong : n ≠ 16 := by
    rintro rfl
    exact h hcount.symm
  refine ⟨ch, ?_⟩
  rw [hfold, commit_wrong _ _ hwrong, ← hcount, BitVec.ofNat_toNat, BitVec.setWidth_eq]
  rfl

theorem exec_encode_notSixteen {s : State} (h : s.tx.chcnt = 0) {vs : List Chan} (hlen : vs.length ≠ 16) :
    ∃ ch, exec (.encode (.values vs)) s =
      .next (s.setTx (((s.tx.setCh ch).setChcnt 0).raise (BitVec.ofNat 5 (min vs.length 17)))) := by
  have h0 : s.tx.chcnt.toNat = 0 := by rw [h]; rfl
  obtain ⟨ch, hcommit⟩ := commit_loads_wrong s.encCrcStart vs (t := s.tx) (by omega) (by omega)
  rw [h0, Nat.zero_add] at hcommit
  exact ⟨ch, (exec_encode_values vs s).trans (onTx_of_next hcommit)⟩

/-! ## ENCODE -/

/-- An ENCODE that sends any beat had sixteen values, and the beats are those of their frame. -/
theorem exec_encode_sends {s t : State} {vs : List Chan} {sent : List TxBeat} (h : s.tx.chcnt = 0)
    (hrun : exec (.encode (.values vs)) s = .next t) (hne : sent ≠ []) (hout : t.tx.out = s.tx.out ++ sent) :
    ∃ ch : Vector Chan 16, ch.toList = vs ∧ sent = txBeats (encodedFrame s.encCrcStart ch) := by
  by_cases hlen : vs.length = 16
  · obtain ⟨ch, rfl⟩ : ∃ ch : Vector Chan 16, ch.toList = vs := ⟨⟨vs.toArray, by simpa using hlen⟩, by simp⟩
    obtain ⟨t', hsent, hframe⟩ := exec_encode_sixteen h ch
    obtain rfl := Host.Outcome.next.inj (hsent.symm.trans hrun)
    exact ⟨ch, rfl, List.append_cancel_left (hout.symm.trans hframe.out)⟩
  · obtain ⟨ch, hwrong⟩ := exec_encode_notSixteen h hlen
    obtain rfl := Host.Outcome.next.inj (hwrong.symm.trans hrun)
    exact absurd (List.self_eq_append_right.1 hout) hne

/-- Settles O48: the bytes `PK` are the packed bytes of the channels, and the beats carry the bytes of the frame. -/
theorem packingIsInjective : Obligations.PackingIsInjective := by
  refine ⟨fun s s' t t' hrun hrun' hpk => ?_, fun s s' t t' vs vs' sent h h' hrun hrun' hne hout hout' => ?_⟩
  · obtain ⟨pk, hpack, hbytes⟩ := exec_pack_spec s
    obtain ⟨pk', hpack', hbytes'⟩ := exec_pack_spec s'
    obtain rfl := Host.Outcome.next.inj (hpack.symm.trans hrun)
    obtain rfl := Host.Outcome.next.inj (hpack'.symm.trans hrun')
    exact packedBytes_injective (hbytes.symm.trans ((congrArg Vector.toList hpk).trans hbytes'))
  · obtain ⟨ch, rfl, hsent⟩ := exec_encode_sends h hrun hne hout
    obtain ⟨ch', rfl, hsent'⟩ := exec_encode_sends h' hrun' hne hout'
    have hframe := congrArg (List.map TxBeat.data) (hsent.symm.trans hsent')
    rw [txBeats_data, txBeats_data] at hframe
    rw [encodedFrame_injective hframe]

/-- Settles O49: each address of `TXF` reads the byte of the frame there. -/
theorem encodeWritesTheFrame : Obligations.EncodeWritesTheFrame := by
  intro s ch h
  obtain ⟨t, hrun, hsent⟩ := exec_encode_sixteen h ch
  have hidx : s.encCrcStart.index ≤ 2 := by cases s.encCrcStart <;> decide
  have hlen : ((frameHead ch).drop s.encCrcStart.index).length = 25 - s.encCrcStart.index := by
    rw [List.length_drop, frameHead_length]
  refine ⟨_, hrun, hsent.txf 0 (by decide), hsent.txf 1 (by decide), hsent.txf 2 (by decide),
    fun k hk => (hsent.txf _ (by omega)).trans (encodedFrame_payload _ _ hk),
    ⟨_, ?_, (hsent.txf 25 (by decide)).trans (encodedFrame_crc _ _)⟩, hsent.txf_beyond⟩
  rw [txfSlice, ← hlen]
  refine memSlice_of_read _ _ _ _ fun i hi => ?_
  rw [State.setTx_tx, hsent.txf _ (by omega), encodedFrame_head _ _ (by omega), List.getElem?_drop]

/-- Settles O50: the two outcomes of a commit, from an empty set. -/
theorem encodeSendsTheFrame : Obligations.EncodeSendsTheFrame := by
  refine ⟨fun s vs h hlen => exec_encode_notSixteen h hlen, fun s ch h => ?_⟩
  obtain ⟨t, hrun, hsent⟩ := exec_encode_sixteen h ch
  exact ⟨t, hrun, hsent.out, encodedFrame_length _ _, hsent.ch_eq, hsent.chcnt, hsent.packacc, hsent.packn, hsent.pk,
    hsent.crcacc.trans (crcByteOf_encodedFrame _ _).symm, hsent.err, hsent.txf⟩

/-- Settles O51: the last beat is one load more and the commit, which is right after fifteen loads only. -/
theorem commitChecksTheCount : Obligations.CommitChecksTheCount := by
  refine ⟨fun s v h => ?_, fun s v h15 h17 => ?_, fun s h => ?_⟩
  · have hload : loadChannel s.tx v = (s.tx.setCh (s.tx.ch.set 15 v)).setChcnt 16 := by
      rw [loadChannel_room s.tx v (by rw [h]; decide)]
      simp only [h]
      rfl
    obtain ⟨t, hcommit, hsent⟩ := commit_full s.encCrcStart (t := loadChannel s.tx v) (by rw [hload]; rfl)
    rw [hload] at hsent
    exact ⟨t, onTx_of_next (op := fun u => commit s.encCrcStart (loadChannel u v)) hcommit, hsent.out, hsent.chcnt,
      hsent.ch_eq, hsent.err, hsent.txf⟩
  · have hne : s.tx.chcnt.toNat ≠ 15 := fun h => h15 (BitVec.eq_of_toNat_eq h)
    obtain ⟨ch, hcommit⟩ := commit_loads_wrong s.encCrcStart [v] h17 (by rw [List.length_singleton]; omega)
    exact ⟨ch, onTx_of_next (op := fun u => commit s.encCrcStart (loadChannel u v)) hcommit⟩
  · have hself : s.tx.setChcnt 0 = s.tx := by rw [← h]; rfl
    have hcommit := commit_wrong s.encCrcStart s.tx (by rw [h]; decide)
    rw [hself, h] at hcommit
    exact (exec_encode_values [] s).trans (onTx_of_next hcommit)

/-! ## An encoded frame against the validator -/

/-- The validator covers the head from the type byte on (R125). -/
theorem coveredBytes_encodedFrame (start : EncCrcStart) (ch : Vector Chan 16) :
    coveredBytes (encodedFrame start ch) = (frameHead ch).drop 2 := by
  have hlen : ((frameHead ch).drop 2).length = 23 := by rw [List.length_drop, frameHead_length]
  rw [coveredBytes, encodedFrame_length, encodedFrame, List.drop_append_of_le_length (by rw [frameHead_length]; decide)]
  exact List.take_left' hlen

theorem zipWith_xor_zeros (bs : List Byte) : List.zipWith (· ^^^ ·) bs (List.replicate bs.length 0x00) = bs := by
  induction bs with
  | nil => rfl
  | cons b bs ih => rw [List.length_cons, List.replicate_succ, List.zipWith_cons_cons, ih]; simp

/-- What the first byte contributes to a CRC depends on the number of bytes behind it alone: the CRC is linear (R124). -/
theorem crc8_cons (b : Byte) (bs : List Byte) :
    crc8 (b :: bs) = crc8 bs ^^^ crc8 (b :: List.replicate bs.length 0x00) := by
  have hzip : List.zipWith (· ^^^ ·) (0x00 :: bs) (b :: List.replicate bs.length 0x00) = b :: bs := by
    rw [List.zipWith_cons_cons, zipWith_xor_zeros]
    simp
  rw [← crc8_cons_zero bs, ← crc8_xor (by simp), hzip]

/-- The encoder's CRC from the length byte on, against that from the type byte on (R190): the length byte 24 before 23 bytes
contributes 0x81. -/
theorem crc8_frameHead_drop_one (ch : Vector Chan 16) :
    crc8 ((frameHead ch).drop 1) = crc8 ((frameHead ch).drop 2) ^^^ 0x81 := by
  have hlen : ((frameHead ch).drop 2).length = 23 := by rw [List.length_drop, frameHead_length]
  have hbyte : crc8 (24 :: List.replicate 23 0x00) = 0x81 := by decide +kernel
  rw [← hbyte, ← hlen]
  exact crc8_cons 24 ((frameHead ch).drop 2)

/-- The CRC byte against the validator's value (R190). -/
theorem crcByteOf_encodedFrame_xor (start : EncCrcStart) (ch : Vector Chan 16) :
    crcByteOf (encodedFrame start ch) =
      crc8 (coveredBytes (encodedFrame start ch)) ^^^ (if start = .lengthByte then 0x81 else 0x00) := by
  rw [crcByteOf_encodedFrame, coveredBytes_encodedFrame]
  cases start with
  | lengthByte => exact crc8_frameHead_drop_one ch
  | typeByte => exact BitVec.xor_zero.symm

theorem xor_eq_self_iff (a b : Byte) : a ^^^ b = a ↔ b = 0#8 := by
  rw [← BitVec.xor_right_inj (x := b) (y := 0#8) a, BitVec.xor_zero]

/-- So the frame validates exactly where `ENC_CRC_START` is 2. -/
theorem encodedFrame_valid_iff (start : EncCrcStart) (ch : Vector Chan 16) :
    crc8 (coveredBytes (encodedFrame start ch)) = crcByteOf (encodedFrame start ch) ↔ start = .typeByte := by
  rw [crcByteOf_encodedFrame_xor, eq_comm, xor_eq_self_iff]
  cases start with
  | lengthByte => decide
  | typeByte => decide

theorem encodedFrame_legal (start : EncCrcStart) (ch : Vector Chan 16) : LegalFrame (encodedFrame start ch) := by
  rw [LegalFrame, encodedFrame_length]
  decide

theorem getD_encodedFrame (start : EncCrcStart) (ch : Vector Chan 16) {a : Nat} (ha : a < 25) :
    (encodedFrame start ch).getD a 0 = (frameHead ch).getD a 0 := by
  rw [List.getD_eq_getElem?_getD, encodedFrame_head start ch ha, ← List.getD_eq_getElem?_getD]

/-- The length byte announces the frame's own length (R71, R186). -/
theorem encodedFrame_announced (start : EncCrcStart) (ch : Vector Chan 16) :
    (encodedFrame start ch).length = u8At (encodedFrame start ch) 1 + 2 := by
  rw [encodedFrame_length, u8At, getD_encodedFrame start ch (by decide)]
  rfl

theorem typeByte_encodedFrame (start : EncCrcStart) (ch : Vector Chan 16) : typeByte (encodedFrame start ch) = 0x16 :=
  getD_encodedFrame start ch (by decide)

/-- From an empty buffer, FEED of one frame leaves what accepting it as the candidate frame leaves (R104). -/
theorem exec_chunk_frame {s : State} (hd : s.rx.drop = none) (hempty : s.rx.rxbuf = []) {frame : List Byte} (hl : LegalFrame frame)
    (hlen : frame.length = u8At frame 1 + 2) {r : RxState}
    (h : acceptFrame (s.rx.setFrame (Memory.ofBytes frame)) = .next r) : exec (.feed (.chunk frame)) s = .next (s.setRx r) :=
  onRx_of_next ((feedChunk_frame hd hempty hl hlen).trans h)

/-- A frame of the type RC_CHANNELS_PACKED decodes to the no-op (R159). -/
theorem decodeFrame_rcChannelsPacked {frame : List Byte} (hl : LegalFrame frame) (ht : typeByte frame = 0x16) {r : RxState}
    (hf : r.frame = Memory.ofBytes frame) : decodeFrame r = .next (r.emit (.noop frame)) := by
  have hread : memRead1 r.frame 2 = .next (typeByte frame) := by
    rw [hf]
    exact memRead1_ofBytes frame 2 (by have := hl.1; omega)
  have hfieldless : ∀ p ∈ structuredTypes, typeByte frame ≠ p.1 := by
    rw [ht]
    decide
  rw [decodeFrame_eq_decodeOp r _ hread, decodeOp_plain hl (fun p hp h => absurd h (hfieldless p hp)) hf,
    plainEvent_rcChannelsPacked ht]

/-- What FEED of one RC_CHANNELS_PACKED frame emits: the CRC error or, where the CRC is right, the no-op (R126, R159). -/
def rcEvent (frame : List Byte) : Event :=
  if crc8 (coveredBytes frame) = crcByteOf frame then .noop frame else .crcError frame (crc8 (coveredBytes frame))

theorem exec_chunk_rcChannelsPacked {s : State} (hd : s.rx.drop = none) (hempty : s.rx.rxbuf = []) {frame : List Byte}
    (hl : LegalFrame frame) (hlen : frame.length = u8At frame 1 + 2) (ht : typeByte frame = 0x16) :
    ∃ t, exec (.feed (.chunk frame)) s = .next t ∧ t.rx.rxbuf = [] ∧ t.rx.events = s.rx.events ++ [rcEvent frame] := by
  by_cases hc : crc8 (coveredBytes frame) = crcByteOf frame
  · have haccept := (acceptFrame_valid (r := s.rx.setFrame (Memory.ofBytes frame)) hl rfl hc).trans
      (decodeFrame_rcChannelsPacked hl ht rfl)
    exact ⟨_, exec_chunk_frame hd hempty hl hlen haccept, hempty, by simp [rcEvent, hc]⟩
  · have haccept := acceptFrame_invalid (r := s.rx.setFrame (Memory.ofBytes frame)) hl rfl hc
    exact ⟨_, exec_chunk_frame hd hempty hl hlen haccept, hempty, by simp [rcEvent, hc]⟩

/-- An encoded frame fed back gives the CRC error where `ENC_CRC_START` is 1 and the no-op where it is 2 (R190). -/
theorem rcEvent_encodedFrame (start : EncCrcStart) (ch : Vector Chan 16) :
    rcEvent (encodedFrame start ch) =
      if start = .lengthByte then .crcError (encodedFrame start ch) (crc8 (coveredBytes (encodedFrame start ch)))
      else .noop (encodedFrame start ch) := by
  simp only [rcEvent, encodedFrame_valid_iff]
  cases start with
  | lengthByte => rfl
  | typeByte => rfl

/-- Settles O53: the CRC byte differs by what the length byte contributes, so VALIDATE and the deframer accept the frame or reject
it as `ENC_CRC_START` says. -/
theorem encodedFrameAgainstTheValidator : Obligations.EncodedFrameAgainstTheValidator := by
  intro s start ch hd hempty
  have hl := encodedFrame_legal start ch
  have hvalidate := exec_validate_legal hl s
  obtain ⟨t, hfeed, hbuf, hevents⟩ :=
    exec_chunk_rcChannelsPacked hd hempty hl (encodedFrame_announced start ch) (typeByte_encodedFrame start ch)
  refine ⟨crcByteOf_encodedFrame_xor start ch, ⟨_, hvalidate, ?_⟩, t, hfeed, hbuf, hevents.trans ?_⟩
  · rw [exec_validate_valid hl hvalidate, decide_eq_true_iff, encodedFrame_valid_iff]
  · rw [rcEvent_encodedFrame]

/-! ## Tier 1 -/

theorem exec_chLoad (v : Chan) (s : State) : exec (.chLoad v) s = .next (s.setTx (loadChannel s.tx v)) := rfl

/-- Settles O45: the three cases of CH_LOAD. -/
theorem chLoadStoresAndCounts : Obligations.ChLoadStoresAndCounts := by
  intro s v
  rw [exec_chLoad]
  refine ⟨fun h => by rw [loadChannel_room s.tx v h], fun h => ?_, fun h => by rw [loadChannel_17 s.tx v h]; rfl⟩
  have hfull : s.tx.chcnt = 16 := BitVec.eq_of_toNat_eq h
  rw [loadChannel_16 s.tx v h, hfull]
  rfl

end Sys2Proof.Machine

/-! PROOFS of the family 60_exceptions. The pin form of an event is said once per kind of event: `pins_record` gives the row of every
record by its kind, its cause and its slots, and the rows of R204's table are its instances. -/

namespace Sys2Proof.Machine

/-- Settles O13: an illegal length byte selects the discard, which reports the whole buffer (R202). -/
theorem scanDiscardLosesTheWholeBuffer : Obligations.ScanDiscardLosesTheWholeBuffer := by
  intro s h3 hb
  rw [exec_scanDiscard_selected (selectArm_eq_discard.2 ⟨h3, hb⟩), setRx_scanDiscard rfl]

/-! ## The pin form of an event -/

/-- A record's row of R204's table: its kind, the code of the error it reports, and its slots. -/
theorem pins_record (rec : Record) (u : Bool) (frame : List Byte) :
    (Event.record rec u frame).pins =
      pinRow rec.kind (Event.record rec u frame).cause u rec.known none frame rec.slots := rfl

theorem pins_noop (frame : List Byte) : (Event.noop frame).pins = pinRow 0x9 0 false none none frame [] := rfl

theorem pins_crcError (frame : List Byte) (computed : Byte) :
    (Event.crcError frame computed).pins = pinRow 0xA 2 false none (some computed) frame [] := rfl

theorem vector_ofFn_const {α : Type} (n : Nat) (a : α) : (Vector.ofFn fun _ : Fin n => a) = Vector.replicate n a := by
  ext i hi
  simp

/-- The framing error has no frame and no record, so its frame and slot pins carry no value; its count saturates (U11). -/
theorem pins_framingError (n : Nat) (b : Byte) :
    (Event.framingError n b).pins =
      { kind := 0xB, cause := 1, update := false, known := none, type := none, len := none,
        frame := Vector.replicate 64 none, f := Vector.replicate 10 none,
        ndisc := some (BitVec.ofNat 16 (min n 65535)), lenbyte := some b, crc := none } := by
  rw [← vector_ofFn_const 64, ← vector_ofFn_const 10]
  rfl

/-- `ev_len` is wide enough for every frame of at most 64 bytes. -/
theorem pins_len_toNat {e : Event} {frame : List Byte} (h : e.frame = some frame) (hl : frame.length ≤ 64) :
    e.pins.len.map BitVec.toNat = some frame.length := by
  simp only [Event.pins, h, Option.map_some, BitVec.toNat_ofNat]
  rw [Nat.mod_eq_of_lt (by omega)]

theorem pins_frame_getElem {e : Event} {frame : List Byte} (h : e.frame = some frame) (i : Fin 64) :
    e.pins.frame[i] = frame[i.val]? := by
  simp [Event.pins, h]

/-- Settles O54: a record's row is its instance of `pins_record`, and the other kinds have a row each. -/
theorem eventPinForm : Obligations.EventPinForm := by
  refine ⟨fun u frame a b c d e f g h i j => ⟨rfl, pins_record _ u frame⟩,
    fun u frame pitch roll yaw => ⟨rfl, pins_record _ u frame⟩,
    fun u frame name => ⟨rfl, pins_record _ u frame⟩,
    fun u frame vbat curr mah pct => ⟨rfl, pins_record _ u frame⟩,
    fun u frame altitude => ⟨rfl, pins_record _ u frame⟩,
    fun u frame lat lon speed heading altitude satellites => ⟨rfl, pins_record _ u frame⟩,
    fun u frame vspeed => ⟨rfl, pins_record _ u frame⟩,
    fun u known frame bytes type cause =>
      ⟨rfl, pins_record _ u frame, pins_record _ u frame, pins_record _ u frame⟩,
    pins_noop, pins_crcError, fun n b => ⟨_, ?count, pins_framingError n b⟩,
    fun e frame h hl => ⟨pins_len_toNat h hl, pins_frame_getElem h⟩⟩
  case count => exact Nat.mod_eq_of_lt (by omega)

end Sys2Proof.Machine

/-! PROOFS of the family 70_reset_and_hazards. RESET leaves both paths empty whatever the state was (R230), so the statements about
what comes after it, and the hazard of R235, are statements about a FEED from an empty buffer and an ENCODE from an empty set. -/

namespace Sys2Proof.Machine

/-! ## FEED from an empty buffer -/

theorem State.buffering_nil {s : State} (hempty : s.rx.rxbuf = []) : s.buffering [] = s := by
  rw [← hempty]
  rfl

theorem exec_chunk_wait_of_empty {s : State} (hd : s.rx.drop = none) (hempty : s.rx.rxbuf = []) {chunk : List Byte}
    (h : selectArm chunk = .wait) : exec (.feed (.chunk chunk)) s = .next (s.buffering chunk) := by
  have hwait := exec_chunk_wait hd (chunk := chunk) (by rwa [hempty])
  rwa [hempty] at hwait

theorem exec_chunk_discard_of_empty {s : State} (hd : s.rx.drop = none) (hempty : s.rx.rxbuf = []) {chunk : List Byte} {b : Byte}
    (h3 : 3 ≤ chunk.length) (hb : chunk.getD 1 0 = b) (hillegal : ¬ LegalLenByte b) :
    exec (.feed (.chunk chunk)) s = .next (s.emitting (.framingError chunk.length b)) := by
  have hlost := exec_chunk_discard hd (chunk := chunk) (by rwa [hempty]) (by rwa [hempty]) hillegal
  rwa [hempty, State.buffering_nil hempty] at hlost

/-- One frame with a right CRC gives one event, what DECODE makes of it: no CRC error and no framing error (R104, R206). -/
theorem exec_chunk_validFrame {s : State} (hd : s.rx.drop = none) (hempty : s.rx.rxbuf = []) {frame : List Byte}
    (hl : LegalFrame frame) (hlen : frame.length = u8At frame 1 + 2) (hc : crc8 (coveredBytes frame) = crcByteOf frame) :
    ∃ t e, exec (.feed (.chunk frame)) s = .next t ∧ t.rx.events = s.rx.events ++ [e] ∧
      e.error ≠ some .checksumError ∧ e.error ≠ some .framingError := by
  obtain ⟨regs, event, hdecode, hevent⟩ := decodeFrame_emitsOne _ frame hl rfl hl.1
  obtain ⟨-, hframing, hchecksum⟩ := hevent s.rx.f
  have haccept := (acceptFrame_valid (r := s.rx.setFrame (Memory.ofBytes frame)) hl rfl hc).trans (hdecode _ rfl)
  exact ⟨_, event s.rx.f, exec_chunk_frame hd hempty hl hlen haccept, rfl, hchecksum, hframing⟩

/-- 0xC8 is beyond the greatest legal length byte (R72), which makes a stray byte in front of a frame costly (R235). -/
theorem not_legalLenByte_sync : ¬ LegalLenByte 0xC8 := by
  rw [← legalLen_iff]
  decide

/-- Settles O25: the sync byte stands where the length byte is read, at once in one chunk and at the third byte fed alone. -/
theorem strayByteDiscardsTheFrame : Obligations.StrayByteDiscardsTheFrame := by
  intro s stray len rest hd hempty
  constructor
  · have hlost := exec_chunk_discard_of_empty hd hempty (chunk := stray :: 0xC8 :: len :: rest) (by simp) rfl not_legalLenByte_sync
    rwa [show (stray :: 0xC8 :: len :: rest).length = 3 + rest.length by simp; omega] at hlost
  · have hfirst : exec (.feed (.chunk [stray])) s = .next (s.buffering [stray]) :=
      exec_chunk_wait_of_empty hd hempty (selectArm_short (by simp))
    have hsecond : exec (.feed (.chunk [0xC8])) (s.buffering [stray]) = .next (s.buffering [stray, 0xC8]) :=
      exec_chunk_wait (s := s.buffering [stray]) hd (selectArm_short (by simp [State.buffering]))
    have hthird : exec (.feed (.chunk [len])) (s.buffering [stray, 0xC8]) =
        .next ((s.buffering []).emitting (.framingError 3 0xC8)) :=
      exec_chunk_discard (s := s.buffering [stray, 0xC8]) hd (by simp [State.buffering]) rfl not_legalLenByte_sync
    rw [State.buffering_nil hempty] at hthird
    rw [feedChunks_cons hfirst, feedChunks_cons hsecond, feedChunks_cons hthird]
    rfl

/-! ## RESET -/

/-- Settles O10: RESET gives each of these registers its value and touches neither the parameter nor the ports (R230). -/
theorem resetClearsBothPaths : Obligations.ResetClearsBothPaths :=
  fun s => ⟨_, execReset_eq s, rfl, rfl, rfl, rfl, rfl, rfl, rfl, rfl, rfl, rfl, rfl, rfl, rfl⟩

/-- Three bytes in an empty buffer are no complete frame: they are lost, or they wait (R72, R103, R105). -/
theorem exec_chunk_threeBytes {s : State} (hd : s.rx.drop = none) (hempty : s.rx.rxbuf = []) (a b c : Byte) :
    exec (.feed (.chunk [a, b, c])) s = .next (s.emitting (.framingError 3 b)) ∨
      exec (.feed (.chunk [a, b, c])) s = .next (s.buffering [a, b, c]) := by
  by_cases hb : LegalLenByte b
  · have hshort : 3 < b.toNat + 2 := by have := hb.1; omega
    exact .inr (exec_chunk_wait_of_empty hd hempty (selectArm_wait (Nat.le_refl 3) hb hshort))
  · exact .inl (exec_chunk_discard_of_empty hd hempty (Nat.le_refl 3) rfl hb)

theorem txBeats_ne_nil {bs : List Byte} (h : bs ≠ []) : txBeats bs ≠ [] := fun hnil =>
  h (by rw [← txBeats_data bs, hnil, List.map_nil])

/-- From an empty set and with no beat waiting, ENCODE sends the frame of sixteen values, or it raises the pulse (R182, R188). -/
theorem exec_encode_of_empty {s : State} (hcount : s.tx.chcnt = 0) (hout : s.tx.out = []) (vs : List Chan) :
    ∃ u, exec (.encode (.values vs)) s = .next u ∧ (u.tx.out ≠ [] ↔ vs.length = 16) ∧ (u.txErr = true ↔ vs.length ≠ 16) ∧
      ∀ ch : Vector Chan 16, ch.toList = vs → u.tx.out = txBeats (encodedFrame s.encCrcStart ch) := by
  by_cases hlen : vs.length = 16
  · obtain ⟨ch, rfl⟩ : ∃ ch : Vector Chan 16, ch.toList = vs := ⟨⟨vs.toArray, by simpa using hlen⟩, by simp⟩
    obtain ⟨t, hrun, hsent⟩ := exec_encode_sixteen hcount ch
    have hbeats : t.out = txBeats (encodedFrame s.encCrcStart ch) := by rw [hsent.out, hout, List.nil_append]
    have hne : t.out ≠ [] := hbeats ▸ txBeats_ne_nil (List.ne_nil_of_length_eq_add_one (encodedFrame_length _ ch))
    refine ⟨_, hrun, iff_of_true hne hlen, iff_of_false ?_ (not_not_intro hlen), fun ch' hch => ?_⟩
    · simp [State.txErr, hsent.err]
    · rw [Vector.toList_inj.1 hch]
      exact hbeats
  · obtain ⟨ch, hrun⟩ := exec_encode_notSixteen hcount hlen
    exact ⟨_, hrun, iff_of_false (not_not_intro hout) hlen, iff_of_true rfl hlen,
      fun ch' hch => absurd (hch ▸ ch'.length_toList) hlen⟩

/-- Settles O11: RESET leaves an empty buffer and an empty set, and each clause is what comes from these. -/
theorem firstBehaviourAfterReset : Obligations.FirstBehaviourAfterReset := by
  intro s t hreset
  obtain ⟨t', hreset', hempty, -, hd, hcount, -, -, hevents, hout, -⟩ := resetClearsBothPaths s
  obtain rfl := Host.Outcome.next.inj (hreset'.symm.trans hreset)
  refine ⟨fun chunk h2 => exec_chunk_wait_of_empty hd hempty (selectArm_short (Nat.lt_succ_of_le h2)),
    exec_chunk_threeBytes hd hempty, fun a ty => ?_, exec_encode_of_empty hcount hout⟩
  have hl : LegalFrame [a, 2, ty, crc8 [ty]] := ⟨by simp, by simp⟩
  obtain ⟨u, e, hrun, hevent, hchecksum, hframing⟩ := exec_chunk_validFrame hd hempty hl rfl rfl
  rw [hevents, List.nil_append] at hevent
  refine ⟨u, hrun, by rw [hevent, List.length_singleton], fun e' he => ?_⟩
  obtain rfl : e' = e := by rwa [hevent, List.mem_singleton] at he
  exact ⟨hchecksum, hframing⟩

end Sys2Proof.Machine
